-- ==== Sys2Proof/Word.lean ====
section
/-! DEFINITION. The bit-vector types of the engine: byte, 32-bit register word, 16-byte block (00_scope.md R10 to R12). -/

namespace Sys2Proof

/-- One byte of a byte string or of buffer memory (R10). -/
abbrev Byte := BitVec 8

/-- A host-visible register, a command word, a byte address or a byte count (R12, R29, R30). -/
abbrev Word := BitVec 32

/-- A byte string: key, IV, nonce, AAD, payload, tag (R10). Byte 0 is the head. -/
abbrev Bytes := List Byte

/-- A block, a byte string of length 16 (R10), held as the 128-bit integer `int` of R11 reads from it:
byte 0 is bits 127..120 and byte 15 is bits 7..0 (log 22). -/
abbrev Block := BitVec 128

end Sys2Proof
end

