-- ==== Sys2Proof/Syntax.lean ====
section
/-! DEFINITION. The sixteen commands of 30_encoding.md R63, one constructor per row of spec/opcode_table.json. -/

namespace Sys2Proof

/-- A command of the engine. Every constructor carries the three operand flags of R61: `ivp` (bit 5, an IV or nonce is
supplied), `aadp` (bit 6, associated data is supplied), `tagp` (bit 7, a tag is supplied). -/
inductive Instr where
  /-- `ECB.ENC`, R97. -/
  | ecbEnc (ivp aadp tagp : Bool)
  /-- `ECB.DEC`, R98. -/
  | ecbDec (ivp aadp tagp : Bool)
  /-- `CBC.ENC`, R100. -/
  | cbcEnc (ivp aadp tagp : Bool)
  /-- `CBC.DEC`, R101. -/
  | cbcDec (ivp aadp tagp : Bool)
  /-- `CFB.ENC`, R102. -/
  | cfbEnc (ivp aadp tagp : Bool)
  /-- `CFB.DEC`, R103. -/
  | cfbDec (ivp aadp tagp : Bool)
  /-- `OFB.ENC`, R104. -/
  | ofbEnc (ivp aadp tagp : Bool)
  /-- `OFB.DEC`, R105. -/
  | ofbDec (ivp aadp tagp : Bool)
  /-- `CTR.ENC`, R106. -/
  | ctrEnc (ivp aadp tagp : Bool)
  /-- `CTR.DEC`, R107. -/
  | ctrDec (ivp aadp tagp : Bool)
  /-- `CTS.ENC`, R108. -/
  | ctsEnc (ivp aadp tagp : Bool)
  /-- `CTS.DEC`, R109. -/
  | ctsDec (ivp aadp tagp : Bool)
  /-- `CCM.ENC`, R117. -/
  | ccmEnc (ivp aadp tagp : Bool)
  /-- `CCM.DEC`, R118. -/
  | ccmDec (ivp aadp tagp : Bool)
  /-- `GCM.ENC`, R119. -/
  | gcmEnc (ivp aadp tagp : Bool)
  /-- `GCM.DEC`, R120. -/
  | gcmDec (ivp aadp tagp : Bool)
  deriving DecidableEq, Repr

end Sys2Proof
end

