-- ==== Sys2Proof/WellFormed.lean ====
section
/-! DEFINITION. When a command, or its written form, is well formed (30_encoding.md R64, R67). -/

namespace Sys2Proof

/-- The eight modes (00_scope.md R2). -/
inductive Mode where
  | ecb | cbc | cfb | ofb | ctr | cts | ccm | gcm
  deriving DecidableEq, Repr

/-- The two directions (R61 `DIR`). -/
inductive Dir where
  | enc | dec
  deriving DecidableEq, Repr

/-- The operand flags as R67 writes them: `iv`, `aad`, `tag`. -/
inductive OpFlag where
  | iv | aad | tag
  deriving DecidableEq, Repr

/-- A command as R67 writes it: `<MODE>.<DIR>` and a list of operand flags. -/
structure Command where
  mode : Mode
  dir : Dir
  flags : List OpFlag
  deriving DecidableEq, Repr

/-- The first check on an instruction: its mode uses an IV or nonce only with `IVP` set (R64 column `IVP`, "required"). -/
def Instr.ivGiven : Instr → Bool
  | .ecbEnc _ _ _ | .ecbDec _ _ _ => true
  | .cbcEnc iv _ _ | .cbcDec iv _ _ | .cfbEnc iv _ _ | .cfbDec iv _ _ => iv
  | .ofbEnc iv _ _ | .ofbDec iv _ _ | .ctrEnc iv _ _ | .ctrDec iv _ _ => iv
  | .ctsEnc iv _ _ | .ctsDec iv _ _ | .ccmEnc iv _ _ | .ccmDec iv _ _ => iv
  | .gcmEnc iv _ _ | .gcmDec iv _ _ => iv

/-- The second check: AEAD decryption has `TAGP` set (R64 column `TAGP`, "required"). -/
def Instr.tagGiven : Instr → Bool
  | .ccmDec _ _ tag | .gcmDec _ _ tag => tag
  | .ecbEnc _ _ _ | .ecbDec _ _ _ | .cbcEnc _ _ _ | .cbcDec _ _ _ | .cfbEnc _ _ _ | .cfbDec _ _ _ => true
  | .ofbEnc _ _ _ | .ofbDec _ _ _ | .ctrEnc _ _ _ | .ctrDec _ _ _ | .ctsEnc _ _ _ | .ctsDec _ _ _ => true
  | .ccmEnc _ _ _ | .gcmEnc _ _ _ => true

/-- An instruction that supplies every operand R64 requires. One that does not is still a legal encoding (it is accepted
and ends in `MissingRequiredParameter`, R89): decode, encode and exec treat it like any other. -/
def Instr.wellFormed (i : Instr) : Bool := i.ivGiven && i.tagGiven

/-- R67: the operand flags stand in any order, "each at most once". -/
def Command.wellFormed (c : Command) : Bool := decide c.flags.Nodup

end Sys2Proof
end

