-- ==== Sys2Proof/Decode.lean ====
section
/-! DEFINITION. The command decoder and encoder (30_encoding.md R61 to R63, R66, R67). -/

namespace Sys2Proof

/-- Why a 32-bit value is no command (30_encoding.md R66). -/
inductive DecodeError where
  /-- `CMD[31:8]` is not 0. -/
  | reservedBits
  /-- `CMD[3:0]` is 8..15. -/
  | reservedMode
  deriving DecidableEq, Repr

/-- `CMD[3:0]`, field `MODE` (R61). -/
def cmdMode (w : Word) : Nat := (w.extractLsb' 0 4).toNat

/-- `CMD[4]`, field `DIR` (R61). -/
def cmdDir (w : Word) : Bool := w.getLsbD 4

/-- `CMD[5]`, field `IVP` (R61). -/
def cmdIvp (w : Word) : Bool := w.getLsbD 5

/-- `CMD[6]`, field `AADP` (R61). -/
def cmdAadp (w : Word) : Bool := w.getLsbD 6

/-- `CMD[7]`, field `TAGP` (R61). -/
def cmdTagp (w : Word) : Bool := w.getLsbD 7

/-- `CMD[31:8]`, the reserved bits (R61). -/
def cmdReserved (w : Word) : BitVec 24 := w.extractLsb' 8 24

/-- The opcode map of R63 on the fields `MODE` and `DIR`; `none` for the reserved modes 8..15. -/
def opcodeMap (mode : Nat) (dir ivp aadp tagp : Bool) : Option Instr :=
  match mode, dir with
  | 0, false => some (.ecbEnc ivp aadp tagp)
  | 0, true => some (.ecbDec ivp aadp tagp)
  | 1, false => some (.cbcEnc ivp aadp tagp)
  | 1, true => some (.cbcDec ivp aadp tagp)
  | 2, false => some (.cfbEnc ivp aadp tagp)
  | 2, true => some (.cfbDec ivp aadp tagp)
  | 3, false => some (.ofbEnc ivp aadp tagp)
  | 3, true => some (.ofbDec ivp aadp tagp)
  | 4, false => some (.ctrEnc ivp aadp tagp)
  | 4, true => some (.ctrDec ivp aadp tagp)
  | 5, false => some (.ctsEnc ivp aadp tagp)
  | 5, true => some (.ctsDec ivp aadp tagp)
  | 6, false => some (.ccmEnc ivp aadp tagp)
  | 6, true => some (.ccmDec ivp aadp tagp)
  | 7, false => some (.gcmEnc ivp aadp tagp)
  | 7, true => some (.gcmDec ivp aadp tagp)
  | _, _ => none

/-- The decoder (R63, R66): every 32-bit value is one of the sixteen commands or illegal. A command is one register
value, not bytes of memory: R44 and R62 give it no byte order (log 24). -/
def decode (w : Word) : Except DecodeError Instr :=
  if cmdReserved w ≠ 0 then .error .reservedBits
  else match opcodeMap (cmdMode w) (cmdDir w) (cmdIvp w) (cmdAadp w) (cmdTagp w) with
    | some i => .ok i
    | none => .error .reservedMode

/-- `mode_code` of R67. -/
def modeCode : Mode → Nat
  | .ecb => 0 | .cbc => 1 | .cfb => 2 | .ofb => 3
  | .ctr => 4 | .cts => 5 | .ccm => 6 | .gcm => 7

/-- The mode a command belongs to (R63 column `MODE`). -/
def Instr.mode : Instr → Mode
  | .ecbEnc _ _ _ | .ecbDec _ _ _ => .ecb
  | .cbcEnc _ _ _ | .cbcDec _ _ _ => .cbc
  | .cfbEnc _ _ _ | .cfbDec _ _ _ => .cfb
  | .ofbEnc _ _ _ | .ofbDec _ _ _ => .ofb
  | .ctrEnc _ _ _ | .ctrDec _ _ _ => .ctr
  | .ctsEnc _ _ _ | .ctsDec _ _ _ => .cts
  | .ccmEnc _ _ _ | .ccmDec _ _ _ => .ccm
  | .gcmEnc _ _ _ | .gcmDec _ _ _ => .gcm

/-- The direction of a command (R63 column `DIR`). -/
def Instr.dir : Instr → Dir
  | .ecbEnc _ _ _ | .cbcEnc _ _ _ | .cfbEnc _ _ _ | .ofbEnc _ _ _ => .enc
  | .ctrEnc _ _ _ | .ctsEnc _ _ _ | .ccmEnc _ _ _ | .gcmEnc _ _ _ => .enc
  | .ecbDec _ _ _ | .cbcDec _ _ _ | .cfbDec _ _ _ | .ofbDec _ _ _ => .dec
  | .ctrDec _ _ _ | .ctsDec _ _ _ | .ccmDec _ _ _ | .gcmDec _ _ _ => .dec

/-- The operand flag `IVP` of a command. -/
def Instr.ivp : Instr → Bool
  | .ecbEnc f _ _ | .ecbDec f _ _ | .cbcEnc f _ _ | .cbcDec f _ _ => f
  | .cfbEnc f _ _ | .cfbDec f _ _ | .ofbEnc f _ _ | .ofbDec f _ _ => f
  | .ctrEnc f _ _ | .ctrDec f _ _ | .ctsEnc f _ _ | .ctsDec f _ _ => f
  | .ccmEnc f _ _ | .ccmDec f _ _ | .gcmEnc f _ _ | .gcmDec f _ _ => f

/-- The operand flag `AADP` of a command. -/
def Instr.aadp : Instr → Bool
  | .ecbEnc _ f _ | .ecbDec _ f _ | .cbcEnc _ f _ | .cbcDec _ f _ => f
  | .cfbEnc _ f _ | .cfbDec _ f _ | .ofbEnc _ f _ | .ofbDec _ f _ => f
  | .ctrEnc _ f _ | .ctrDec _ f _ | .ctsEnc _ f _ | .ctsDec _ f _ => f
  | .ccmEnc _ f _ | .ccmDec _ f _ | .gcmEnc _ f _ | .gcmDec _ f _ => f

/-- The operand flag `TAGP` of a command. -/
def Instr.tagp : Instr → Bool
  | .ecbEnc _ _ f | .ecbDec _ _ f | .cbcEnc _ _ f | .cbcDec _ _ f => f
  | .cfbEnc _ _ f | .cfbDec _ _ f | .ofbEnc _ _ f | .ofbDec _ _ f => f
  | .ctrEnc _ _ f | .ctrDec _ _ f | .ctsEnc _ _ f | .ctsDec _ _ f => f
  | .ccmEnc _ _ f | .ccmDec _ _ f | .gcmEnc _ _ f | .gcmDec _ _ f => f

/-- The bits of R61 put together: `mode_code | DIR << 4 | IVP << 5 | AADP << 6 | TAGP << 7` (R67). -/
def assemble (mode : Mode) (dir : Dir) (ivp aadp tagp : Bool) : Word :=
  BitVec.ofNat 32 (modeCode mode) ||| (if dir = .dec then 0x10#32 else 0)
    ||| (if ivp then 0x20#32 else 0) ||| (if aadp then 0x40#32 else 0) ||| (if tagp then 0x80#32 else 0)

/-- The encoder: the command word of an instruction (R61, R63, R67). -/
def encode (i : Instr) : Word := assemble i.mode i.dir i.ivp i.aadp i.tagp

/-- The `mask` column of R63, the same in every row. -/
def opcodeMask : Word := 0xFFFFFF1F#32

/-- The `match` column of R63: the command word with all operand flags 0. -/
def opcodeMatch : Instr → Word
  | .ecbEnc _ _ _ => 0x00000000#32
  | .ecbDec _ _ _ => 0x00000010#32
  | .cbcEnc _ _ _ => 0x00000001#32
  | .cbcDec _ _ _ => 0x00000011#32
  | .cfbEnc _ _ _ => 0x00000002#32
  | .cfbDec _ _ _ => 0x00000012#32
  | .ofbEnc _ _ _ => 0x00000003#32
  | .ofbDec _ _ _ => 0x00000013#32
  | .ctrEnc _ _ _ => 0x00000004#32
  | .ctrDec _ _ _ => 0x00000014#32
  | .ctsEnc _ _ _ => 0x00000005#32
  | .ctsDec _ _ _ => 0x00000015#32
  | .ccmEnc _ _ _ => 0x00000006#32
  | .ccmDec _ _ _ => 0x00000016#32
  | .gcmEnc _ _ _ => 0x00000007#32
  | .gcmDec _ _ _ => 0x00000017#32

/-- `enc(MODE.DIR flags)` of R67, for a written command. -/
def Command.enc (c : Command) : Word :=
  assemble c.mode c.dir (c.flags.contains .iv) (c.flags.contains .aad) (c.flags.contains .tag)

/-- The host's question: the instruction read from an instruction of `nbits` bits with value `w`, the bits above being 0.
A command is exactly one 32-bit word (R62), so a longer value with a bit above 31 set is none. -/
def decodeTableWord (nbits w : Nat) : Option Instr :=
  if w % 2 ^ nbits < 2 ^ 32 then (decode (BitVec.ofNat 32 (w % 2 ^ nbits))).toOption else none

end Sys2Proof
end

