-- ==== Sys2Proof/Config.lean ====
section
/-! DEFINITION. What an implementation fixes: the numeric parameters of 00_scope.md R5 and the open parameters and free
values, each an opaque constant with no body. -/

namespace Sys2Proof

/-- A block primitive (00_scope.md R6): for every key a permutation of the blocks.
`ENC(K, X)` is `P K X` and `DEC(K, X)` is `(P K).symm X`, so the two laws R6 states hold of every `Prim`. -/
abbrev Prim := Bytes → Equiv.Perm Block

namespace Config

/-- `BLOCK_BYTES` (R5). -/
def blockBytes : Nat := 16

/-- `TAG_BYTES`, the tag length `t` (R5, 43_aead_modes.md R113). -/
def tagBytes : Nat := 16

/-- `ADDR_BITS` = 32: the number of byte addresses of buffer memory (R5, 20_memory.md R39). -/
def memorySize : Nat := 2 ^ 32

/-- The block primitive of this hardware, `PRIM` (R6): a parameter, never inspected. Log 3. -/
opaque prim : Prim

/-- How many engine steps phase `RUN` takes before the step in which its padding or tag check stands (or, for a command
that checks nothing, before its last step). The arguments are all R96 lets the count depend on: `CMD`, `KEY_LEN`,
`IV_LEN`, `AAD_LEN` when used, `SRC_LEN`. 41_sequencer.md R91, R96; 93_implementation_defined.md U11. Log 4. -/
opaque checkSteps : Word → Word → Word → Word → Word → Nat

/-- How many engine steps of `RUN` follow that step when the operation succeeds (same arguments). R96. Log 4. -/
opaque restSteps : Word → Word → Word → Word → Word → Nat

/-- The k-th byte drawn where the spec says "any value": 20_memory.md R53, 70_reset_and_hazards.md R140. Log 6, 7. -/
opaque freeByte : Nat → Byte

/-- What `eng.V` holds after it was given a segment of fewer than 16 bytes, which R102 says is not used. Log 9. -/
opaque partialSegment : Bytes → Block

end Config
end Sys2Proof
end

