-- ==== Sys2Proof/Machine/Bytes.lean ====
section
/-! DEFINITION. Byte strings, integers and blocks: the notation of 00_scope.md R10, R11 and the block split of
40_datapath.md R70, R71. -/

namespace Sys2Proof.Machine

/-- `rep(v, n)` (R10). -/
def rep (v : Byte) (n : Nat) : Bytes := List.replicate n v

/-- `zeros(n)` (R10). -/
def zeros (n : Nat) : Bytes := rep 0 n

/-- `B[i..j)` (R10). -/
def slice (i j : Nat) (b : Bytes) : Bytes := (b.drop i).take (j - i)

/-- `MSB_d(B)` (R10). -/
def msb (d : Nat) (b : Bytes) : Bytes := b.take d

/-- `LSB_d(B)` (R10). -/
def lsb (d : Nat) (b : Bytes) : Bytes := b.drop (b.length - d)

/-- `A xor B` of two strings (R10); of strings of unequal length, as much as both have. -/
def xorBytes (a b : Bytes) : Bytes := List.zipWith (· ^^^ ·) a b

/-- `be_n(x)` (R11): the n-byte big-endian encoding of `x`. -/
def be : Nat → Nat → Bytes
  | 0, _ => []
  | n + 1, x => be n (x / 256) ++ [BitVec.ofNat 8 x]

/-- `int(B)` (R11). -/
def beInt (b : Bytes) : Nat := b.foldl (fun acc x => acc * 256 + x.toNat) 0

/-- The block whose byte string is `b` (`|b| = 16`), and for a longer string that of its last 16 bytes. -/
def blockOf (b : Bytes) : Block := BitVec.ofNat 128 (beInt b)

/-- The 16 bytes of a block, `be_16` of its integer. -/
def bytesOf (x : Block) : Bytes := be 16 x.toNat

/-- `xorp(A, S) = A xor MSB_|A|(S)` for `|A| <= 16` and a block `S` (R10, R70). -/
def xorp (a : Bytes) (s : Block) : Bytes := xorBytes a (msb a.length (bytesOf s))

/-- `m(B) = ceil(|B| / 16)` (R71). -/
def numBlocks (b : Bytes) : Nat := (b.length + 15) / 16

/-- `d(B) = |B| - 16(m(B)-1)` (R71). -/
def lastLen (b : Bytes) : Nat := b.length - 16 * (numBlocks b - 1)

/-- `blk_i(B) = B[16i .. min(16i+16, |B|))` (R71). -/
def blk (i : Nat) (b : Bytes) : Bytes := slice (16 * i) (16 * i + 16) b

/-- The blocks `blk_0(B) .. blk_{m(B)-1}(B)` in order. -/
def blks (b : Bytes) : List Bytes := (List.range (numBlocks b)).map (blk · b)

/-- `padz(B) = B || zeros((16 - |B| mod 16) mod 16)` (R71). -/
def padz (b : Bytes) : Bytes := b ++ zeros ((16 - b.length % 16) % 16)

end Sys2Proof.Machine
end

