-- ==== Sys2Proof/Machine/State.lean ====
section
/-! DEFINITION. The state of the engine and of the memory it works on (10_state.md), as plain data, and its value after
reset (70_reset_and_hazards.md R139, R141). -/

namespace Sys2Proof.Machine

/-- `eng.phase` (10_state.md R36, 41_sequencer.md R87). -/
inductive Phase where
  | idle | check | run | finish
  deriving DecidableEq, Repr

/-- The error names of 00_scope.md R15 and 60_exceptions.md R123. -/
inductive Err where
  | invalidKeyLength | invalidIVLength | invalidPadding | shortInputForCTS
  | integrityError | missingRequiredParameter | illegalCommand
  deriving DecidableEq, Repr

/-- One piece of work of phase `RUN` (70_reset_and_hazards.md R149): an `ENC`, a `DEC`, a GF(2^128) multiplication. -/
inductive PrimOp where
  | enc | dec | gfMul
  deriving DecidableEq, Repr

/-- The ten parameter registers `KEY_ADDR` .. `TAG_ADDR` (10_state.md R23, R29, R30); also the shape of `eng.cfg`. -/
structure Params where
  keyAddr : Word
  keyLen : Word
  ivAddr : Word
  ivLen : Word
  aadAddr : Word
  aadLen : Word
  srcAddr : Word
  srcLen : Word
  dstAddr : Word
  tagAddr : Word
  deriving DecidableEq, Repr

/-- Every parameter register 0 (R23 column reset; R36 `eng.cfg` "all 0"). -/
def Params.zero : Params := ⟨0, 0, 0, 0, 0, 0, 0, 0, 0, 0⟩

/-- The datapath registers of 10_state.md R36 and the temporaries its last sentence names. `work` is the MODEL's own: the
primitive invocations of the running operation in order (R96, R149; log 21). -/
structure Dp where
  /-- `eng.K`: "up to 32 bytes". -/
  key : Bytes
  /-- `eng.V`. -/
  v : Block
  /-- `eng.Y`. -/
  y : Block
  /-- `eng.H`. -/
  h : Block
  /-- `eng.J0`. -/
  j0 : Block
  /-- `eng.i`. -/
  i : Word
  /-- The temporary `X`. -/
  tmpX : Block
  /-- The temporary `S`. -/
  tmpS : Block
  /-- The temporary `T`. -/
  tmpT : Block
  /-- The temporary `Z`. -/
  tmpZ : Block
  /-- The output string. -/
  out : Bytes
  work : List PrimOp
  deriving DecidableEq, Repr

/-- All datapath registers and temporaries zero: their reset value (R36) and their value after completion (R37). -/
def Dp.zero : Dp :=
  { key := List.replicate 32 0, v := 0, y := 0, h := 0, j0 := 0, i := 0
    tmpX := 0, tmpS := 0, tmpT := 0, tmpZ := 0, out := [], work := [] }

/-- The internal engine registers (10_state.md R36). `res = none` is the spec's `OK`. Two are the MODEL's own: `left`, how
many `RUN` steps come before the last one (41_sequencer.md R91; log 4), and `stale`, the addresses whose last host store had
not been made visible to the engine when the command was accepted (20_memory.md R54; log 11). -/
structure Engine where
  phase : Phase
  cmd : Word
  cfg : Params
  dp : Dp
  res : Option Err
  left : Nat
  stale : List Nat
  deriving DecidableEq, Repr

/-- `len` bytes from address `base`: a buffer (20_memory.md R50) or a range of the platform's address map. -/
structure Region where
  base : Nat
  len : Nat
  deriving DecidableEq, Repr

/-- The platform parameters the spec leaves OPEN (00_scope.md R5), as data no step changes (log 10). -/
structure Platform where
  /-- Where the platform maps the register block into the buffer address range, if it does (20_memory.md R39). -/
  regWindow : Option Word
  /-- Ranges of buffer addresses that are not ordinary memory, or that the platform cannot serve (R40, R49). -/
  special : List Region
  /-- `DMA_COHERENT` (R54, R60). -/
  dmaCoherent : Bool
  deriving DecidableEq, Repr

/-- What happens next to the machine, from outside it: an access of the host (00_scope.md R8), a reset, or a turn of the
engine. The order in which they come is arbitrary (R16; log 2). -/
inductive Event where
  /-- A register write of `width` bits at offset `off` (10_state.md R22; `WR` of 30_encoding.md R68). -/
  | regWrite (width off : Nat) (value : Word)
  /-- A register read (R22; `RD` of R68). -/
  | regRead (width off : Nat)
  /-- The host stores bytes in buffer memory (`MEM` of R68). -/
  | store (addr : Word) (bytes : Bytes)
  /-- The host reads `len` bytes of buffer memory (20_memory.md R53). -/
  | load (addr : Word) (len : Nat)
  /-- The host's own cache maintenance on a platform with `DMA_COHERENT = false` (R54, R55). -/
  | maintain
  /-- `rst` (70_reset_and_hazards.md R139). -/
  | reset
  /-- The engine is scheduled for one step (41_sequencer.md R87, R95). -/
  | engine
  /-- `WAITDONE` of R68: read `STATUS`, and again after an engine step, until `DONE` is 1 (log 18). -/
  | waitDone
  deriving DecidableEq, Repr

/-- The whole machine: the host-visible registers, the engine, buffer memory, and what stands around them. -/
structure State where
  /-- `CMD` (10_state.md R25). -/
  cmd : Word
  /-- `STATUS.BUSY` (R26). -/
  busy : Bool
  /-- `STATUS.DONE` (R26). -/
  done : Bool
  /-- `STATUS.ERR` (R26). -/
  err : BitVec 3
  /-- `IRQ_EN.DONE_IE` (R28). -/
  doneIe : Bool
  /-- The parameter registers (R29, R30). -/
  par : Params
  /-- `OUT_LEN` (R31). -/
  outLen : Word
  /-- The internal engine registers (R36). -/
  eng : Engine
  /-- Buffer memory (20_memory.md R39, R40): address and byte, addresses rising, no byte that is 0x00 (log 5). -/
  mem : List Host.Cell
  /-- The platform's parameters (00_scope.md R5). -/
  plat : Platform
  /-- MODEL: the events still to come (log 2). -/
  inbox : List Event
  /-- MODEL: what the host's last register read returned (log 13). -/
  regRead : Word
  /-- MODEL: what the host's last memory read returned (log 13). -/
  memRead : Bytes
  /-- MODEL: how many free bytes have been drawn (log 6). -/
  draws : Nat
  /-- MODEL: with `DMA_COHERENT = false`, host stores the engine need not see yet (R54; log 11). -/
  hostDirty : List Nat
  /-- MODEL: addresses of engine stores since the host last observed `DONE = 1` (R55, R56, R145; log 26). -/
  unobserved : List Nat
  /-- MODEL: with `DMA_COHERENT = false`, addresses of engine stores whose `DONE = 1` the host has observed and which its
  cache maintenance has not yet made visible to it (R55; log 11). -/
  engDirty : List Nat
  deriving DecidableEq, Repr

/-- Why the machine stops with a fault. -/
inductive Fault where
  /-- A host memory access that leaves the 2^32 byte addresses (20_memory.md R39). Raised by the host's `store` and
  `load` events only. Safe: there is no such address (log 17). -/
  | outsideAddressSpace
  deriving DecidableEq, Repr

/-- Why the machine refuses: what the spec says a model refuses (93_implementation_defined.md section 2). All safe: the
spec defines no result there. -/
inductive Refusal where
  /-- A register access that is not 32 bits wide, not at a multiple of 4, or not in the 64-byte block (R22, U1). Raised
  by the host's register events. Safe. -/
  | registerAccess
  /-- A buffer of the operation ends past address 2^32 - 1 (R47, U5). Raised by every command and by host memory events
  and resets while such an operation is in progress. Safe. -/
  | bufferRange
  /-- A buffer of the operation lies on a register address or on memory that is not ordinary (R39, R40, R49, U6).
  Raised like `bufferRange`. Safe. -/
  | bufferNotOrdinary
  /-- An output buffer overlaps another buffer other than exactly in place (R52, U7). Raised like `bufferRange`. Safe. -/
  | bufferOverlap
  /-- `DMA_COHERENT = false` and a host store to a buffer of the operation was not made visible (R54, U10). Raised like
  `bufferRange`. Safe. -/
  | hostStoreNotVisible
  /-- The host stores to a buffer of the operation in progress (R53, U8). Raised by the host's `store`. Safe. -/
  | liveBufferWrite
  /-- The host's memory access reaches an address that is not ordinary memory: a device's, whose behaviour the spec does
  not give (R40, R49). Raised by `store` and `load`. Safe (log 17). -/
  | notBufferMemory
  /-- An instruction that has no meaning yet. Raised by no arm of this model. Safe. -/
  | notModelled (mnemonic : String)
  deriving DecidableEq, Repr

/-- The internal engine registers after reset (R36 column reset, R139). -/
def Engine.reset : Engine :=
  { phase := .idle, cmd := 0, cfg := Params.zero, dp := Dp.zero, res := none, left := 0, stale := [] }

/-- The platform `State.reset` stands on (DESIGN CHOICE, log 10): coherent, every buffer address ordinary memory, the
register block not mapped among them. -/
def Platform.plain : Platform := { regWindow := none, special := [], dmaCoherent := true }

/-- The machine right after reset (R139, R141), its memory with nothing listed, nothing yet to come. -/
def State.reset : State :=
  { cmd := 0, busy := false, done := false, err := 0, doneIe := false, par := Params.zero, outLen := 0
    eng := Engine.reset, mem := [], plat := Platform.plain, inbox := [], regRead := 0, memRead := []
    draws := 0, hostDirty := [], unobserved := [], engDirty := [] }

end Sys2Proof.Machine
end

