-- ==== Sys2Proof/Machine/Memory.lean ====
section
/-! DEFINITION. Buffer memory (20_memory.md R40, R43, R45): reading and writing one byte and a byte string, the canonical
form, and ranges of addresses. -/

namespace Sys2Proof.Machine

/-- What an address that is not listed reads as: 0x00 (DESIGN CHOICE, log 5; the spec gives no power-on contents). -/
def Memory.unlisted : Byte := 0

/-- `M(a)`, the byte at address `a` (R40). -/
def Memory.read : List Host.Cell → Nat → Byte
  | [], _ => Memory.unlisted
  | (b, w) :: rest, a => if a = b then w else Memory.read rest a

/-- `M(a) <- v` (R45), keeping the canonical form. -/
def Memory.write : List Host.Cell → Nat → Byte → List Host.Cell
  | [], a, v => if v = Memory.unlisted then [] else [(a, v)]
  | (b, w) :: rest, a, v =>
    if a < b then (if v = Memory.unlisted then (b, w) :: rest else (a, v) :: (b, w) :: rest)
    else if a = b then (if v = Memory.unlisted then rest else (a, v) :: rest)
    else (b, w) :: Memory.write rest a v

/-- `MemRead(a, n)` (R45): `[M(a), ..., M(a+n-1)]`. -/
def Memory.readBytes (m : List Host.Cell) (a n : Nat) : Bytes := (List.range n).map fun k => Memory.read m (a + k)

/-- `MemWrite(a, |v|, v)` (R45). -/
def Memory.writeBytes (m : List Host.Cell) (a : Nat) : Bytes → List Host.Cell
  | [] => m
  | x :: xs => Memory.writeBytes (Memory.write m a x) (a + 1) xs

/-- The canonical form: addresses strictly rising, inside the 2^32 byte addresses, and no entry that an unlisted address
would read as. -/
abbrev Memory.wf (m : List Host.Cell) : Prop :=
  m.Pairwise (fun c d => c.1 < d.1) ∧ ∀ c ∈ m, c.2 ≠ Memory.unlisted ∧ c.1 < Config.memorySize

/-- The address lies in the range. -/
def Region.has (r : Region) (a : Nat) : Bool := decide (r.base ≤ a) && decide (a < r.base + r.len)

/-- Two ranges share a byte. An empty range shares none. -/
def Region.overlaps (r q : Region) : Bool :=
  decide (r.len ≠ 0) && decide (q.len ≠ 0) && decide (r.base < q.base + q.len) && decide (q.base < r.base + r.len)

/-- The addresses of a range, in order. -/
def Region.addrs (r : Region) : List Nat := (List.range r.len).map (r.base + ·)

/-- The range ends inside the address space: `address + length <= 2^32` (R47). -/
def Region.inRange (r : Region) : Bool := decide (r.base + r.len ≤ Config.memorySize)

/-- The ranges of buffer addresses that are not ordinary memory: the platform's (R40, R49) and, where the platform maps
the 64-byte register block into the buffer address range, that block (R39). -/
def Platform.reserved (p : Platform) : List Region :=
  match p.regWindow with
  | some b => { base := b.toNat, len := 64 } :: p.special
  | none => p.special

/-- Every byte of the range is ordinary memory (R49). -/
def Platform.ordinary (p : Platform) (r : Region) : Bool := !p.reserved.any fun q => q.overlaps r

end Sys2Proof.Machine
end

