-- ==== Sys2Proof/Machine/Operands.lean ====
section
/-! DEFINITION. Operand assembly (30_encoding.md R64, R65), the buffers each command uses (20_memory.md R50), and the
validation of a command's flags and lengths (41_sequencer.md R89). -/

namespace Sys2Proof.Machine

/-- The operands of a command as byte strings (R65). -/
structure Operands where
  /-- `K`. -/
  key : Bytes
  /-- `IV`, or the nonce `N`. -/
  iv : Bytes
  /-- `A`. -/
  aad : Bytes
  /-- `IN`. -/
  inp : Bytes
  /-- `TIN`. -/
  tin : Bytes
  deriving DecidableEq, Repr

/-- The command's mode uses an IV or nonce: every mode but ECB (R64). -/
def usesIv (i : Instr) : Bool := decide (i.mode ≠ .ecb)

/-- The command is one of the authenticated modes CCM and GCM. -/
def isAead (i : Instr) : Bool := decide (i.mode = .ccm ∨ i.mode = .gcm)

/-- The command reads associated data: CCM and GCM with `AADP = 1` (R65). -/
def usesAad (i : Instr) : Bool := isAead i && i.aadp

/-- The command reads a supplied tag: `CCM.DEC` and `GCM.DEC` (R65). -/
def readsTag (i : Instr) : Bool := isAead i && decide (i.dir = .dec)

/-- The command writes a tag: `CCM.ENC` and `GCM.ENC` (R50). -/
def writesTag (i : Instr) : Bool := isAead i && decide (i.dir = .enc)

/-- The key buffer `[KEY_ADDR, +KEY_LEN)` (R50). -/
def Params.keyBuf (c : Params) : Region := { base := c.keyAddr.toNat, len := c.keyLen.toNat }
/-- The IV or nonce buffer `[IV_ADDR, +IV_LEN)` (R50). -/
def Params.ivBuf (c : Params) : Region := { base := c.ivAddr.toNat, len := c.ivLen.toNat }
/-- The AAD buffer `[AAD_ADDR, +AAD_LEN)` (R50). -/
def Params.aadBuf (c : Params) : Region := { base := c.aadAddr.toNat, len := c.aadLen.toNat }
/-- The payload buffer `[SRC_ADDR, +n)` (R50). -/
def Params.srcBuf (c : Params) : Region := { base := c.srcAddr.toNat, len := c.srcLen.toNat }
/-- The output buffer `[DST_ADDR, +L)` (R50). -/
def Params.dstBuf (c : Params) (l : Nat) : Region := { base := c.dstAddr.toNat, len := l }
/-- The tag buffer `[TAG_ADDR, +16)` (R50). -/
def Params.tagBuf (c : Params) : Region := { base := c.tagAddr.toNat, len := Config.tagBytes }

/-- The byte string a buffer holds (R45). -/
def Region.fetch (m : List Host.Cell) (r : Region) : Bytes := Memory.readBytes m r.base r.len

/-- Operand assembly (R65); an operand the command does not use is empty. -/
def operands (i : Instr) (c : Params) (m : List Host.Cell) : Operands :=
  { key := c.keyBuf.fetch m
    iv := if usesIv i then c.ivBuf.fetch m else []
    aad := if usesAad i then c.aadBuf.fetch m else []
    inp := c.srcBuf.fetch m
    tin := if readsTag i then c.tagBuf.fetch m else [] }

/-- The input buffers of a command other than the payload (R50). -/
def sideBufs (i : Instr) (c : Params) : List Region :=
  [c.keyBuf] ++ (if usesIv i then [c.ivBuf] else []) ++ (if usesAad i then [c.aadBuf] else [])
    ++ (if readsTag i then [c.tagBuf] else [])

/-- The input buffers of a command (R50 column reads). -/
def readBufs (i : Instr) (c : Params) : List Region := c.srcBuf :: sideBufs i c

/-- The output buffers of a command whose output is `l` bytes long (R50 column writes). -/
def writeBufs (i : Instr) (c : Params) (l : Nat) : List Region :=
  c.dstBuf l :: (if writesTag i then [c.tagBuf] else [])

/-- Tests 2 to 10 of R89, in order: the first that holds gives the error. -/
def validate (i : Instr) (c : Params) : Option Err :=
  if i.mode ≠ .ecb ∧ i.ivp = false then some .missingRequiredParameter
  else if (i.mode = .ccm ∨ i.mode = .gcm) ∧ i.dir = .dec ∧ i.tagp = false then some .missingRequiredParameter
  else if ¬(c.keyLen.toNat = 16 ∨ c.keyLen.toNat = 24 ∨ c.keyLen.toNat = 32) then some .invalidKeyLength
  else if (i.mode = .cbc ∨ i.mode = .cfb ∨ i.mode = .ofb ∨ i.mode = .ctr ∨ i.mode = .cts) ∧ c.ivLen.toNat ≠ 16 then
    some .invalidIVLength
  else if i.mode = .gcm ∧ c.ivLen.toNat = 0 then some .invalidIVLength
  else if i.mode = .ccm ∧ ¬(7 ≤ c.ivLen.toNat ∧ c.ivLen.toNat ≤ 13) then some .invalidIVLength
  else if i.mode = .ccm ∧ 2 ^ (8 * (15 - c.ivLen.toNat)) ≤ c.srcLen.toNat then some .invalidIVLength
  else if i.mode = .cts ∧ c.srcLen.toNat < 16 then some .shortInputForCTS
  else if (i.mode = .ecb ∨ i.mode = .cbc) ∧ i.dir = .dec ∧ (c.srcLen.toNat = 0 ∨ c.srcLen.toNat % 16 ≠ 0) then
    some .invalidPadding
  else none

/-- R89 whole: test 1 on the command word, then tests 2 to 10. -/
def checkCommand (w : Word) (c : Params) : Option Err :=
  match decode w with
  | .error _ => some .illegalCommand
  | .ok i => validate i c

end Sys2Proof.Machine
end

