-- ==== Sys2Proof/Machine/Datapath.lean ====
section
/-! DEFINITION. The datapath units of 40_datapath.md, over the datapath registers `Dp` and a block primitive `P`
(00_scope.md R6). A unit that invokes the primitive or the multiplier notes it in `work` (70_reset_and_hazards.md R149). -/

namespace Sys2Proof.Machine

/-- The primitive port, `ENC(K, X)` with the operation's key (R69). -/
def Dp.enc (P : Prim) (x : Block) (d : Dp) : Block × Dp := (P d.key x, { d with work := d.work ++ [.enc] })

/-- The primitive port, `DEC(K, X)` with the operation's key (R69). -/
def Dp.dec (P : Prim) (x : Block) (d : Dp) : Block × Dp := ((P d.key).symm x, { d with work := d.work ++ [.dec] })

/-- `inc128` (R72). -/
def inc128 (x : Block) : Block := x + 1

/-- `inc32` (R73): bytes 0..11 unchanged, the last four bytes plus 1 modulo 2^32. -/
def inc32 (x : Block) : Block := x.extractLsb' 32 96 ++ (x.extractLsb' 0 32 + 1)

/-- `ctr_j = be_1(q - 1) || N || be_q(j)` with `q = 15 - |N|` (R74). -/
def ccmCtr (n : Bytes) (j : Nat) : Block := blockOf (be 1 (15 - n.length - 1) ++ n ++ be (15 - n.length) j)

/-- The reduction constant of R75, 0xE1 followed by fifteen zero bytes. -/
def gfR : Block := 0xE1000000000000000000000000000000#128

/-- The loop of R75: `k` rounds are left, so the bit `x_i` looked at is bit `k - 1` of `int(X)` (`i = 128 - k`). -/
def gfLoop (x : Block) : Nat → Block → Block → Block
  | 0, z, _ => z
  | k + 1, z, w =>
    gfLoop x k (if x.getLsbD k then z ^^^ w else z) (if w.getLsbD 0 then (w >>> 1) ^^^ gfR else w >>> 1)

/-- `X • Y`, multiplication in GF(2^128) (R75). -/
def gfMul (x y : Block) : Block := gfLoop x 128 0 y

/-- `ghash_init()` (R76). -/
def Dp.ghashInit (d : Dp) : Dp := { d with y := 0 }

/-- `ghash_absorb(X)` (R76). -/
def Dp.ghashAbsorb (x : Block) (d : Dp) : Dp := { d with y := gfMul (d.y ^^^ x) d.h, work := d.work ++ [.gfMul] }

/-- `ghash_absorb` of each block of a string, in order (R76). -/
def Dp.ghashBlocks : List Bytes → Dp → Dp
  | [], d => d
  | b :: bs, d => Dp.ghashBlocks bs (d.ghashAbsorb (blockOf b))

/-- `ghash_absorbz(B)` (R76). -/
def Dp.ghashAbsorbz (b : Bytes) (d : Dp) : Dp := Dp.ghashBlocks (blks (padz b)) d

/-- `lenblk(A, C)` (R77). -/
def lenblk (a c : Bytes) : Block := blockOf (be 8 (8 * a.length) ++ be 8 (8 * c.length))

/-- `eng.J0 <- J0(IV)` (R78): the 12-byte path, else `GHASH_H(padz(IV) || zeros(8) || be_8(8 |IV|))`. -/
def Dp.setJ0 (iv : Bytes) (d : Dp) : Dp :=
  if iv.length = 12 then { d with j0 := blockOf (iv ++ [0, 0, 0, 1]) }
  else
    let g := Dp.ghashBlocks (blks (padz iv ++ zeros 8 ++ be 8 (8 * iv.length))) d.ghashInit
    { g with j0 := g.y }

/-- `mac_init()` (R80). -/
def Dp.macInit (d : Dp) : Dp := { d with y := 0 }

/-- `mac_absorb(X)` (R80). -/
def Dp.macAbsorb (P : Prim) (x : Block) (d : Dp) : Dp :=
  let r := d.enc P (d.y ^^^ x)
  { r.2 with y := r.1 }

/-- `alen(a)` (R82). Its last row cannot be reached: `AAD_LEN` is 32 bits wide. -/
def alen (a : Nat) : Bytes :=
  if a = 0 then []
  else if a < 65280 then be 2 a
  else if a < 2 ^ 32 then [0xFF, 0xFE] ++ be 4 a
  else [0xFF, 0xFF] ++ be 8 a

/-- `B0` (R81), with `t = 16`: the flags byte, the nonce, the payload length. -/
def ccmB0 (n a : Bytes) (p : Nat) : Bytes :=
  be 1 (64 * (if a.length > 0 then 1 else 0) + 8 * ((Config.tagBytes - 2) / 2) + (15 - n.length - 1))
    ++ n ++ be (15 - n.length) p

/-- `FORMAT(N, A, P)` (R83). -/
def ccmFormat (n a p : Bytes) : Bytes :=
  ccmB0 n a p.length ++ (if a.length > 0 then padz (alen a.length ++ a) else []) ++ padz p

/-- `PAD(P)` (R84). -/
def pad (p : Bytes) : Bytes := p ++ rep (BitVec.ofNat 8 (16 - p.length % 16)) (16 - p.length % 16)

/-- The pad count `p = Q[|Q| - 1]` (R85). -/
def padCount (q : Bytes) : Nat := ((lsb 1 q).headD 0).toNat

/-- `PADOK(Q)` (R85). -/
def padOk (q : Bytes) : Bool :=
  decide (1 ≤ padCount q) && decide (padCount q ≤ 16) && decide (padCount q ≤ q.length)
    && decide (lsb (padCount q) q = rep (BitVec.ofNat 8 (padCount q)) (padCount q))

/-- `UNPAD(Q)` (R85). -/
def unpad (q : Bytes) : Bytes := msb (q.length - padCount q) q

/-- `CTEQ(T, U)` (R86): accumulate over every byte, then compare. -/
def cteq (t u : Bytes) : Bool := decide ((xorBytes t u).foldl (· ||| ·) 0 = 0)

/-- What `eng.V` receives from a segment: the block it is or, for a partial last segment, a value that is not used (R102;
log 9). -/
def segment (b : Bytes) : Block := if b.length = 16 then blockOf b else Config.partialSegment b

/-- `for i in k ..: O_i <- body i (block i)` over a list of blocks, returning `O_k || O_{k+1} || ...`. -/
def forBlocks (body : Nat → Bytes → Dp → Bytes × Dp) : Nat → List Bytes → Dp → Bytes × Dp
  | _, [], d => ([], d)
  | k, b :: bs, d =>
    let r := body k b d
    let rs := forBlocks body (k + 1) bs r.2
    (r.1 ++ rs.1, rs.2)

/-- What the rule of a command computes (41_sequencer.md R91): `ok(OUT, TOUT)` or `fail e`. -/
inductive Result where
  | ok (out : Bytes) (tout : Option Bytes)
  | fail (e : Err)
  deriving DecidableEq, Repr

/-- The rule of a command: the body of phase `RUN` (R91), from the operands and the datapath registers. -/
abbrev Rule := Operands → Dp → Result × Dp

end Sys2Proof.Machine
end

