-- ==== Sys2Proof/Machine/Flags.lean ====
section
/-! DEFINITION. The status flags (10_state.md R26, R35): error codes (60_exceptions.md R123), the `STATUS` and `IRQ_EN`
words, the interrupt line (R130). The engine has no arithmetic condition codes (R35). -/

namespace Sys2Proof.Machine

/-- The code of an error name (R123). -/
def errCode : Err → BitVec 3
  | .invalidKeyLength => 1
  | .invalidIVLength => 2
  | .invalidPadding => 3
  | .shortInputForCTS => 4
  | .integrityError => 5
  | .missingRequiredParameter => 6
  | .illegalCommand => 7

/-- `code(eng.res)` of 41_sequencer.md R93: 0 for `OK`. -/
def resCode : Option Err → BitVec 3
  | none => 0
  | some e => errCode e

/-- What a read of `STATUS` returns (R26): `BUSY` in bit 0, `DONE` in bit 1, `ERR` in bits 6..4, every other bit 0 (R24). -/
def State.statusWord (s : State) : Word :=
  (if s.busy then 1#32 else 0) ||| (if s.done then 2#32 else 0) ||| (s.err.zeroExtend 32 <<< 4)

/-- What a read of `IRQ_EN` returns (R28): `DONE_IE` in bit 0, every other bit 0. -/
def State.irqEnWord (s : State) : Word := if s.doneIe then 1#32 else 0

/-- The interrupt line: `irq = STATUS.DONE and IRQ_EN.DONE_IE` at all times (R130). -/
def State.irq (s : State) : Bool := s.done && s.doneIe

end Sys2Proof.Machine
end

