-- ==== Sys2Proof/Machine/Ops.lean ====
section
/-! DEFINITION. The shared operations: the register port (10_state.md), acceptance (41_sequencer.md R88), completion (R93,
60_exceptions.md R128) and its acknowledgement (R129), the host obligations (20_memory.md R47 to R54), and the running of a
command's rule (R91). -/

namespace Sys2Proof.Machine

/-! ## Acceptance, completion, acknowledgement -/

/-- Acceptance of the command word `w` (R88). `left` and `stale` are the model's own: host stores not visible to the engine by
now are not visible to this operation, whatever maintenance comes later (20_memory.md R54; log 4, 11). -/
def State.accept (w : Word) (s : State) : State :=
  { s with
    cmd := w, busy := true, done := false, err := 0, outLen := 0
    eng := { s.eng with phase := .check, cmd := w, cfg := s.par, res := none, left := 0, stale := s.hostDirty } }

/-- The operation ends in the error `e` (R89, R91): `eng.res <- e`, `eng.phase <- FINISH`. Nothing is written. -/
def State.endWith (e : Err) (s : State) : State :=
  { s with eng := { s.eng with phase := .finish, res := some e } }

/-- Completion, the engine's one "trap entry" (R93, R128): `OUT_LEN` and `ERR` are set, the internal registers zeroed
(R37), `BUSY` cleared, `DONE` set; the engine is idle. It saves nothing and goes nowhere. -/
def State.complete (s : State) : State :=
  { s with
    outLen := match s.eng.res with
      | none => BitVec.ofNat 32 s.eng.dp.out.length
      | some _ => 0
    err := resCode s.eng.res, busy := false, done := true
    eng := { s.eng with phase := .idle, dp := Dp.zero } }

/-- The return from a completion (R129): the host's write of 1 to `STATUS.DONE` (R27) clears it and nothing else. -/
def State.acknowledge (s : State) : State := { s with done := false }

/-- The host has observed `DONE = 1` by a read of `STATUS` (20_memory.md R55, R57): the engine's stores are now defined for its
later reads, at once or, with `DMA_COHERENT = false`, after its own cache maintenance (log 11, 26). -/
def State.observe (s : State) : State :=
  { s with
    unobserved := []
    engDirty := if s.plat.dmaCoherent then s.engDirty else s.unobserved ++ s.engDirty }

/-! ## The register port -/

/-- The value a 32-bit read at offset `off` returns (R23, R24, R32): reads are allowed at any time and change no register. -/
def State.readReg (off : Nat) (s : State) : Word :=
  match off with
  | 0x00 => s.cmd
  | 0x04 => s.statusWord
  | 0x08 => s.irqEnWord
  | 0x0C => s.par.keyAddr
  | 0x10 => s.par.keyLen
  | 0x14 => s.par.ivAddr
  | 0x18 => s.par.ivLen
  | 0x1C => s.par.aadAddr
  | 0x20 => s.par.aadLen
  | 0x24 => s.par.srcAddr
  | 0x28 => s.par.srcLen
  | 0x2C => s.par.dstAddr
  | 0x30 => s.par.tagAddr
  | 0x34 => s.outLen
  | _ => 0

/-- The parameter registers after the value `v` is written at offset `off` (R23); other offsets name none of them. -/
def Params.set (off : Nat) (v : Word) (p : Params) : Params :=
  match off with
  | 0x0C => { p with keyAddr := v }
  | 0x10 => { p with keyLen := v }
  | 0x14 => { p with ivAddr := v }
  | 0x18 => { p with ivLen := v }
  | 0x1C => { p with aadAddr := v }
  | 0x20 => { p with aadLen := v }
  | 0x24 => { p with srcAddr := v }
  | 0x28 => { p with srcLen := v }
  | 0x2C => { p with dstAddr := v }
  | 0x30 => { p with tagAddr := v }
  | _ => p

/-- A 32-bit write of `v` at offset `off`: `CMD` (R25, R88: accepted in `IDLE`, else no effect), `STATUS` (R27), `IRQ_EN`
(R28), the parameter registers (R32: ignored while `BUSY`), and offsets a write does not change (R24, R31). Log 19. -/
def State.writeReg (off : Nat) (v : Word) (s : State) : State :=
  match off with
  | 0x00 => if s.eng.phase = .idle then s.accept v else s
  | 0x04 => if v.getLsbD 1 then s.acknowledge else s
  | 0x08 => { s with doneIe := v.getLsbD 0 }
  | _ => if s.busy then s else { s with par := s.par.set off v }

/-- The register accesses R22 defines: 32 bits wide, at a multiple of 4, inside the 64-byte block (log 25). -/
def regAccessOk (width off : Nat) : Bool := decide (width = 32) && decide (off % 4 = 0) && decide (off < 64)

/-! ## The host obligations -/

/-- The length of the output buffer the obligations speak of (R50): what the rule's output has, and `n` for an AEAD
decryption that ends in `IntegrityError`, whose output buffer R50 gives as `[DST_ADDR, +n)`. Log 8. -/
def outSpan (c : Params) : Result → Nat
  | .ok out _ => out.length
  | .fail .integrityError => c.srcLen.toNat
  | .fail _ => 0

/-- R52 for an output of `l` bytes: the output buffer overlaps no input buffer, or stands exactly in place and then overlaps
no input buffer but the payload; a written tag overlaps no input buffer and not the output. -/
def overlapOk (i : Instr) (c : Params) (l : Nat) : Bool :=
  ((!(sideBufs i c).any fun q => q.overlaps (c.dstBuf l))
    && (decide (c.dstAddr = c.srcAddr) || !c.srcBuf.overlaps (c.dstBuf l)))
  && (!writesTag i || ((!(readBufs i c).any fun q => q.overlaps c.tagBuf) && !(c.dstBuf l).overlaps c.tagBuf))

/-- R54: with `DMA_COHERENT = false`, no byte of an accessed buffer holds a host store that was not made visible before the
command was accepted. -/
def visibleOk (s : State) (bufs : List Region) : Bool :=
  s.plat.dmaCoherent || !s.eng.stale.any fun a => bufs.any fun r => r.has a

/-- The host obligations of an operation of command `i` with an output of `l` bytes (R47, R49, R52, R54): `none` when all
hold, else what the model refuses. -/
def obligations (i : Instr) (l : Nat) (s : State) : Option Refusal :=
  let bufs := readBufs i s.eng.cfg ++ writeBufs i s.eng.cfg l
  if !bufs.all Region.inRange then some .bufferRange
  else if !bufs.all s.plat.ordinary then some .bufferNotOrdinary
  else if !overlapOk i s.eng.cfg l then some .bufferOverlap
  else if !visibleOk s bufs then some .hostStoreNotVisible
  else none

/-! ## Phase RUN -/

/-- The engine's stores of an operation that succeeded (R91): `OUT` at `DST_ADDR`, then `TOUT` at `TAG_ADDR`. -/
def storeResult (c : Params) (out : Bytes) (tout : Option Bytes) (m : List Host.Cell) : List Host.Cell :=
  let m := Memory.writeBytes m c.dstAddr.toNat out
  match tout with
  | some t => Memory.writeBytes m c.tagAddr.toNat t
  | none => m

/-- The addresses `storeResult` writes. -/
def storedAddrs (c : Params) (out : Bytes) (tout : Option Bytes) : List Nat :=
  (c.dstBuf out.length).addrs ++ match tout with
    | some t => Region.addrs { base := c.tagAddr.toNat, len := t.length }
    | none => []

/-- The end of `RUN` (R91): on `ok` the output is written; on `fail` the error is kept and nothing is written (R92). -/
def State.commit (r : Result × Dp) (s : State) : State :=
  match r.1 with
  | .ok out tout =>
    { s with
      mem := storeResult s.eng.cfg out tout s.mem
      unobserved := storedAddrs s.eng.cfg out tout ++ s.unobserved
      eng := { s.eng with phase := .finish, res := none, dp := { r.2 with out := out } } }
  | .fail e => { s with eng := { s.eng with phase := .finish, res := some e, dp := r.2 } }

/-- The datapath at the start of `RUN`: the key is in `eng.K`, no work is done yet. The other registers keep what they
held; no rule reads one it has not written (R37). -/
def Dp.start (key : Bytes) (d : Dp) : Dp := { d with key := key, work := [] }

/-- A rule's result on the operands of command `i` in state `s` (R65, R91). -/
def ruleResult (i : Instr) (rule : Rule) (s : State) : Result × Dp :=
  let o := operands i s.eng.cfg s.mem
  rule o (s.eng.dp.start o.key)

/-- Phase `RUN` of command `i` with its rule (R91). In a run, `CHECK` has already passed (R87); the guard makes the meaning
total: on operands `CHECK` turns away the operation ends in R89's error, and no primitive is invoked (R6, R69; log 1).
An operation whose host obligations do not hold is refused (R47, R49, R52, R54). -/
def runRule (i : Instr) (rule : Rule) (s : State) : Host.Outcome State Fault Refusal :=
  match validate i s.eng.cfg with
  | some e => .next (s.endWith e)
  | none =>
    let r := ruleResult i rule s
    match obligations i (outSpan s.eng.cfg r.1) s with
    | some why => .refused why
    | none => .next (s.commit r)

end Sys2Proof.Machine
end

