-- ==== Sys2Proof/Machine/Ccm.lean ====
section
/-! DEFINITION. CCM (43_aead_modes.md R113 to R118). -/

namespace Sys2Proof.Machine

/-- One round of the MAC loop of R117: `eng.i <- i`, `mac_absorb(blk_i)`. It writes no output. -/
def ccmMacBody (P : Prim) (k : Nat) (b : Bytes) (d : Dp) : Bytes × Dp :=
  ([], ({ d with i := BitVec.ofNat 32 k } : Dp).macAbsorb P (blockOf b))

/-- One round of the counter loop of R117 and of pass 2 of R118: `eng.V <- ctr_j`, `O_{j-1} <- xorp(.., ENC(K, eng.V))`. -/
def ccmCtrBody (P : Prim) (n : Bytes) (j : Nat) (b : Bytes) (d : Dp) : Bytes × Dp :=
  let r := ({ d with i := BitVec.ofNat 32 j, v := ccmCtr n j } : Dp).enc P (ccmCtr n j)
  (xorp b r.1, r.2)

/-- `CCM.ENC` (R117). -/
def ccmEncRule (P : Prim) : Rule := fun o d =>
  let d := (forBlocks (ccmMacBody P) 0 (blks (ccmFormat o.iv o.aad o.inp)) d.macInit).2
  let d := { d with tmpT := d.y, j0 := ccmCtr o.iv 0 }
  let t := forBlocks (ccmCtrBody P o.iv) 1 (blks o.inp) d
  let e := t.2.enc P t.2.j0
  let tout := xorBytes (msb Config.tagBytes (bytesOf t.2.tmpT)) (msb Config.tagBytes (bytesOf e.1))
  (.ok t.1 (some tout), e.2)

/-- One round of the counter loop of pass 1 of R118: the candidate plaintext, internal only. -/
def ccmPeekBody (P : Prim) (n : Bytes) (j : Nat) (b : Bytes) (d : Dp) : Bytes × Dp :=
  let r := d.enc P (ccmCtr n j)
  (xorp b r.1, r.2)

/-- One round of the MAC loop of pass 1 of R118: `mac_absorb(blk_i)`. -/
def ccmPeekMacBody (P : Prim) (_k : Nat) (b : Bytes) (d : Dp) : Bytes × Dp := ([], d.macAbsorb P (blockOf b))

/-- `CCM.DEC` (R118): pass 1 verifies, pass 2 computes the output (R115). -/
def ccmDecRule (P : Prim) : Rule := fun o d =>
  let q := forBlocks (ccmPeekBody P o.iv) 1 (blks o.inp) { d with j0 := ccmCtr o.iv 0 }
  let d := (forBlocks (ccmPeekMacBody P) 0 (blks (ccmFormat o.iv o.aad q.1)) q.2.macInit).2
  let e := d.enc P d.j0
  let d := { e.2 with tmpT := e.2.y ^^^ e.1 }
  if cteq (msb Config.tagBytes (bytesOf d.tmpT)) o.tin then
    let t := forBlocks (ccmCtrBody P o.iv) 1 (blks o.inp) d
    (.ok t.1 none, t.2)
  else (.fail .integrityError, d)

/-- `CCM.ENC` in phase `RUN`. -/
def execCcmEnc (ivp aadp tagp : Bool) (s : State) : Host.Outcome State Fault Refusal :=
  runRule (.ccmEnc ivp aadp tagp) (ccmEncRule Config.prim) s

/-- `CCM.DEC` in phase `RUN`. -/
def execCcmDec (ivp aadp tagp : Bool) (s : State) : Host.Outcome State Fault Refusal :=
  runRule (.ccmDec ivp aadp tagp) (ccmDecRule Config.prim) s

end Sys2Proof.Machine
end

