-- ==== Sys2Proof/Machine/Cfb.lean ====
section
/-! DEFINITION. CFB with 128-bit segments (42_confidentiality_modes.md R102, R103). -/

namespace Sys2Proof.Machine

/-- One round of R102: `S <- ENC(K, eng.V)`, `O_i <- xorp(P_i, S)`, `eng.V <- O_i`. -/
def cfbEncBody (P : Prim) (k : Nat) (b : Bytes) (d : Dp) : Bytes × Dp :=
  let r := ({ d with i := BitVec.ofNat 32 k } : Dp).enc P d.v
  (xorp b r.1, { r.2 with tmpS := r.1, v := segment (xorp b r.1) })

/-- `CFB.ENC` (R102). -/
def cfbEncRule (P : Prim) : Rule := fun o d =>
  let t := forBlocks (cfbEncBody P) 0 (blks o.inp) { d with v := blockOf o.iv }
  (.ok t.1 none, t.2)

/-- One round of R103: as R102, with `eng.V <- C_i`. -/
def cfbDecBody (P : Prim) (k : Nat) (b : Bytes) (d : Dp) : Bytes × Dp :=
  let r := ({ d with i := BitVec.ofNat 32 k } : Dp).enc P d.v
  (xorp b r.1, { r.2 with tmpS := r.1, v := segment b })

/-- `CFB.DEC` (R103): uses `ENC`, never `DEC`. -/
def cfbDecRule (P : Prim) : Rule := fun o d =>
  let t := forBlocks (cfbDecBody P) 0 (blks o.inp) { d with v := blockOf o.iv }
  (.ok t.1 none, t.2)

/-- `CFB.ENC` in phase `RUN`. -/
def execCfbEnc (ivp aadp tagp : Bool) (s : State) : Host.Outcome State Fault Refusal :=
  runRule (.cfbEnc ivp aadp tagp) (cfbEncRule Config.prim) s

/-- `CFB.DEC` in phase `RUN`. -/
def execCfbDec (ivp aadp tagp : Bool) (s : State) : Host.Outcome State Fault Refusal :=
  runRule (.cfbDec ivp aadp tagp) (cfbDecRule Config.prim) s

end Sys2Proof.Machine
end

