-- ==== Sys2Proof/Machine/Ctr.lean ====
section
/-! DEFINITION. CTR (42_confidentiality_modes.md R106, R107): the 16-byte IV is the first counter block (90_conflicts.md
C2). -/

namespace Sys2Proof.Machine

/-- One round of R106: `S <- ENC(K, eng.V)`, `O_i <- xorp(B_i, S)`, `eng.V <- inc128(eng.V)`. -/
def ctrBody (P : Prim) (k : Nat) (b : Bytes) (d : Dp) : Bytes × Dp :=
  let r := ({ d with i := BitVec.ofNat 32 k } : Dp).enc P d.v
  (xorp b r.1, { r.2 with tmpS := r.1, v := inc128 r.2.v })

/-- `CTR.ENC` (R106). -/
def ctrEncRule (P : Prim) : Rule := fun o d =>
  let t := forBlocks (ctrBody P) 0 (blks o.inp) { d with v := blockOf o.iv }
  (.ok t.1 none, t.2)

/-- `CTR.DEC` (R107): the pseudocode of R106 with the ciphertext as `IN`. -/
def ctrDecRule (P : Prim) : Rule := fun o d =>
  let t := forBlocks (ctrBody P) 0 (blks o.inp) { d with v := blockOf o.iv }
  (.ok t.1 none, t.2)

/-- `CTR.ENC` in phase `RUN`. -/
def execCtrEnc (ivp aadp tagp : Bool) (s : State) : Host.Outcome State Fault Refusal :=
  runRule (.ctrEnc ivp aadp tagp) (ctrEncRule Config.prim) s

/-- `CTR.DEC` in phase `RUN`. -/
def execCtrDec (ivp aadp tagp : Bool) (s : State) : Host.Outcome State Fault Refusal :=
  runRule (.ctrDec ivp aadp tagp) (ctrDecRule Config.prim) s

end Sys2Proof.Machine
end

