-- ==== Sys2Proof/Machine/Cbc.lean ====
section
/-! DEFINITION. CBC (42_confidentiality_modes.md R99 to R101). -/

namespace Sys2Proof.Machine

/-- One round of R100: `eng.V <- ENC(K, blk_i xor eng.V)`, `O_i <- eng.V`. -/
def cbcEncBody (P : Prim) (k : Nat) (b : Bytes) (d : Dp) : Bytes × Dp :=
  let r := ({ d with i := BitVec.ofNat 32 k } : Dp).enc P (blockOf b ^^^ d.v)
  (bytesOf r.1, { r.2 with v := r.1 })

/-- `CBC.ENC` (R100). -/
def cbcEncRule (P : Prim) : Rule := fun o d =>
  let t := forBlocks (cbcEncBody P) 0 (blks (pad o.inp)) { d with v := blockOf o.iv }
  (.ok t.1 none, t.2)

/-- One round of R101: `O_i <- DEC(K, C_i) xor eng.V`, `eng.V <- C_i`. -/
def cbcDecBody (P : Prim) (k : Nat) (b : Bytes) (d : Dp) : Bytes × Dp :=
  let r := ({ d with i := BitVec.ofNat 32 k } : Dp).dec P (blockOf b)
  (bytesOf (r.1 ^^^ d.v), { r.2 with v := blockOf b })

/-- `CBC.DEC` (R101): the last block first, its padding checked before anything else (R99). -/
def cbcDecRule (P : Prim) : Rule := fun o d =>
  let m := o.inp.length / 16
  let prev := if m = 1 then o.iv else blk (m - 2) o.inp
  let r := d.dec P (blockOf (blk (m - 1) o.inp))
  let z := r.1 ^^^ blockOf prev
  let d := { r.2 with tmpZ := z }
  if padOk (bytesOf z) then
    let t := forBlocks (cbcDecBody P) 0 ((blks o.inp).take (m - 1)) { d with v := blockOf o.iv }
    (.ok (t.1 ++ unpad (bytesOf z)) none, t.2)
  else (.fail .invalidPadding, d)

/-- `CBC.ENC` in phase `RUN`. -/
def execCbcEnc (ivp aadp tagp : Bool) (s : State) : Host.Outcome State Fault Refusal :=
  runRule (.cbcEnc ivp aadp tagp) (cbcEncRule Config.prim) s

/-- `CBC.DEC` in phase `RUN`. -/
def execCbcDec (ivp aadp tagp : Bool) (s : State) : Host.Outcome State Fault Refusal :=
  runRule (.cbcDec ivp aadp tagp) (cbcDecRule Config.prim) s

end Sys2Proof.Machine
end

