-- ==== Sys2Proof/Machine/Cts.lean ====
section
/-! DEFINITION. CTS, ciphertext stealing over CBC, variant CS3 (42_confidentiality_modes.md R108, R109). All but the last two
blocks are ordinary CBC rounds (`cbcEncBody`, `cbcDecBody`). -/

namespace Sys2Proof.Machine

/-- `CTS.ENC` (R108). `n = 16` is accepted (90_conflicts.md C1). -/
def ctsEncRule (P : Prim) : Rule := fun o d =>
  let m := numBlocks o.inp
  if m = 1 then
    let r := d.enc P (blockOf o.inp ^^^ blockOf o.iv)
    (.ok (bytesOf r.1) none, r.2)
  else
    let t := forBlocks (cbcEncBody P) 0 ((blks o.inp).take (m - 2)) { d with v := blockOf o.iv }
    let x := t.2.enc P (blockOf (blk (m - 2) o.inp) ^^^ t.2.v)
    let d := { x.2 with tmpX := x.1 }
    let y := d.enc P (blockOf (blk (m - 1) o.inp ++ zeros (16 - lastLen o.inp)) ^^^ x.1)
    (.ok (t.1 ++ bytesOf y.1 ++ msb (lastLen o.inp) (bytesOf x.1)) none, y.2)

/-- `CTS.DEC` (R109). -/
def ctsDecRule (P : Prim) : Rule := fun o d =>
  let m := numBlocks o.inp
  if m = 1 then
    let r := d.dec P (blockOf o.inp)
    (.ok (bytesOf (r.1 ^^^ blockOf o.iv)) none, r.2)
  else
    let t := forBlocks (cbcDecBody P) 0 ((blks o.inp).take (m - 2)) { d with v := blockOf o.iv }
    let xs := blk (m - 1) o.inp
    let z := t.2.dec P (blockOf (blk (m - 2) o.inp))
    let x := blockOf (xs ++ slice (lastLen o.inp) 16 (bytesOf z.1))
    let d := { z.2 with tmpZ := z.1, tmpX := x }
    let plast := xorBytes (msb (lastLen o.inp) (bytesOf z.1)) xs
    let r := d.dec P x
    (.ok (t.1 ++ bytesOf (r.1 ^^^ d.v) ++ plast) none, r.2)

/-- `CTS.ENC` in phase `RUN`. -/
def execCtsEnc (ivp aadp tagp : Bool) (s : State) : Host.Outcome State Fault Refusal :=
  runRule (.ctsEnc ivp aadp tagp) (ctsEncRule Config.prim) s

/-- `CTS.DEC` in phase `RUN`. -/
def execCtsDec (ivp aadp tagp : Bool) (s : State) : Host.Outcome State Fault Refusal :=
  runRule (.ctsDec ivp aadp tagp) (ctsDecRule Config.prim) s

end Sys2Proof.Machine
end

