-- ==== Sys2Proof/Machine/Ecb.lean ====
section
/-! DEFINITION. ECB (42_confidentiality_modes.md R97 to R99). -/

namespace Sys2Proof.Machine

/-- One round of R97: `O_i <- ENC(K, blk_i)`. -/
def ecbEncBody (P : Prim) (k : Nat) (b : Bytes) (d : Dp) : Bytes × Dp :=
  let r := ({ d with i := BitVec.ofNat 32 k } : Dp).enc P (blockOf b)
  (bytesOf r.1, r.2)

/-- `ECB.ENC` (R97). -/
def ecbEncRule (P : Prim) : Rule := fun o d =>
  let t := forBlocks (ecbEncBody P) 0 (blks (pad o.inp)) d
  (.ok t.1 none, t.2)

/-- One round of R98: `O_i <- DEC(K, C_i)`. -/
def ecbDecBody (P : Prim) (k : Nat) (b : Bytes) (d : Dp) : Bytes × Dp :=
  let r := ({ d with i := BitVec.ofNat 32 k } : Dp).dec P (blockOf b)
  (bytesOf r.1, r.2)

/-- `ECB.DEC` (R98): the last block first, its padding checked before anything else (R99). -/
def ecbDecRule (P : Prim) : Rule := fun o d =>
  let m := o.inp.length / 16
  let z := d.dec P (blockOf (blk (m - 1) o.inp))
  let d := { z.2 with tmpZ := z.1 }
  if padOk (bytesOf z.1) then
    let t := forBlocks (ecbDecBody P) 0 ((blks o.inp).take (m - 1)) d
    (.ok (t.1 ++ unpad (bytesOf z.1)) none, t.2)
  else (.fail .invalidPadding, d)

/-- `ECB.ENC` in phase `RUN`. -/
def execEcbEnc (ivp aadp tagp : Bool) (s : State) : Host.Outcome State Fault Refusal :=
  runRule (.ecbEnc ivp aadp tagp) (ecbEncRule Config.prim) s

/-- `ECB.DEC` in phase `RUN`. -/
def execEcbDec (ivp aadp tagp : Bool) (s : State) : Host.Outcome State Fault Refusal :=
  runRule (.ecbDec ivp aadp tagp) (ecbDecRule Config.prim) s

end Sys2Proof.Machine
end

