-- ==== Sys2Proof/Machine/Gcm.lean ====
section
/-! DEFINITION. GCM (40_datapath.md R79, 43_aead_modes.md R113 to R116, R119, R120). -/

namespace Sys2Proof.Machine

/-- One round of `GCTR` (R79): `O_i <- xorp(blk_i, ENC(K, eng.V))`, `eng.V <- inc32(eng.V)`. -/
def gctrBody (P : Prim) (_k : Nat) (b : Bytes) (d : Dp) : Bytes × Dp :=
  let r := d.enc P d.v
  (xorp b r.1, { r.2 with v := inc32 r.2.v })

/-- `GCTR(ICB, B)` (R79). -/
def gctr (P : Prim) (icb : Block) (b : Bytes) (d : Dp) : Bytes × Dp :=
  forBlocks (gctrBody P) 0 (blks b) { d with v := icb }

/-- The first two lines of R119 and R120: `eng.H <- ENC(K, zeros(16))`, `eng.J0 <- J0(N)`. -/
def gcmSetup (P : Prim) (n : Bytes) (d : Dp) : Dp :=
  let h := d.enc P 0
  Dp.setJ0 n { h.2 with h := h.1 }

/-- The GHASH over AAD, ciphertext and the length block (R119, R120). -/
def gcmHash (a c : Bytes) (d : Dp) : Dp :=
  ((d.ghashInit.ghashAbsorbz a).ghashAbsorbz c).ghashAbsorb (lenblk a c)

/-- `GCM.ENC` (R119). -/
def gcmEncRule (P : Prim) : Rule := fun o d =>
  let d := gcmSetup P o.iv d
  let c := gctr P (inc32 d.j0) o.inp d
  let d := gcmHash o.aad c.1 c.2
  let e := d.enc P d.j0
  (.ok c.1 (some (msb Config.tagBytes (bytesOf (e.1 ^^^ e.2.y)))), e.2)

/-- `GCM.DEC` (R120): pass 1 authenticates the ciphertext, pass 2 decrypts (R115). -/
def gcmDecRule (P : Prim) : Rule := fun o d =>
  let d := gcmHash o.aad o.inp (gcmSetup P o.iv d)
  let e := d.enc P d.j0
  let d := { e.2 with tmpT := e.1 ^^^ e.2.y }
  if cteq (msb Config.tagBytes (bytesOf d.tmpT)) o.tin then
    let t := gctr P (inc32 d.j0) o.inp d
    (.ok t.1 none, t.2)
  else (.fail .integrityError, d)

/-- `GCM.ENC` in phase `RUN`. -/
def execGcmEnc (ivp aadp tagp : Bool) (s : State) : Host.Outcome State Fault Refusal :=
  runRule (.gcmEnc ivp aadp tagp) (gcmEncRule Config.prim) s

/-- `GCM.DEC` in phase `RUN`. -/
def execGcmDec (ivp aadp tagp : Bool) (s : State) : Host.Outcome State Fault Refusal :=
  runRule (.gcmDec ivp aadp tagp) (gcmDecRule Config.prim) s

end Sys2Proof.Machine
end

