-- ==== Sys2Proof/Machine/Ofb.lean ====
section
/-! DEFINITION. OFB (42_confidentiality_modes.md R104, R105). -/

namespace Sys2Proof.Machine

/-- One round of R104: `eng.V <- ENC(K, eng.V)`, `O_i <- xorp(B_i, eng.V)`. -/
def ofbBody (P : Prim) (k : Nat) (b : Bytes) (d : Dp) : Bytes × Dp :=
  let r := ({ d with i := BitVec.ofNat 32 k } : Dp).enc P d.v
  (xorp b r.1, { r.2 with v := r.1 })

/-- `OFB.ENC` (R104). -/
def ofbEncRule (P : Prim) : Rule := fun o d =>
  let t := forBlocks (ofbBody P) 0 (blks o.inp) { d with v := blockOf o.iv }
  (.ok t.1 none, t.2)

/-- `OFB.DEC` (R105): the pseudocode of R104 with the ciphertext as `IN`. -/
def ofbDecRule (P : Prim) : Rule := fun o d =>
  let t := forBlocks (ofbBody P) 0 (blks o.inp) { d with v := blockOf o.iv }
  (.ok t.1 none, t.2)

/-- `OFB.ENC` in phase `RUN`. -/
def execOfbEnc (ivp aadp tagp : Bool) (s : State) : Host.Outcome State Fault Refusal :=
  runRule (.ofbEnc ivp aadp tagp) (ofbEncRule Config.prim) s

/-- `OFB.DEC` in phase `RUN`. -/
def execOfbDec (ivp aadp tagp : Bool) (s : State) : Host.Outcome State Fault Refusal :=
  runRule (.ofbDec ivp aadp tagp) (ofbDecRule Config.prim) s

end Sys2Proof.Machine
end

