-- ==== Sys2Proof/Machine/Dispatch.lean ====
section
/-! DEFINITION. The mode multiplexer (41_sequencer.md R90): in phase RUN the engine executes the rule selected by
(MODE, DIR). It computes nothing itself. -/

namespace Sys2Proof.Machine

def exec (i : Instr) (s : State) : Host.Outcome State Fault Refusal :=
  match i with
  | .ecbEnc ivp aadp tagp => Sys2Proof.Machine.execEcbEnc ivp aadp tagp s
  | .ecbDec ivp aadp tagp => Sys2Proof.Machine.execEcbDec ivp aadp tagp s
  | .cbcEnc ivp aadp tagp => Sys2Proof.Machine.execCbcEnc ivp aadp tagp s
  | .cbcDec ivp aadp tagp => Sys2Proof.Machine.execCbcDec ivp aadp tagp s
  | .cfbEnc ivp aadp tagp => Sys2Proof.Machine.execCfbEnc ivp aadp tagp s
  | .cfbDec ivp aadp tagp => Sys2Proof.Machine.execCfbDec ivp aadp tagp s
  | .ofbEnc ivp aadp tagp => Sys2Proof.Machine.execOfbEnc ivp aadp tagp s
  | .ofbDec ivp aadp tagp => Sys2Proof.Machine.execOfbDec ivp aadp tagp s
  | .ctrEnc ivp aadp tagp => Sys2Proof.Machine.execCtrEnc ivp aadp tagp s
  | .ctrDec ivp aadp tagp => Sys2Proof.Machine.execCtrDec ivp aadp tagp s
  | .ctsEnc ivp aadp tagp => Sys2Proof.Machine.execCtsEnc ivp aadp tagp s
  | .ctsDec ivp aadp tagp => Sys2Proof.Machine.execCtsDec ivp aadp tagp s
  | .ccmEnc ivp aadp tagp => Sys2Proof.Machine.execCcmEnc ivp aadp tagp s
  | .ccmDec ivp aadp tagp => Sys2Proof.Machine.execCcmDec ivp aadp tagp s
  | .gcmEnc ivp aadp tagp => Sys2Proof.Machine.execGcmEnc ivp aadp tagp s
  | .gcmDec ivp aadp tagp => Sys2Proof.Machine.execGcmDec ivp aadp tagp s

end Sys2Proof.Machine
end

