-- ==== Sys2Proof/Machine/Sequencer.lean ====
section
/-! DEFINITION. The sequencer (41_sequencer.md R87 to R95) and what the host, the platform and reset do to the machine
(10_state.md R22, 20_memory.md R53 to R55, 70_reset_and_hazards.md R139, R140). -/

namespace Sys2Proof.Machine

/-! ## Engine steps -/

/-- `AAD_LEN` "when used" (R96). -/
def aadLenUsed (i : Instr) (c : Params) : Word := if usesAad i then c.aadLen else 0

/-- `RUN` steps before the step of the padding or tag check (R96; log 4). -/
def stepsBefore (i : Instr) (w : Word) (c : Params) : Nat :=
  Config.checkSteps w c.keyLen c.ivLen (aadLenUsed i c) c.srcLen

/-- `RUN` steps after that step, on success (R96; log 4). -/
def stepsAfter (i : Instr) (w : Word) (c : Params) : Nat :=
  Config.restSteps w c.keyLen c.ivLen (aadLenUsed i c) c.srcLen

/-- How many `RUN` steps come before the last one: a function of the command, the lengths and the outcome alone (R96). -/
def runLength (i : Instr) (w : Word) (c : Params) (res : Option Err) : Nat :=
  stepsBefore i w c + if res = none then stepsAfter i w c else 0

/-- The last step of `RUN`: the rule R90 selects. (No run reaches `RUN` with a command word that is none: R89 test 1.) -/
def runOutcome (s : State) : Host.Outcome State Fault Refusal :=
  match decode s.eng.cmd with
  | .ok i => exec i s
  | .error _ => .next (s.endWith .illegalCommand)

/-- The one step of `CHECK` (R89): validation, with no memory access. When it passes the operation has started, so an
operation whose host obligations do not hold is refused here already (R47, R52; log 16). -/
def checkStep (s : State) : Host.Outcome State Fault Refusal :=
  match decode s.eng.cmd with
  | .error _ => .next (s.endWith .illegalCommand)
  | .ok i =>
    match validate i s.eng.cfg with
    | some e => .next (s.endWith e)
    | none =>
      match exec i s with
      | .next t =>
        .next { s with eng := { s.eng with
          phase := .run, left := runLength i s.eng.cmd s.eng.cfg t.eng.res } }
      | .fault f => .fault f
      | .refused r => .refused r

/-- One step of `RUN` (R91): the steps before the last one change nothing that can be seen. -/
def runStep (s : State) : Host.Outcome State Fault Refusal :=
  match s.eng.left with
  | 0 => runOutcome s
  | k + 1 => .next { s with eng := { s.eng with left := k } }

/-- One engine step (R87). In `IDLE` the engine takes none and nothing changes (R138). -/
def engineStep (s : State) : Host.Outcome State Fault Refusal :=
  match s.eng.phase with
  | .idle => .next s
  | .check => checkStep s
  | .run => runStep s
  | .finish => .next s.complete

/-! ## The operation in progress, as the host's memory accesses and a reset meet it -/

/-- The operation in progress that uses buffers: its command and the state at the end of its `RUN`. `none` when the engine
is idle or the command ends in a validation error, which accesses no buffer (R50). An operation whose obligations do not
hold is refused (R47, R52; log 16). No command faults. -/
def inFlight (s : State) : Except Refusal (Option (Instr × State)) :=
  match s.eng.phase, decode s.eng.cmd with
  | .idle, _ => .ok none
  | _, .error _ => .ok none
  | .finish, .ok i => if validate i s.eng.cfg = none then .ok (some (i, s)) else .ok none
  | _, .ok i =>
    if validate i s.eng.cfg = none then
      match exec i s with
      | .next t => .ok (some (i, t))
      | .refused r => .error r
      | .fault _ => .ok none
    else .ok none

/-- The output length R50 gives an operation that has ended `RUN` in state `t` (as `outSpan`; log 8). -/
def endSpan (t : State) : Nat :=
  match t.eng.res with
  | none => t.eng.dp.out.length
  | some .integrityError => t.eng.cfg.srcLen.toNat
  | some _ => 0

/-- The input buffers of the operation in progress (R50). -/
def liveReads : Option (Instr × State) → List Region
  | none => []
  | some (i, t) => readBufs i t.eng.cfg

/-- The output buffers of the operation in progress (R50). -/
def liveWrites : Option (Instr × State) → List Region
  | none => []
  | some (i, t) => writeBufs i t.eng.cfg (endSpan t)

/-- The engine is in pass 2 of an AEAD decryption, or past it (R115, R140): `s` is the state now, `t` the end of `RUN`. -/
def pastTagCheck (i : Instr) (s t : State) : Bool :=
  match s.eng.phase with
  | .run => decide (t.eng.res = none) && decide (s.eng.left < stepsAfter i s.eng.cmd s.eng.cfg)
  | .finish => decide (t.eng.res = none)
  | _ => false

/-- The buffers whose bytes a reset leaves with any value (R140): the operation's output buffers, and for an AEAD decryption
only in pass 2. Log 7. -/
def abandoned (s : State) : Option (Instr × State) → List Region
  | none => []
  | some (i, t) => if readsTag i && !pastTagCheck i s t then [] else writeBufs i t.eng.cfg (endSpan t)

/-! ## Host and platform events -/

/-- `n` drawn bytes, the first with number `k` ("any value"; log 6). -/
def freeBytes (k n : Nat) : Bytes := (List.range n).map fun j => Config.freeByte (k + j)

/-- Every byte of the ranges is given a drawn value. -/
def scramble : List Region → Nat → List Host.Cell → List Host.Cell
  | [], _, m => m
  | r :: rs, k, m => scramble rs (k + r.len) (Memory.writeBytes m r.base (freeBytes k r.len))

/-- A register write of the host (R22 to R32). -/
def hostRegWrite (width off : Nat) (v : Word) (s : State) : Host.Outcome State Fault Refusal :=
  if regAccessOk width off then .next (s.writeReg off v) else .refused .registerAccess

/-- A read of `STATUS` (R26): when it returns `DONE = 1` the host has observed the completion (20_memory.md R55, R57). -/
def State.readStatus (s : State) : State :=
  { (if s.done then s.observe else s) with regRead := s.statusWord }

/-- A register read of the host (R22 to R32). -/
def hostRegRead (width off : Nat) (s : State) : Host.Outcome State Fault Refusal :=
  if regAccessOk width off then
    .next (if off = 0x04 then s.readStatus else { s with regRead := s.readReg off })
  else .refused .registerAccess

/-- A host store to buffer memory: refused on a buffer of the operation in progress (R53). -/
def hostStore (a : Word) (bs : Bytes) (s : State) : Host.Outcome State Fault Refusal :=
  let r : Region := { base := a.toNat, len := bs.length }
  if !r.inRange then .fault .outsideAddressSpace
  else if !s.plat.ordinary r then .refused .notBufferMemory
  else match inFlight s with
    | .error why => .refused why
    | .ok op =>
      if (liveReads op ++ liveWrites op).any (fun q => q.overlaps r) then .refused .liveBufferWrite
      else .next { s with
        mem := Memory.writeBytes s.mem a.toNat bs
        hostDirty := if s.plat.dmaCoherent then s.hostDirty else r.addrs ++ s.hostDirty
        unobserved := s.unobserved.filter fun x => !r.has x
        engDirty := s.engDirty.filter fun x => !r.has x }

/-- The byte a host read of address `x` returns, `rd` and `wr` being the input and output buffers in use; where the spec defines
none, the drawn value number `k`. An output byte of the operation in progress is any value, and an input byte that is no output
byte is the byte of memory, on every platform (R53, R56). Elsewhere a byte is any value if the engine stored it and the host
has not yet observed `DONE = 1` (R55, R145; that this holds after the completion too is the model's choice, log 26) or, with
`DMA_COHERENT = false`, has not yet done its cache maintenance (R55; log 11). -/
def byteSeen (s : State) (rd wr : List Region) (k x : Nat) : Byte :=
  if wr.any (fun q => q.has x) then Config.freeByte k
  else if rd.any (fun q => q.has x) then Memory.read s.mem x
  else if s.unobserved.contains x || (!s.plat.dmaCoherent && s.engDirty.contains x) then Config.freeByte k
  else Memory.read s.mem x

/-- A host read of buffer memory (R53). -/
def hostLoad (a : Word) (n : Nat) (s : State) : Host.Outcome State Fault Refusal :=
  let r : Region := { base := a.toNat, len := n }
  if !r.inRange then .fault .outsideAddressSpace
  else if !s.plat.ordinary r then .refused .notBufferMemory
  else match inFlight s with
    | .error why => .refused why
    | .ok op => .next { s with
        memRead := (List.range n).map fun k => byteSeen s (liveReads op) (liveWrites op) (s.draws + k) (a.toNat + k)
        draws := s.draws + n }

/-- Reset (R139, R140, R141): every register and every internal register to its reset value, at any moment; of an
abandoned operation's output buffers each byte holds any value, and no other byte changes. (`unobserved` and `engDirty` are
the model's own: the drawn bytes are in memory, and a platform without coherence shows them after maintenance; log 11, 26.) -/
def hostReset (s : State) : Host.Outcome State Fault Refusal :=
  match inFlight s with
  | .error why => .refused why
  | .ok op =>
    let hit := abandoned s op
    .next { s with
      cmd := 0, busy := false, done := false, err := 0, doneIe := false, par := Params.zero, outLen := 0
      eng := Engine.reset
      mem := scramble hit s.draws s.mem
      draws := s.draws + (hit.map Region.len).sum
      unobserved := s.unobserved.filter fun x => !hit.any fun q => q.has x
      engDirty := if s.plat.dmaCoherent then s.engDirty else hit.flatMap Region.addrs ++ s.engDirty }

/-- One turn of `WAITDONE` (30_encoding.md R68): the host reads `STATUS`; when `DONE` is not 1 the engine takes a step and
the host will read again (log 18). -/
def hostWaitDone (s : State) : Host.Outcome State Fault Refusal :=
  if s.done then .next s.readStatus
  else engineStep { s with regRead := s.statusWord, inbox := .waitDone :: s.inbox }

/-- What an event does, the event itself already taken from the inbox. -/
def handle (e : Event) (s : State) : Host.Outcome State Fault Refusal :=
  match e with
  | .regWrite width off v => hostRegWrite width off v s
  | .regRead width off => hostRegRead width off s
  | .store a bs => hostStore a bs s
  | .load a n => hostLoad a n s
  | .maintain => .next { s with hostDirty := [], engDirty := [] }
  | .reset => hostReset s
  | .engine => engineStep s
  | .waitDone => hostWaitDone s

end Sys2Proof.Machine
end

