-- ==== Sys2Proof/Machine/Step.lean ====
section
/-! DEFINITION. One step of the machine: the next event of the inbox or, when nothing else is to come, one engine step. -/

namespace Sys2Proof.Machine

/-- One step (00_scope.md R16, 41_sequencer.md R87; log 2). -/
def step (s : State) : Host.Outcome State Fault Refusal :=
  match s.inbox with
  | [] => engineStep s
  | e :: rest => handle e { s with inbox := rest }

/-- The command word with value `w` accepted (R88) and standing in phase `RUN` before its last step, with nothing else to
come: the next step runs it (log 12). -/
def State.withFetchWord (s : State) (nbits w : Nat) : State :=
  let t := s.accept (BitVec.ofNat 32 (w % 2 ^ nbits))
  { t with inbox := [], eng := { t.eng with phase := .run } }

end Sys2Proof.Machine
end

