-- ==== Sys2Proof/Safety.lean ====
section
/-! DEFINITION. The terms claims are stated in: the invariant of every run, what the end of phase RUN changes and leaves
alone, when an operation may run, and closed forms of the spec's chained computations. -/

namespace Sys2Proof.Machine

/-! ## The invariant -/

/-- What holds of every state a run can reach. -/
structure State.Inv (s : State) : Prop where
  /-- Buffer memory is in its canonical form. -/
  memWf : Memory.wf s.mem
  /-- `STATUS.BUSY = 1` exactly when `eng.phase` is not `IDLE` (41_sequencer.md R87). -/
  busyIff : s.busy = true ↔ s.eng.phase ≠ .idle
  /-- `BUSY = 1` and `DONE = 1` never hold together (10_state.md R26). -/
  notBoth : s.busy = true → s.done = false
  /-- While `BUSY = 1`, `ERR` and `OUT_LEN` read 0 (R26, 70_reset_and_hazards.md R145). -/
  busyClear : s.busy = true → s.err = 0 ∧ s.outLen = 0
  /-- The accepted command is what `CMD` holds (R25, R88). -/
  cmdHeld : s.eng.cmd = s.cmd
  /-- While `BUSY = 1` the parameter registers are what was accepted (R32, 20_memory.md R59). -/
  cfgHeld : s.busy = true → s.eng.cfg = s.par
  /-- Outside `FINISH` the datapath registers and temporaries are zero (R37). -/
  quietZero : s.eng.phase ≠ .finish → s.eng.dp = Dp.zero
  /-- `eng.K` holds up to 32 bytes (R36). -/
  keyLen : s.eng.dp.key.length ≤ 32
  /-- In `IDLE`, `ERR` is the code of the last completed operation (R26, R93). -/
  idleErr : s.eng.phase = .idle → s.err = resCode s.eng.res
  /-- Before the end of `RUN` the pending result is `OK` (R88). -/
  pending : s.eng.phase = .check ∨ s.eng.phase = .run → s.eng.res = none
  /-- `RUN` is reached only by commands that passed validation (R89). -/
  runValid : s.eng.phase = .run → checkCommand s.eng.cmd s.eng.cfg = none
  /-- The output buffers of an operation that has ended `RUN` lie in the address space (20_memory.md R47). -/
  finishRange : s.eng.phase = .finish → ∀ i, decode s.eng.cmd = .ok i → validate i s.eng.cfg = none →
    ∀ r ∈ writeBufs i s.eng.cfg (endSpan s), r.inRange = true

/-! ## What the end of RUN leaves alone -/

/-- Everything the end of phase `RUN` leaves as it was: every host-visible register and status flag, the accepted command and
parameters, the platform, the events to come, what the host has read (41_sequencer.md R91, 10_state.md R32). -/
structure RunFrame (s t : State) : Prop where
  cmd : t.cmd = s.cmd
  busy : t.busy = s.busy
  done : t.done = s.done
  err : t.err = s.err
  doneIe : t.doneIe = s.doneIe
  par : t.par = s.par
  outLen : t.outLen = s.outLen
  engCmd : t.eng.cmd = s.eng.cmd
  engCfg : t.eng.cfg = s.eng.cfg
  engLeft : t.eng.left = s.eng.left
  engStale : t.eng.stale = s.eng.stale
  plat : t.plat = s.plat
  inbox : t.inbox = s.inbox
  regRead : t.regRead = s.regRead
  memRead : t.memRead = s.memRead
  draws : t.draws = s.draws
  hostDirty : t.hostDirty = s.hostDirty
  engDirty : t.engDirty = s.engDirty

/-- `RUN` ended in `ok(OUT, TOUT)` (R91): the output stands at `DST_ADDR`, the tag (if any) at `TAG_ADDR`, every other byte
of memory is as it was, and so is everything `RunFrame` names. -/
structure RunEnds (s t : State) (out : Bytes) (tout : Option Bytes) : Prop where
  phase : t.eng.phase = .finish
  res : t.eng.res = none
  outStr : t.eng.dp.out = out
  outMem : (s.eng.cfg.dstBuf out.length).fetch t.mem = out
  tagMem : ∀ tag, tout = some tag → s.eng.cfg.tagBuf.fetch t.mem = tag
  memFrame : ∀ a, (s.eng.cfg.dstBuf out.length).has a = false → (tout = none ∨ s.eng.cfg.tagBuf.has a = false) →
    Memory.read t.mem a = Memory.read s.mem a
  /-- The host has not observed the stored bytes yet (20_memory.md R55; log 26). -/
  unobserved : ∀ a, a ∈ t.unobserved ↔ (s.eng.cfg.dstBuf out.length).has a = true
    ∨ (tout ≠ none ∧ s.eng.cfg.tagBuf.has a = true) ∨ a ∈ s.unobserved
  frame : RunFrame s t

/-- `RUN` ended in `fail e` (R91, R92): no byte of memory has changed. -/
structure RunFails (s t : State) (e : Err) : Prop where
  phase : t.eng.phase = .finish
  res : t.eng.res = some e
  mem : ∀ a, Memory.read t.mem a = Memory.read s.mem a
  unobserved : t.unobserved = s.unobserved
  frame : RunFrame s t

/-- Command `i` may run in `s` with an output of `l` bytes: it passes validation (41_sequencer.md R89) and the host
obligations hold (20_memory.md R47, R49, R52, R54), memory being in its canonical form. -/
structure Ready (i : Instr) (l : Nat) (s : State) : Prop where
  wf : Memory.wf s.mem
  valid : validate i s.eng.cfg = none
  obliged : obligations i l s = none

/-! ## The operation in progress -/

/-- An operation of command `i` that uses buffers is in progress in `s`, and `t` is the state at the end of its `RUN`: what
`exec` gives before that end, `s` itself in `FINISH` (41_sequencer.md R87). -/
def OpInProgress (s : State) (i : Instr) (t : State) : Prop :=
  decode s.eng.cmd = .ok i ∧ validate i s.eng.cfg = none
    ∧ (((s.eng.phase = .check ∨ s.eng.phase = .run) ∧ exec i s = .next t) ∨ (s.eng.phase = .finish ∧ t = s))

/-- No operation that uses buffers is in progress: the engine is idle, or the command fails validation (20_memory.md R50). -/
def NoOpInProgress (s : State) : Prop := s.eng.phase = .idle ∨ ∃ e, checkCommand s.eng.cmd s.eng.cfg = some e

/-- The output length of a command, where it does not depend on the payload's bytes: every command but the decryptions of ECB
and CBC (42_confidentiality_modes.md R111, 43_aead_modes.md R117 to R120). -/
def knownSpan (i : Instr) (c : Params) : Option Nat :=
  if i.mode = .ecb ∨ i.mode = .cbc then
    if i.dir = .enc then some (16 * (c.srcLen.toNat / 16 + 1)) else none
  else some c.srcLen.toNat

/-- Parameters of which only the three lengths that R89 tests are given. -/
def lengths (keyLen ivLen srcLen : Nat) : Params :=
  { Params.zero with
    keyLen := BitVec.ofNat 32 keyLen, ivLen := BitVec.ofNat 32 ivLen, srcLen := BitVec.ofNat 32 srcLen }

/-! ## The operands of the accepted command -/

/-- `K` (30_encoding.md R65). -/
def State.opKey (s : State) : Bytes := s.eng.cfg.keyBuf.fetch s.mem
/-- `IV`, or the nonce (R65). -/
def State.opIv (s : State) : Bytes := s.eng.cfg.ivBuf.fetch s.mem
/-- `A`, empty without `AADP` (R65, 43_aead_modes.md R114). -/
def State.opAad (aadp : Bool) (s : State) : Bytes := if aadp then s.eng.cfg.aadBuf.fetch s.mem else []
/-- `IN` (R65). -/
def State.opIn (s : State) : Bytes := s.eng.cfg.srcBuf.fetch s.mem
/-- `TIN` (R65). -/
def State.opTag (s : State) : Bytes := s.eng.cfg.tagBuf.fetch s.mem

/-- The rule each command runs (R90), for any block primitive. -/
def ruleOf (P : Prim) : Instr → Rule
  | .ecbEnc _ _ _ => ecbEncRule P
  | .ecbDec _ _ _ => ecbDecRule P
  | .cbcEnc _ _ _ => cbcEncRule P
  | .cbcDec _ _ _ => cbcDecRule P
  | .cfbEnc _ _ _ => cfbEncRule P
  | .cfbDec _ _ _ => cfbDecRule P
  | .ofbEnc _ _ _ => ofbEncRule P
  | .ofbDec _ _ _ => ofbDecRule P
  | .ctrEnc _ _ _ => ctrEncRule P
  | .ctrDec _ _ _ => ctrDecRule P
  | .ctsEnc _ _ _ => ctsEncRule P
  | .ctsDec _ _ _ => ctsDecRule P
  | .ccmEnc _ _ _ => ccmEncRule P
  | .ccmDec _ _ _ => ccmDecRule P
  | .gcmEnc _ _ _ => gcmEncRule P
  | .gcmDec _ _ _ => gcmDecRule P

/-- The result is `ok`. -/
def Result.isOk : Result → Bool
  | .ok _ _ => true
  | .fail _ => false

/-! ## Closed forms of the spec's chained computations -/

/-- `blk_{i-1}(B)` as a block, or the IV for `i = 0` (42_confidentiality_modes.md: `C[-1] = IV`). -/
def prevBlock (iv b : Bytes) (i : Nat) : Block := if i = 0 then blockOf iv else blockOf (blk (i - 1) b)

/-- The blocks `f 0`, ..., `f (m-1)` put together. -/
def joinBlocks (m : Nat) (f : Nat → Bytes) : Bytes := (List.range m).flatMap f

/-- `CBCMAC` of a list of blocks (40_datapath.md R80). -/
def cbcMac (P : Prim) (k : Bytes) (bs : List Bytes) : Block := bs.foldl (fun y b => P k (y ^^^ blockOf b)) 0

/-- `GHASH_H` of a list of blocks (R76). -/
def ghash (h : Block) (bs : List Bytes) : Block := bs.foldl (fun y b => gfMul (y ^^^ blockOf b) h) 0

/-- `J0(N)` (R78). -/
def gcmJ0 (P : Prim) (k n : Bytes) : Block :=
  if n.length = 12 then blockOf (n ++ [0, 0, 0, 1])
  else ghash (P k 0) (blks (padz n ++ zeros 8 ++ be 8 (8 * n.length)))

/-- The GCM tag of a ciphertext (43_aead_modes.md R119). -/
def gcmTag (P : Prim) (k n a c : Bytes) : Bytes :=
  bytesOf (P k (gcmJ0 P k n)
    ^^^ ghash (P k 0) (blks (padz a ++ padz c ++ (be 8 (8 * a.length) ++ be 8 (8 * c.length)))))

/-- The GCM output: block `i` under the counter block `inc32^(i+1)(J0)` (R79, R119). -/
def gcmStream (P : Prim) (k n b : Bytes) : Bytes :=
  joinBlocks (numBlocks b) fun i => xorp (blk i b) (P k (inc32^[i + 1] (gcmJ0 P k n)))

/-- The CCM tag of a plaintext (R117). -/
def ccmTag (P : Prim) (k n a p : Bytes) : Bytes :=
  bytesOf (cbcMac P k (blks (ccmFormat n a p)) ^^^ P k (ccmCtr n 0))

/-- The CCM output: block `i` under the counter block `ctr_{i+1}` (R117). -/
def ccmStream (P : Prim) (k n b : Bytes) : Bytes :=
  joinBlocks (numBlocks b) fun i => xorp (blk i b) (P k (ccmCtr n (i + 1)))

end Sys2Proof.Machine
end

