-- ==== Sys2Proof/Certificates/Slice0/Obligations.lean ====
section
/-! DEFINITION. The statements for the provers. Each docstring names the rules of spec/ it formalises. -/

open Sys2Proof Sys2Proof.Machine

/-- A word decodes to a command exactly when it is that command's encoding. R61, R63, R66. -/
def Obligations.WordDecodesToCommandIffItsEncoding : Prop :=
  ∀ (w : Word) (i : Instr), decode w = .ok i ↔ w = encode i

/-- The decoder follows the masks and matches of the opcode map; a word is no command exactly when it is reserved. R61, R63, R66. -/
def Obligations.OpcodeMapDecodesAndReservedWordsAreRefused : Prop :=
  ∀ w : Word, (∀ i : Instr, decode w = .ok i ↔
      (w &&& 0xFFFFFF1F#32 = opcodeMatch i ∧ w.getLsbD 5 = i.ivp ∧ w.getLsbD 6 = i.aadp ∧ w.getLsbD 7 = i.tagp)) ∧
    ((∃ e, decode w = .error e) ↔ (w.toNat / 256 ≠ 0 ∨ 8 ≤ w.toNat % 16))

/-- The six example words of the command syntax decode to their commands. R67. -/
def Obligations.ExampleWordsOfTheSpecDecode : Prop :=
  decode 0x00000000#32 = .ok (.ecbEnc false false false) ∧ decode 0x00000021#32 = .ok (.cbcEnc true false false)
    ∧ decode 0x00000034#32 = .ok (.ctrDec true false false) ∧ decode 0x00000067#32 = .ok (.gcmEnc true true false)
    ∧ decode 0x000000F7#32 = .ok (.gcmDec true true true) ∧ decode 0x000000B6#32 = .ok (.ccmDec true false true)

/-- The last step of RUN is exec of the decoded command. R90, R91. The model's choices: that a step is one event, or an engine step (log 2), and that all work of RUN, the memory writes among it, stands in its last step, which the field left marks (log 4, unsafe); R91 leaves the division of work and of writes among the RUN steps open. -/
def Obligations.StepRunsDecodedCommand : Prop :=
  ∀ (s : State) (i : Instr) (rest : List Event), s.eng.phase = .run → s.eng.left = 0 → decode s.eng.cmd = .ok i →
    (s.inbox = [] → step s = exec i s) ∧
    (s.inbox = .engine :: rest → step s = exec i { s with inbox := rest })

/-- A command word placed by withFetchWord is run by the very next step. R88, R90. How a word is placed is the model's choice (log 12). -/
def Obligations.PlacedCommandRunsOnTheNextStep : Prop :=
  ∀ (s : State) (i : Instr),
    step (s.withFetchWord 32 (encode i).toNat) = exec i (s.withFetchWord 32 (encode i).toNat) ∧
    (s.withFetchWord 32 (encode i).toNat).eng.cfg = s.par ∧ (s.withFetchWord 32 (encode i).toNat).mem = s.mem

/-- The step of CHECK ends the operation in the validation error, or enters RUN. R87, R89. That CHECK looks at the host obligations already is the model's reading (log 16); the count of RUN steps is its own field (log 4). -/
def Obligations.CheckStepValidatesTheCommand : Prop :=
  ∀ s : State, s.inbox = [] → s.eng.phase = .check →
    (∀ e, checkCommand s.eng.cmd s.eng.cfg = some e →
      step s = .next { s with eng := { s.eng with phase := .finish, res := some e } }) ∧
    (∀ i t, decode s.eng.cmd = .ok i → validate i s.eng.cfg = none → exec i s = .next t →
      ∃ k, step s = .next { s with eng := { s.eng with phase := .run, left := k } })

/-- The step of FINISH sets OUT_LEN, ERR, BUSY, DONE, zeroes the engine and goes to IDLE. R93, R37, R123. The model's choices: which temporaries there are (log 14), that the key register's zeros are 32 bytes (log 15), and that eng.res, eng.cmd and eng.cfg keep their values (log 21). The codes are R123. -/
def Obligations.FinishStepCompletesTheOperation : Prop :=
  ∀ s : State, s.inbox = [] → s.eng.phase = .finish →
    (s.eng.res = none → step s = .next { s with
      outLen := BitVec.ofNat 32 s.eng.dp.out.length, err := 0, busy := false, done := true
      eng := { s.eng with phase := .idle, dp := Dp.zero } }) ∧
    (∀ e, s.eng.res = some e → step s = .next { s with
      outLen := 0, err := errCode e, busy := false, done := true
      eng := { s.eng with phase := .idle, dp := Dp.zero } }) ∧
    (errCode .invalidKeyLength = 1 ∧ errCode .invalidIVLength = 2 ∧ errCode .invalidPadding = 3 ∧
      errCode .shortInputForCTS = 4 ∧ errCode .integrityError = 5 ∧ errCode .missingRequiredParameter = 6 ∧
      errCode .illegalCommand = 7) ∧
    (Dp.zero.key = zeros 32 ∧ Dp.zero.v = 0 ∧ Dp.zero.y = 0 ∧ Dp.zero.h = 0 ∧ Dp.zero.j0 = 0 ∧ Dp.zero.i = 0 ∧
      Dp.zero.tmpX = 0 ∧ Dp.zero.tmpS = 0 ∧ Dp.zero.tmpT = 0 ∧ Dp.zero.tmpZ = 0 ∧ Dp.zero.out = [])

/-- In IDLE the engine takes no step; a RUN step before the last one changes nothing but the count of steps to come. R87, R91, R138. The model's choice, not the spec's: a RUN step before the last one changes no memory and no datapath register, because the model does all work in the last step (log 4, unsafe); R91 leaves the division of work and of writes open. The count of steps is the model's own field (log 4). -/
def Obligations.IdleAndEarlierRunStepsChangeNothingVisible : Prop :=
  ∀ s : State, s.inbox = [] →
    (s.eng.phase = .idle → step s = .next s) ∧
    (∀ k, s.eng.phase = .run → s.eng.left = k + 1 → step s = .next { s with eng := { s.eng with left := k } })

/-- After reset every register holds its stated reset value. R139, R23, R36. The width of eng.K's zeros and the values of the temporaries are the model's reading (log 14, 15). -/
def Obligations.ResetValuesOfTheRegisters : Prop :=
  State.reset.cmd = 0 ∧ State.reset.busy = false ∧ State.reset.done = false ∧ State.reset.err = 0 ∧
    State.reset.doneIe = false ∧ State.reset.par = ⟨0, 0, 0, 0, 0, 0, 0, 0, 0, 0⟩ ∧ State.reset.outLen = 0 ∧
    State.reset.eng.phase = .idle ∧ State.reset.eng.cmd = 0 ∧ State.reset.eng.cfg = ⟨0, 0, 0, 0, 0, 0, 0, 0, 0, 0⟩ ∧
    State.reset.eng.dp.key = zeros 32 ∧ State.reset.eng.dp.v = 0 ∧ State.reset.eng.dp.y = 0 ∧
    State.reset.eng.dp.h = 0 ∧ State.reset.eng.dp.j0 = 0 ∧ State.reset.eng.dp.i = 0 ∧
    State.reset.eng.dp.tmpX = 0 ∧ State.reset.eng.dp.tmpS = 0 ∧ State.reset.eng.dp.tmpT = 0 ∧
    State.reset.eng.dp.tmpZ = 0 ∧ State.reset.eng.dp.out = [] ∧ State.reset.eng.res = none ∧
    State.reset.irq = false

/-- The invariant holds of the reset state. R139, R23, R36. The model's choices: empty memory and its canonical form (log 5), the temporaries (log 14), the 32 zero bytes of the key register (log 15), eng.res beside ERR (log 21). -/
def Obligations.InvariantHoldsAtReset : Prop :=
  State.reset.Inv

/-- Every step, of the engine or of the host, keeps the invariant. R25, R32, R37, R88, R89, R93. That BUSY and DONE never hold together (R26) and that BUSY is 1 exactly outside IDLE (R87) the spec itself derives from R88 and R93. The model's choices, not the spec's: the canonical form of memory (log 5); zero datapath registers throughout RUN (log 4; R37 gives them at completion), the temporaries among them (log 14) and the key register as 32 zero bytes (log 15); eng.cmd and eng.res keeping their values in IDLE (log 21); the output buffer of an operation that ends in an error (log 8). -/
def Obligations.EveryStepKeepsTheInvariant : Prop :=
  ∀ s t : State, s.Inv → step s = .next t → t.Inv

/-- A reset event restores every register and changes no byte of memory outside the abandoned output. R139, R140. Where pass 2 of an AEAD decryption begins, and that the output bytes of an operation in CHECK may change too, is the model's reading (log 4, 7), and so are the output buffer of an operation that ends in an error (log 8) and the refusal of a reset during an operation whose obligations do not hold (log 16); the zeros of eng.K and the temporaries are log 14 and 15. -/
def Obligations.ResetEventRestoresEveryRegister : Prop :=
  ∀ s : State, s.Inv →
    (∀ t, handle .reset s = .next t →
      (t.cmd = 0 ∧ t.busy = false ∧ t.done = false ∧ t.err = 0 ∧ t.doneIe = false ∧ t.par = Params.zero ∧
        t.outLen = 0 ∧ t.eng = Engine.reset ∧ t.plat = s.plat ∧ t.inbox = s.inbox) ∧
      (∀ op, inFlight s = .ok op → ∀ a, (∀ r ∈ abandoned s op, r.has a = false) →
        Memory.read t.mem a = Memory.read s.mem a)) ∧
    (∀ i u, OpInProgress s i u → ∃ t, handle .reset s = .next t) ∧
    (NoOpInProgress s → ∃ t, handle .reset s = .next t ∧ t.mem = s.mem)

/-- A write to CMD in IDLE starts an operation, whatever the value. R25, R88, R31. The fields left and stale are the model's own (log 4, 11). -/
def Obligations.CommandWriteInIdleIsAccepted : Prop :=
  ∀ (s : State) (w : Word), s.eng.phase = .idle →
    handle (.regWrite 32 0x00 w) s = .next { s with
      cmd := w, busy := true, done := false, err := 0, outLen := 0
      eng := { s.eng with phase := .check, cmd := w, cfg := s.par, res := none, left := 0, stale := s.hostDirty } }

/-- While BUSY = 1 writes to CMD and the parameter registers are ignored; every read returns the current value. R32. regRead, unobserved and engDirty are the model's own fields, no registers (log 11, 13, 26). -/
def Obligations.LockedRegistersIgnoreWritesWhileBusy : Prop :=
  (∀ (s : State) (v : Word) (off : Nat), s.Inv → s.busy = true →
      off ∈ [0x00, 0x0C, 0x10, 0x14, 0x18, 0x1C, 0x20, 0x24, 0x28, 0x2C, 0x30] →
      handle (.regWrite 32 off v) s = .next s) ∧
    (∀ s : State, ∀ p ∈ [(0x00, s.cmd), (0x04, s.statusWord), (0x08, s.irqEnWord), (0x0C, s.par.keyAddr),
        (0x10, s.par.keyLen), (0x14, s.par.ivAddr), (0x18, s.par.ivLen), (0x1C, s.par.aadAddr),
        (0x20, s.par.aadLen), (0x24, s.par.srcAddr), (0x28, s.par.srcLen), (0x2C, s.par.dstAddr),
        (0x30, s.par.tagAddr), (0x34, s.outLen)],
      ∃ t, handle (.regRead 32 p.1) s = .next t ∧ t.regRead = p.2 ∧
        t = { s with regRead := p.2, unobserved := t.unobserved, engDirty := t.engDirty })

/-- An unlocked write to a parameter register is read back as written and changes no other register. R29, R30, R23. -/
def Obligations.ParameterRegistersReadBackAsWritten : Prop :=
  ∀ (s : State) (v : Word) (off : Nat), s.busy = false →
    off ∈ [0x0C, 0x10, 0x14, 0x18, 0x1C, 0x20, 0x24, 0x28, 0x2C, 0x30] →
    ∃ t, handle (.regWrite 32 off v) s = .next t ∧ t.readReg off = v ∧
      (∀ off', off' ≠ off → t.readReg off' = s.readReg off') ∧ t = { s with par := t.par }

/-- A write to STATUS clears DONE when its bit 1 is set and does nothing else. R27. -/
def Obligations.StatusWriteClearsDoneAndNothingElse : Prop :=
  ∀ (s : State) (v : Word),
    handle (.regWrite 32 0x04 v) s = .next { s with done := if v.getLsbD 1 then false else s.done }

/-- STATUS reads BUSY in bit 0, DONE in bit 1, ERR in bits 6..4 and 0 elsewhere. R26, R24. -/
def Obligations.StatusWordHoldsItsFieldsAndZeros : Prop :=
  ∀ (s : State) (k : Nat), s.statusWord.getLsbD k =
    if k = 0 then s.busy else if k = 1 then s.done
    else if 4 ≤ k ∧ k ≤ 6 then s.err.getLsbD (k - 4) else false

/-- IRQ_EN is writable at any time, reads back DONE_IE, and irq is DONE and DONE_IE. R28, R130. -/
def Obligations.InterruptEnableIsWritableAnyTimeAndGatesIrq : Prop :=
  ∀ (s : State) (v : Word), ∃ t, handle (.regWrite 32 0x08 v) s = .next t ∧ t = { s with doneIe := v.getLsbD 0 } ∧
    t.readReg 0x08 = v &&& 1#32 ∧ t.irq = (s.done && v.getLsbD 0) ∧
    ∃ u, handle (.regWrite 32 0x04 2) t = .next u ∧ u.irq = false

/-- Offsets 0x38 and 0x3C read 0 and ignore writes, OUT_LEN ignores writes, an access of another width or alignment is refused. R24, R31, R22. -/
def Obligations.ReservedOffsetsReadZeroAndUndefinedAccessesAreRefused : Prop :=
  ∀ (s : State) (v : Word),
    (∀ off ∈ [0x38, 0x3C], handle (.regRead 32 off) s = .next { s with regRead := 0 }) ∧
    (∀ off ∈ [0x34, 0x38, 0x3C], handle (.regWrite 32 off v) s = .next s) ∧
    (∀ width off : Nat, width ≠ 32 ∨ off % 4 ≠ 0 →
      handle (.regWrite width off v) s = .refused .registerAccess ∧
      handle (.regRead width off) s = .refused .registerAccess)

/-- Two canonical memories that read alike everywhere are equal. R40, R45. The canonical form and what an unlisted byte reads as are the model's choice (log 5). -/
def Obligations.EqualReadsMeanEqualMemory : Prop :=
  ∀ m m' : List Host.Cell, Memory.wf m → Memory.wf m' →
    (∀ a, Memory.read m a = Memory.read m' a) → m = m'

/-- A host store outside the buffers in use completes, also while BUSY = 1, and stores its bytes and nothing else. R43, R45, R53, R54, R87. The three lists are the model's own fields (log 11, 26); when a buffer is in use is its reading of R50 and R53 (log 8, 16). -/
def Obligations.HostStoreOutsideLiveBuffersWritesItsBytes : Prop :=
  ∀ (s : State) (a : Word) (bs : Bytes) (q : Region), Memory.wf s.mem → q = { base := a.toNat, len := bs.length } →
    a.toNat + bs.length ≤ 2 ^ 32 → s.plat.ordinary q = true →
    (NoOpInProgress s ∨ ∃ i u, OpInProgress s i u ∧
      ∀ r ∈ readBufs i s.eng.cfg ++ writeBufs i s.eng.cfg (endSpan u), r.overlaps q = false) →
    ∃ t, handle (.store a bs) s = .next t ∧ Memory.readBytes t.mem a.toNat bs.length = bs ∧
      (∀ b, (b < a.toNat ∨ a.toNat + bs.length ≤ b) → Memory.read t.mem b = Memory.read s.mem b) ∧
      (∀ x, x ∈ t.hostDirty ↔ x ∈ s.hostDirty ∨ (s.plat.dmaCoherent = false ∧ q.has x = true)) ∧
      (∀ x, x ∈ t.unobserved ↔ x ∈ s.unobserved ∧ q.has x = false) ∧
      (∀ x, x ∈ t.engDirty ↔ x ∈ s.engDirty ∧ q.has x = false) ∧
      t = { s with mem := t.mem, hostDirty := t.hostDirty, unobserved := t.unobserved, engDirty := t.engDirty }

/-- A host store to a buffer of the operation in progress is refused. R53, R146. When a buffer is in use follows the model's reading of R50 and R53 (log 8, 16). -/
def Obligations.HostStoreToLiveBufferIsRefused : Prop :=
  ∀ (s : State) (a : Word) (bs : Bytes) (i : Instr) (t : State) (r : Region),
    OpInProgress s i t → a.toNat + bs.length ≤ 2 ^ 32 →
    s.plat.ordinary { base := a.toNat, len := bs.length } = true →
    r ∈ readBufs i s.eng.cfg ++ writeBufs i s.eng.cfg (endSpan t) →
    r.overlaps { base := a.toNat, len := bs.length } = true →
    handle (.store a bs) s = .refused .liveBufferWrite

/-- A host read changes no memory and returns the stored byte wherever the spec defines the byte. R53, R45, R55, R56, R145. The model's choices: memRead is its own field (log 13), and so are the lists unobserved and engDirty (log 11, 26); which output buffer an operation has is log 8; that a read during an operation whose obligations do not hold is refused is log 16. -/
def Obligations.HostLoadReturnsMemoryWhereTheSpecDefinesIt : Prop :=
  ∀ (s : State) (a : Word) (n : Nat),
    (∀ t, handle (.load a n) s = .next t →
      t = { s with memRead := t.memRead, draws := t.draws } ∧ t.memRead.length = n ∧
      ∃ op, inFlight s = .ok op ∧ ∀ k, k < n → (∀ r ∈ liveWrites op, r.has (a.toNat + k) = false) →
        ((∃ r ∈ liveReads op, r.has (a.toNat + k) = true) ∨
          (a.toNat + k ∉ s.unobserved ∧ (s.plat.dmaCoherent = true ∨ a.toNat + k ∉ s.engDirty))) →
        t.memRead[k]? = some (Memory.read s.mem (a.toNat + k))) ∧
    (a.toNat + n ≤ 2 ^ 32 → s.plat.ordinary { base := a.toNat, len := n } = true →
      (∀ i u, OpInProgress s i u → ∃ t, handle (.load a n) s = .next t ∧
        ∀ k, k < n → (∃ r ∈ readBufs i s.eng.cfg, r.has (a.toNat + k) = true) →
          (∀ r ∈ writeBufs i s.eng.cfg (endSpan u), r.has (a.toNat + k) = false) →
          t.memRead[k]? = some (Memory.read s.mem (a.toNat + k))) ∧
      (NoOpInProgress s → ∃ t, handle (.load a n) s = .next t ∧
        ((∀ k, k < n → a.toNat + k ∉ s.unobserved ∧ (s.plat.dmaCoherent = true ∨ a.toNat + k ∉ s.engDirty)) →
          t.memRead = Memory.readBytes s.mem a.toNat n)))

/-- Cache maintenance, the STATUS read that returns DONE = 1, and acceptance: what each changes of who sees which stores. R54, R55, R57, R145. How the model tracks who sees which stores is its own (log 11); that a byte the engine stored is any value until the host has read DONE = 1 from STATUS, and that irq does not count, is its choice (log 26). -/
def Obligations.ObservationAndMaintenanceMakeEngineStoresVisible : Prop :=
  ∀ s : State,
    handle .maintain s = .next { s with hostDirty := [], engDirty := [] } ∧
    (s.done = true → handle (.regRead 32 0x04) s = .next { s with
      regRead := s.statusWord, unobserved := []
      engDirty := if s.plat.dmaCoherent then s.engDirty else s.unobserved ++ s.engDirty }) ∧
    (s.done = false → handle (.regRead 32 0x04) s = .next { s with regRead := s.statusWord }) ∧
    (∀ w : Word, s.eng.phase = .idle → ∃ t, handle (.regWrite 32 0x00 w) s = .next t ∧ t.eng.stale = s.hostDirty) ∧
    (∀ (a : Word) (n : Nat), s.done = true → NoOpInProgress s → a.toNat + n ≤ 2 ^ 32 →
      s.plat.ordinary { base := a.toNat, len := n } = true →
      ∃ t, handle (.regRead 32 0x04) s = .next t ∧
        (s.plat.dmaCoherent = true →
          ∃ u, handle (.load a n) t = .next u ∧ u.memRead = Memory.readBytes s.mem a.toNat n) ∧
        ∃ u v, handle .maintain t = .next u ∧ handle (.load a n) u = .next v ∧
          v.memRead = Memory.readBytes s.mem a.toNat n)

/-- An operation with a buffer out of range, not ordinary or holding an unseen host store, or an overlap R52 forbids, is refused. R47, R49, R50, R52, R54. That visibility is asked of each buffer is the model's reading (log 23); the list stale is its own field (log 11); that a decryption that ends in IntegrityError has its output buffer is log 8. -/
def Obligations.UnmetObligationIsRefused : Prop :=
  ∀ (s : State) (i : Instr), validate i s.eng.cfg = none →
    (∀ r, (r ∈ readBufs i s.eng.cfg ∨ ∃ l, knownSpan i s.eng.cfg = some l ∧ r ∈ writeBufs i s.eng.cfg l) →
      (2 ^ 32 < r.base + r.len ∨ s.plat.ordinary r = false ∨
        (s.plat.dmaCoherent = false ∧ ∃ a ∈ s.eng.stale, r.has a = true)) →
      ∃ why, exec i s = .refused why) ∧
    (∀ l, knownSpan i s.eng.cfg = some l →
      ((∃ q ∈ sideBufs i s.eng.cfg, q.overlaps (s.eng.cfg.dstBuf l) = true) ∨
        (s.eng.cfg.dstAddr ≠ s.eng.cfg.srcAddr ∧ s.eng.cfg.srcBuf.overlaps (s.eng.cfg.dstBuf l) = true) ∨
        (writesTag i = true ∧ ((∃ q ∈ readBufs i s.eng.cfg, q.overlaps s.eng.cfg.tagBuf = true) ∨
          (s.eng.cfg.dstBuf l).overlaps s.eng.cfg.tagBuf = true))) →
      ∃ why, exec i s = .refused why)

/-- An operation that ends in success met every host obligation for its real output length. R47, R49, R52, R54. That visibility is asked of output buffers too is the model's reading (log 23); the list stale is its own field (log 11). -/
def Obligations.SuccessImpliesEveryHostObligation : Prop :=
  ∀ (s t : State) (i : Instr), validate i s.eng.cfg = none → exec i s = .next t → t.eng.res = none →
    (∀ r ∈ readBufs i s.eng.cfg ++ writeBufs i s.eng.cfg t.eng.dp.out.length,
      r.base + r.len ≤ 2 ^ 32 ∧ s.plat.ordinary r = true) ∧
    (∀ r ∈ sideBufs i s.eng.cfg, r.overlaps (s.eng.cfg.dstBuf t.eng.dp.out.length) = false) ∧
    (s.eng.cfg.dstAddr = s.eng.cfg.srcAddr ∨
      s.eng.cfg.srcBuf.overlaps (s.eng.cfg.dstBuf t.eng.dp.out.length) = false) ∧
    (writesTag i = true → (s.eng.cfg.dstBuf t.eng.dp.out.length).overlaps s.eng.cfg.tagBuf = false ∧
      ∀ r ∈ readBufs i s.eng.cfg, r.overlaps s.eng.cfg.tagBuf = false) ∧
    (s.plat.dmaCoherent = false → ∀ a ∈ s.eng.stale,
      ∀ r ∈ readBufs i s.eng.cfg ++ writeBufs i s.eng.cfg t.eng.dp.out.length, r.has a = false)

/-- ECB.ENC completes with the encryption of each block of the padded payload. R97, R84, R91. That the host has not observed the stored bytes yet (RunEnds.unobserved) is the model's own field (log 26); that RUN does its work in one step is log 4. -/
def Obligations.EcbEncEncryptsEachPaddedBlock : Prop :=
  ∀ (ivp aadp tagp : Bool) (s : State),
    Ready (.ecbEnc ivp aadp tagp) (16 * (s.opIn.length / 16 + 1)) s →
    ∃ t, exec (.ecbEnc ivp aadp tagp) s = .next t ∧
      RunEnds s t ((blks (pad s.opIn)).flatMap fun b => bytesOf (Config.prim s.opKey (blockOf b))) none

/-- ECB.DEC completes with the unpadded decryption, or ends in InvalidPadding and writes nothing. R98, R99, R85, R92. The model's choice, not the spec's: with invalid padding the operation has an empty output buffer, so Ready asks the obligations for 0 bytes there (log 8). That the host has not observed the stored bytes yet (RunEnds.unobserved) is the model's own field (log 26); that RUN does its work in one step is log 4. -/
def Obligations.EcbDecDecryptsAndUnpadsOrFails : Prop :=
  ∀ (ivp aadp tagp : Bool) (s : State) (q : Bytes),
    q = ((blks s.opIn).flatMap fun b => bytesOf ((Config.prim s.opKey).symm (blockOf b))) →
    (padOk q = true → Ready (.ecbDec ivp aadp tagp) (q.length - padCount q) s →
      ∃ t, exec (.ecbDec ivp aadp tagp) s = .next t ∧ RunEnds s t (unpad q) none) ∧
    (padOk q = false → Ready (.ecbDec ivp aadp tagp) 0 s →
      ∃ t, exec (.ecbDec ivp aadp tagp) s = .next t ∧ RunFails s t .invalidPadding)

/-- CBC.ENC completes with C[i] = ENC(K, P[i] xor C[i-1]) over the padded payload, C[-1] = IV. R100, R84, R91. That the host has not observed the stored bytes yet (RunEnds.unobserved) is the model's own field (log 26); that RUN does its work in one step is log 4. -/
def Obligations.CbcEncChainsEachPaddedBlock : Prop :=
  ∀ (ivp aadp tagp : Bool) (s : State),
    Ready (.cbcEnc ivp aadp tagp) (16 * (s.opIn.length / 16 + 1)) s →
    ∃ t out, exec (.cbcEnc ivp aadp tagp) s = .next t ∧ RunEnds s t out none ∧
      out = joinBlocks (numBlocks (pad s.opIn)) fun i =>
        bytesOf (Config.prim s.opKey (blockOf (blk i (pad s.opIn)) ^^^ prevBlock s.opIv out i))

/-- CBC.DEC completes with the unpadded P[i] = DEC(K, C[i]) xor C[i-1], or ends in InvalidPadding and writes nothing. R101, R99, R85, R92. The model's choice, not the spec's: with invalid padding the operation has an empty output buffer, so Ready asks the obligations for 0 bytes there (log 8). That the host has not observed the stored bytes yet (RunEnds.unobserved) is the model's own field (log 26); that RUN does its work in one step is log 4. -/
def Obligations.CbcDecUnchainsAndUnpadsOrFails : Prop :=
  ∀ (ivp aadp tagp : Bool) (s : State) (q : Bytes),
    q = (joinBlocks (numBlocks s.opIn) fun i =>
      bytesOf ((Config.prim s.opKey).symm (blockOf (blk i s.opIn)) ^^^ prevBlock s.opIv s.opIn i)) →
    (padOk q = true → Ready (.cbcDec ivp aadp tagp) (q.length - padCount q) s →
      ∃ t, exec (.cbcDec ivp aadp tagp) s = .next t ∧ RunEnds s t (unpad q) none) ∧
    (padOk q = false → Ready (.cbcDec ivp aadp tagp) 0 s →
      ∃ t, exec (.cbcDec ivp aadp tagp) s = .next t ∧ RunFails s t .invalidPadding)

/-- CFB.ENC completes with C[i] = P[i] xor ENC(K, C[i-1]), C[-1] = IV, output as long as the payload. R102, R91. That the host has not observed the stored bytes yet (RunEnds.unobserved) is the model's own field (log 26); that RUN does its work in one step is log 4. -/
def Obligations.CfbEncFeedsCiphertextBack : Prop :=
  ∀ (ivp aadp tagp : Bool) (s : State),
    Ready (.cfbEnc ivp aadp tagp) s.opIn.length s →
    ∃ t out, exec (.cfbEnc ivp aadp tagp) s = .next t ∧ RunEnds s t out none ∧
      out = joinBlocks (numBlocks s.opIn) fun i =>
        xorp (blk i s.opIn) (Config.prim s.opKey (prevBlock s.opIv out i))

/-- CFB.DEC completes with P[i] = C[i] xor ENC(K, C[i-1]), C[-1] = IV. R103, R91. That the host has not observed the stored bytes yet (RunEnds.unobserved) is the model's own field (log 26); that RUN does its work in one step is log 4. -/
def Obligations.CfbDecFeedsCiphertextBack : Prop :=
  ∀ (ivp aadp tagp : Bool) (s : State),
    Ready (.cfbDec ivp aadp tagp) s.opIn.length s →
    ∃ t, exec (.cfbDec ivp aadp tagp) s = .next t ∧
      RunEnds s t (joinBlocks (numBlocks s.opIn) fun i =>
        xorp (blk i s.opIn) (Config.prim s.opKey (prevBlock s.opIv s.opIn i))) none

/-- OFB.ENC and OFB.DEC complete with block i xored with ENC iterated i+1 times on the IV. R104, R105, R91. That the host has not observed the stored bytes yet (RunEnds.unobserved) is the model's own field (log 26); that RUN does its work in one step is log 4. -/
def Obligations.OfbXorsIteratedKeystream : Prop :=
  ∀ (ivp aadp tagp : Bool) (s : State), ∀ i ∈ [Instr.ofbEnc ivp aadp tagp, Instr.ofbDec ivp aadp tagp],
    Ready i s.opIn.length s →
    ∃ t, exec i s = .next t ∧
      RunEnds s t (joinBlocks (numBlocks s.opIn) fun k =>
        xorp (blk k s.opIn) ((Config.prim s.opKey)^[k + 1] (blockOf s.opIv))) none

/-- CTR.ENC and CTR.DEC complete with block i xored with ENC(K, IV + i mod 2^128). R106, R107, R72, R91. That the host has not observed the stored bytes yet (RunEnds.unobserved) is the model's own field (log 26); that RUN does its work in one step is log 4. -/
def Obligations.CtrXorsCounterKeystream : Prop :=
  ∀ (ivp aadp tagp : Bool) (s : State), ∀ i ∈ [Instr.ctrEnc ivp aadp tagp, Instr.ctrDec ivp aadp tagp],
    Ready i s.opIn.length s →
    ∃ t, exec i s = .next t ∧
      RunEnds s t (joinBlocks (numBlocks s.opIn) fun k =>
        xorp (blk k s.opIn) (Config.prim s.opKey (blockOf s.opIv + BitVec.ofNat 128 k))) none

/-- CTS.ENC completes with the CBC blocks of the zero-extended payload, the last two swapped and the stolen one cut. R108, R91. That the host has not observed the stored bytes yet (RunEnds.unobserved) is the model's own field (log 26); that RUN does its work in one step is log 4. -/
def Obligations.CtsEncSwapsTheLastTwoCbcBlocks : Prop :=
  ∀ (ivp aadp tagp : Bool) (s : State),
    Ready (.ctsEnc ivp aadp tagp) s.opIn.length s →
    ∃ t b, exec (.ctsEnc ivp aadp tagp) s = .next t ∧
      b = (joinBlocks (numBlocks s.opIn) fun i =>
        bytesOf (Config.prim s.opKey (blockOf (blk i (padz s.opIn)) ^^^ prevBlock s.opIv b i))) ∧
      RunEnds s t (if numBlocks s.opIn = 1 then b else
        msb (16 * (numBlocks s.opIn - 2)) b ++ blk (numBlocks s.opIn - 1) b ++
          msb (lastLen s.opIn) (blk (numBlocks s.opIn - 2) b)) none

/-- CTS.DEC completes with CBC decryption, the last two blocks recovered from the swapped pair. R109, R91. That the host has not observed the stored bytes yet (RunEnds.unobserved) is the model's own field (log 26); that RUN does its work in one step is log 4. -/
def Obligations.CtsDecRecoversTheStolenBytes : Prop :=
  ∀ (ivp aadp tagp : Bool) (s : State),
    Ready (.ctsDec ivp aadp tagp) s.opIn.length s →
    ∃ t, exec (.ctsDec ivp aadp tagp) s = .next t ∧
      (numBlocks s.opIn = 1 →
        RunEnds s t (bytesOf ((Config.prim s.opKey).symm (blockOf s.opIn) ^^^ blockOf s.opIv)) none) ∧
      (numBlocks s.opIn ≠ 1 → ∀ (m d : Nat) (z xs : Bytes), m = numBlocks s.opIn → d = lastLen s.opIn →
        z = bytesOf ((Config.prim s.opKey).symm (blockOf (blk (m - 2) s.opIn))) → xs = blk (m - 1) s.opIn →
        RunEnds s t ((joinBlocks (m - 2) fun i =>
            bytesOf ((Config.prim s.opKey).symm (blockOf (blk i s.opIn)) ^^^ prevBlock s.opIv s.opIn i)) ++
          bytesOf ((Config.prim s.opKey).symm (blockOf (xs ++ slice d 16 z)) ^^^ prevBlock s.opIv s.opIn (m - 2)) ++
          xorBytes (msb d z) xs) none)

/-- CCM.ENC completes with the counter-mode ciphertext and the encrypted CBC-MAC tag. R117, R74, R80, R83, R91. That the host has not observed the stored bytes yet (RunEnds.unobserved) is the model's own field (log 26); that RUN does its work in one step is log 4. -/
def Obligations.CcmEncWritesCiphertextAndTag : Prop :=
  ∀ (ivp aadp tagp : Bool) (s : State),
    Ready (.ccmEnc ivp aadp tagp) s.opIn.length s →
    ∃ t, exec (.ccmEnc ivp aadp tagp) s = .next t ∧
      RunEnds s t (ccmStream Config.prim s.opKey s.opIv s.opIn)
        (some (ccmTag Config.prim s.opKey s.opIv (s.opAad aadp) s.opIn))

/-- CCM.DEC writes the plaintext when the tag matches, else ends in IntegrityError and writes nothing. R118, R115, R116, R92. That the host has not observed the stored bytes yet (RunEnds.unobserved) is the model's own field (log 26); that RUN does its work in one step is log 4. -/
def Obligations.CcmDecVerifiesThenWrites : Prop :=
  ∀ (ivp aadp tagp : Bool) (s : State) (q : Bytes), Ready (.ccmDec ivp aadp tagp) s.opIn.length s →
    q = ccmStream Config.prim s.opKey s.opIv s.opIn →
    ∃ t, exec (.ccmDec ivp aadp tagp) s = .next t ∧
      (ccmTag Config.prim s.opKey s.opIv (s.opAad aadp) q = s.opTag → RunEnds s t q none) ∧
      (ccmTag Config.prim s.opKey s.opIv (s.opAad aadp) q ≠ s.opTag → RunFails s t .integrityError)

/-- GCM.ENC completes with the GCTR ciphertext and the GHASH tag. R119, R76, R78, R79, R91. That the host has not observed the stored bytes yet (RunEnds.unobserved) is the model's own field (log 26); that RUN does its work in one step is log 4. -/
def Obligations.GcmEncWritesCiphertextAndTag : Prop :=
  ∀ (ivp aadp tagp : Bool) (s : State),
    Ready (.gcmEnc ivp aadp tagp) s.opIn.length s →
    ∃ t c, exec (.gcmEnc ivp aadp tagp) s = .next t ∧ c = gcmStream Config.prim s.opKey s.opIv s.opIn ∧
      RunEnds s t c (some (gcmTag Config.prim s.opKey s.opIv (s.opAad aadp) c))

/-- GCM.DEC writes the plaintext when the tag matches, else ends in IntegrityError and writes nothing. R120, R115, R116, R92. That the host has not observed the stored bytes yet (RunEnds.unobserved) is the model's own field (log 26); that RUN does its work in one step is log 4. -/
def Obligations.GcmDecVerifiesThenWrites : Prop :=
  ∀ (ivp aadp tagp : Bool) (s : State), Ready (.gcmDec ivp aadp tagp) s.opIn.length s →
    ∃ t, exec (.gcmDec ivp aadp tagp) s = .next t ∧
      (gcmTag Config.prim s.opKey s.opIv (s.opAad aadp) s.opIn = s.opTag →
        RunEnds s t (gcmStream Config.prim s.opKey s.opIv s.opIn) none) ∧
      (gcmTag Config.prim s.opKey s.opIv (s.opAad aadp) s.opIn ≠ s.opTag → RunFails s t .integrityError)

/-- Validation is the ten tests of R89 in order, and a command that fails one completes in two engine steps with its code. R89, R93, R123, R126, R127. -/
def Obligations.ValidationAppliesTheTenTestsInOrder : Prop :=
  (∀ (w : Word) (c : Params) (m k v n : Nat), m = w.toNat % 16 → k = c.keyLen.toNat → v = c.ivLen.toNat →
      n = c.srcLen.toNat →
      checkCommand w c =
        if w.toNat / 256 ≠ 0 ∨ 8 ≤ m then some .illegalCommand
        else if m ≠ 0 ∧ w.getLsbD 5 = false then some .missingRequiredParameter
        else if (m = 6 ∨ m = 7) ∧ w.getLsbD 4 = true ∧ w.getLsbD 7 = false then some .missingRequiredParameter
        else if k ≠ 16 ∧ k ≠ 24 ∧ k ≠ 32 then some .invalidKeyLength
        else if (1 ≤ m ∧ m ≤ 5) ∧ v ≠ 16 then some .invalidIVLength
        else if m = 7 ∧ v = 0 then some .invalidIVLength
        else if m = 6 ∧ (v < 7 ∨ 13 < v) then some .invalidIVLength
        else if m = 6 ∧ 256 ^ (15 - v) ≤ n then some .invalidIVLength
        else if m = 5 ∧ n < 16 then some .shortInputForCTS
        else if (m = 0 ∨ m = 1) ∧ w.getLsbD 4 = true ∧ (n = 0 ∨ n % 16 ≠ 0) then some .invalidPadding
        else none) ∧
    ((∀ k ∈ [16, 24, 32], checkCommand 0x21 (lengths k 16 0) = none) ∧
      (∀ k ∈ [0, 15, 17, 23, 25, 31, 33], checkCommand 0x21 (lengths k 16 0) = some .invalidKeyLength) ∧
      (∀ v ∈ [0, 15, 17], checkCommand 0x21 (lengths 16 v 0) = some .invalidIVLength) ∧
      (∀ v ∈ [7, 13], checkCommand 0x26 (lengths 16 v 0) = none) ∧
      (∀ v ∈ [0, 6, 14, 16], checkCommand 0x26 (lengths 16 v 0) = some .invalidIVLength) ∧
      (∀ v ∈ [1, 12, 16], checkCommand 0x27 (lengths 16 v 0) = none) ∧
      checkCommand 0x27 (lengths 16 0 0) = some .invalidIVLength ∧
      (∀ p ∈ [(13, 2 ^ 16 - 1), (12, 2 ^ 24 - 1), (11, 2 ^ 32 - 1)], checkCommand 0x26 (lengths 16 p.1 p.2) = none) ∧
      (∀ p ∈ [(13, 2 ^ 16), (12, 2 ^ 24)], checkCommand 0x26 (lengths 16 p.1 p.2) = some .invalidIVLength) ∧
      checkCommand 0x25 (lengths 16 16 15) = some .shortInputForCTS ∧ checkCommand 0x25 (lengths 16 16 16) = none ∧
      (∀ n ∈ [0, 15, 17], checkCommand 0x10 (lengths 16 0 n) = some .invalidPadding) ∧
      checkCommand 0x10 (lengths 16 0 16) = none) ∧
    (∀ (s : State) (e : Err), s.inbox = [] → s.eng.phase = .check → checkCommand s.eng.cmd s.eng.cfg = some e →
      ∃ t : State, Sys2Proof.core.run 2 s = .next t ∧ t.busy = false ∧ t.done = true ∧ t.err = errCode e ∧
        t.outLen = 0 ∧ t.eng.phase = .idle ∧ t.cmd = s.cmd ∧ t.par = s.par ∧ t.mem = s.mem ∧ t.irq = s.doneIe)

/-- exec of a command that does not pass validation ends in that error and invokes no primitive. R89, R6, R69. That exec repeats the validation is the model's choice (log 1). -/
def Obligations.ExecOnUnvalidatedOperandsEndsInTheValidationError : Prop :=
  ∀ (s : State) (i : Instr) (e : Err), validate i s.eng.cfg = some e →
    exec i s = .next { s with eng := { s.eng with phase := .finish, res := some e } }

/-- A reserved encoding written to CMD in IDLE is accepted and ends with STATUS 0x72, memory untouched. R66, R25, R123. -/
def Obligations.IllegalCommandEndsWithCodeSeven : Prop :=
  ∀ (s : State) (w : Word), s.inbox = [.regWrite 32 0x00 w] → s.eng.phase = .idle →
    (w.toNat / 256 ≠ 0 ∨ 8 ≤ w.toNat % 16) →
    ∃ t : State, Sys2Proof.core.run 3 s = .next t ∧ t.statusWord = 0x72#32 ∧ t.cmd = w ∧ t.outLen = 0 ∧
      t.eng.phase = .idle ∧ t.mem = s.mem

/-- Only AEAD decryption ends in IntegrityError and only ECB and CBC decryption in InvalidPadding. R125, R123. -/
def Obligations.ErrorsBelongToTheirCommands : Prop :=
  ∀ (s t : State) (i : Instr), exec i s = .next t →
    (t.eng.res = some .integrityError → (i.mode = .ccm ∨ i.mode = .gcm) ∧ i.dir = .dec) ∧
    (t.eng.res = some .invalidPadding → (i.mode = .ecb ∨ i.mode = .cbc) ∧ i.dir = .dec) ∧
    (t.eng.res = some .shortInputForCTS → i.mode = .cts) ∧ t.eng.res ≠ some .illegalCommand

/-- An operation that ends with an error writes no byte of buffer memory. R92, R91, R93. That memory changes in the last RUN step only is the model's choice, marked unsafe (log 4); R91 leaves the step of a write open. -/
def Obligations.OnlySuccessfulOperationsWriteMemory : Prop :=
  ∀ s t : State, engineStep s = .next t →
    (t.mem ≠ s.mem → s.eng.phase = .run ∧ s.eng.left = 0 ∧ t.eng.phase = .finish ∧ t.eng.res = none) ∧
    (s.eng.phase = .finish → t.eng.res = s.eng.res ∧ t.eng.phase = .idle ∧ t.mem = s.mem)

/-- In RUN, eng.K receives the key and each command leaves the datapath registers that its rule does not name as they were. R36, R90, R91. Which temporaries are registers is the model's reading of R36 (log 14); that exec does all work of RUN in one step is its choice (log 4). -/
def Obligations.CommandsKeepDatapathRegistersTheyDoNotUse : Prop :=
  ∀ (s t : State) (i : Instr), validate i s.eng.cfg = none → exec i s = .next t →
    t.eng.dp.key = s.opKey ∧ (i.mode = .ecb → t.eng.dp.v = s.eng.dp.v) ∧
    (i.mode ≠ .ccm → i.mode ≠ .gcm →
      t.eng.dp.y = s.eng.dp.y ∧ t.eng.dp.j0 = s.eng.dp.j0 ∧ t.eng.dp.tmpT = s.eng.dp.tmpT) ∧
    (i.mode = .gcm → i.dir = .enc → t.eng.dp.tmpT = s.eng.dp.tmpT) ∧
    (i.mode ≠ .gcm → t.eng.dp.h = s.eng.dp.h) ∧ (i.mode = .gcm → t.eng.dp.i = s.eng.dp.i) ∧
    (i.mode ≠ .cts → t.eng.dp.tmpX = s.eng.dp.tmpX) ∧
    (i.mode ≠ .cfb → i.mode ≠ .ctr → t.eng.dp.tmpS = s.eng.dp.tmpS) ∧
    (i.dir = .enc ∨ ¬(i.mode = .ecb ∨ i.mode = .cbc ∨ i.mode = .cts) → t.eng.dp.tmpZ = s.eng.dp.tmpZ)

/-- An engine step changes no byte outside the output and tag buffers of its command. R50, R51. -/
def Obligations.EngineStoresStayInTheOutputBuffers : Prop :=
  ∀ s t : State, Memory.wf s.mem → engineStep s = .next t →
    ∀ a, Memory.read t.mem a ≠ Memory.read s.mem a →
      ∃ i, decode s.eng.cmd = .ok i ∧ ∃ r ∈ writeBufs i s.eng.cfg t.eng.dp.out.length, r.has a = true

/-- What an operation writes depends only on its command, its parameters and the bytes of its input buffers. R51, R37. -/
def Obligations.ResultDependsOnlyOnCommandParametersAndSnapshot : Prop :=
  ∀ (i : Instr) (s s' t t' : State), Memory.wf s.mem → Memory.wf s'.mem → s.eng.cfg = s'.eng.cfg →
    validate i s.eng.cfg = none → (∀ r ∈ readBufs i s.eng.cfg, r.fetch s.mem = r.fetch s'.mem) →
    exec i s = .next t → exec i s' = .next t' →
    t.eng.res = t'.eng.res ∧
    (t.eng.res = none → t.eng.dp.out = t'.eng.dp.out ∧
      ∀ r ∈ writeBufs i s.eng.cfg t.eng.dp.out.length, r.fetch t.mem = r.fetch t'.mem)

/-- An accepted operation reaches IDLE: one CHECK step, the RUN steps, one FINISH step. R95, R87, R91. The count of RUN steps is an opaque function (log 4); the 32 zero bytes of the key register are log 15, the temporaries log 14. -/
def Obligations.OperationsReachIdleAfterFinitelyManySteps : Prop :=
  ∀ (s u : State) (i : Instr), s.inbox = [] → s.eng.phase = .check → decode s.eng.cmd = .ok i →
    validate i s.eng.cfg = none → exec i s = .next u →
    ∃ t : State, Sys2Proof.core.run (runLength i s.eng.cmd s.eng.cfg u.eng.res + 3) s = .next t ∧
      t.eng.phase = .idle ∧ t.busy = false ∧ t.done = true ∧ t.mem = u.mem ∧ t.err = resCode u.eng.res ∧
      t.outLen = (if u.eng.res = none then BitVec.ofNat 32 u.eng.dp.out.length else 0) ∧
      t.eng.dp = Dp.zero ∧ t.par = s.par

/-- ECB, CBC, CFB, OFB, CTR and CTS: decryption of an encryption returns the payload. R97, R98, R100, R101, R102, R103, R104, R105, R106, R107, R108, R109. The primitive is R6, the unpadding R99. The law is R110, which the spec marks as derived from these rules. -/
def Obligations.ConfidentialityModesRoundTrip : Prop :=
  ∀ (P : Prim) (o : Operands) (d d' : Dp), d.key = d'.key →
    ∀ rules ∈ [(ecbEncRule P, ecbDecRule P, 0), (cbcEncRule P, cbcDecRule P, 0), (cfbEncRule P, cfbDecRule P, 0),
      (ofbEncRule P, ofbDecRule P, 0), (ctrEncRule P, ctrDecRule P, 0), (ctsEncRule P, ctsDecRule P, 16)],
    rules.2.2 ≤ o.inp.length →
    ∃ out, (rules.1 o d).1 = .ok out none ∧ (rules.2.1 { o with inp := out } d').1 = .ok o.inp none

/-- CCM and GCM: decryption given the output and the tag of an encryption returns the payload. R117, R118, R119, R120. The law is R121, which the spec marks as derived from these rules. -/
def Obligations.AuthenticatedModesRoundTrip : Prop :=
  ∀ (P : Prim) (o : Operands) (d d' : Dp), d.key = d'.key →
    ∀ rules ∈ [(ccmEncRule P, ccmDecRule P), (gcmEncRule P, gcmDecRule P)],
    ∃ out tag, (rules.1 o d).1 = .ok out (some tag) ∧ tag.length = 16 ∧
      (rules.2 { o with inp := out, tin := tag } d').1 = .ok o.inp none

/-- Output lengths: whole blocks for ECB and CBC encryption, n minus the pad for their decryption, n for the others. R97, R98, R100, R101, R102, R104, R106, R108, R109, R117, R119, R84. The lengths are R111 and, for CCM and GCM, R117 to R120; the spec marks R111 as derived from these rules. -/
def Obligations.OutputLengthsPerMode : Prop :=
  ∀ (P : Prim) (o : Operands) (d d' : Dp) (i : Instr) (out : Bytes) (tout : Option Bytes),
    ruleOf P i o d = (.ok out tout, d') →
    (i.mode = .ecb ∨ i.mode = .cbc → i.dir = .enc → out.length = 16 * (o.inp.length / 16 + 1)) ∧
    (i.mode = .ecb ∨ i.mode = .cbc → i.dir = .dec → 0 < o.inp.length → o.inp.length % 16 = 0 →
      ∃ p, 1 ≤ p ∧ p ≤ 16 ∧ out.length + p = o.inp.length) ∧
    (i.mode = .cfb ∨ i.mode = .ofb ∨ i.mode = .ctr ∨ i.mode = .ccm ∨ i.mode = .gcm →
      out.length = o.inp.length) ∧
    (i.mode = .cts → 16 ≤ o.inp.length → out.length = o.inp.length)

/-- OFB, CTR and GCM under one key and IV: the xor of two outputs is the xor of the payloads. R104, R106, R119. The law is R122, which the spec marks as derived from these rules. -/
def Obligations.KeystreamReuseXorsPayloads : Prop :=
  ∀ (P : Prim) (o o' : Operands) (d d' e e' : Dp) (out out' : Bytes) (tout tout' : Option Bytes),
    d.key = d'.key → o.iv = o'.iv → o.inp.length = o'.inp.length →
    ∀ rule ∈ [ofbEncRule P, ctrEncRule P, gcmEncRule P],
    rule o d = (.ok out tout, e) → rule o' d' = (.ok out' tout', e') → xorBytes out out' = xorBytes o.inp o'.inp

/-- The exact number of ENC, DEC and GF multiplications each command performs. R149. The trace is the model's own field (log 21). -/
def Obligations.PrimitiveInvocationCounts : Prop :=
  ∀ (P : Prim) (o : Operands) (d : Dp) (m mp a ab g : Nat) (f1 f2 f3 : Bool), d.work = [] →
    m = (o.inp.length + 15) / 16 → mp = o.inp.length / 16 + 1 → a = o.aad.length →
    ab = (if a = 0 then 0 else (a + (if a < 65280 then 2 else 6) + 15) / 16) →
    g = (if o.iv.length = 12 then 0 else (o.iv.length + 15) / 16 + 1) →
    let did (i : Instr) (enc dec gf : Nat) : Prop :=
      (ruleOf P i o d).2.work.count .enc = enc ∧ (ruleOf P i o d).2.work.count .dec = dec ∧
        (ruleOf P i o d).2.work.count .gfMul = gf
    let ok (i : Instr) : Prop := (ruleOf P i o d).1.isOk = true
    let whole : Prop := 0 < o.inp.length ∧ o.inp.length % 16 = 0
    let ccm : Prop := 7 ≤ o.iv.length ∧ o.iv.length ≤ 13 ∧ a < 2 ^ 32
    did (.ecbEnc f1 f2 f3) mp 0 0 ∧ did (.cbcEnc f1 f2 f3) mp 0 0 ∧
    (whole → ok (.ecbDec f1 f2 f3) → did (.ecbDec f1 f2 f3) 0 m 0) ∧
    (whole → ¬ok (.ecbDec f1 f2 f3) → did (.ecbDec f1 f2 f3) 0 1 0) ∧
    (whole → ok (.cbcDec f1 f2 f3) → did (.cbcDec f1 f2 f3) 0 m 0) ∧
    (whole → ¬ok (.cbcDec f1 f2 f3) → did (.cbcDec f1 f2 f3) 0 1 0) ∧
    did (.cfbEnc f1 f2 f3) m 0 0 ∧ did (.cfbDec f1 f2 f3) m 0 0 ∧ did (.ofbEnc f1 f2 f3) m 0 0 ∧
    did (.ofbDec f1 f2 f3) m 0 0 ∧ did (.ctrEnc f1 f2 f3) m 0 0 ∧ did (.ctrDec f1 f2 f3) m 0 0 ∧
    (16 ≤ o.inp.length → did (.ctsEnc f1 f2 f3) m 0 0 ∧ did (.ctsDec f1 f2 f3) 0 m 0) ∧
    (ccm → did (.ccmEnc f1 f2 f3) (2 * m + ab + 2) 0 0) ∧
    (ccm → ok (.ccmDec f1 f2 f3) → did (.ccmDec f1 f2 f3) (3 * m + ab + 2) 0 0) ∧
    (ccm → ¬ok (.ccmDec f1 f2 f3) → did (.ccmDec f1 f2 f3) (2 * m + ab + 2) 0 0) ∧
    did (.gcmEnc f1 f2 f3) (m + 2) 0 (g + (a + 15) / 16 + m + 1) ∧
    (ok (.gcmDec f1 f2 f3) → did (.gcmDec f1 f2 f3) (m + 2) 0 (g + (a + 15) / 16 + m + 1)) ∧
    (¬ok (.gcmDec f1 f2 f3) → did (.gcmDec f1 f2 f3) 2 0 (g + (a + 15) / 16 + m + 1))

/-- The sequence of primitive invocations depends on the command, the lengths and the outcome alone. R96, R86, R116. The trace is the model's own field (log 21). -/
def Obligations.WorkSequenceIndependentOfData : Prop :=
  ∀ (P P' : Prim) (i : Instr) (o o' : Operands) (d d' : Dp), d.work = [] → d'.work = [] →
    o.key.length = o'.key.length → o.iv.length = o'.iv.length → o.aad.length = o'.aad.length →
    o.inp.length = o'.inp.length → o.tin.length = o'.tin.length →
    ((ruleOf P i o d).1.isOk = (ruleOf P' i o' d').1.isOk →
      (ruleOf P i o d).2.work = (ruleOf P' i o' d').2.work) ∧
    ((ruleOf P i o d).1.isOk = false → (ruleOf P' i o' d').1.isOk = true →
      (ruleOf P i o d).2.work <+: (ruleOf P' i o' d').2.work)

/-- inc128 adds 1 to the whole block, inc32 to its last four bytes, big-endian, with wrap-around. R72, R73, R11. The spec marks R72 as its decision D14 and R73 as general knowledge (log 22). -/
def Obligations.CounterIncrementsAreBigEndian : Prop :=
  ∀ x : Block, bytesOf (inc128 x) = be 16 ((beInt (bytesOf x) + 1) % 2 ^ 128) ∧
    bytesOf (inc32 x) = msb 12 (bytesOf x) ++ be 4 ((beInt (lsb 4 (bytesOf x)) + 1) % 2 ^ 32)

/-- The bytes of the CCM counter blocks, of B0, of the AAD length and of FORMAT. R74, R81, R82, R83, R11, R71. The spec marks R74 and R81 to R83 as general knowledge (log 22). -/
def Obligations.CcmBlocksHaveTheirBytes : Prop :=
  (∀ q x k : Nat, (be q x).length = q ∧
      (k < q → (be q x)[k]? = some (BitVec.ofNat 8 (x / 256 ^ (q - 1 - k))))) ∧
    (∀ x : Nat, (0 < x → x < 65280 → alen x = [BitVec.ofNat 8 (x / 256), BitVec.ofNat 8 x]) ∧
      (65280 ≤ x → x < 2 ^ 32 → alen x = [0xFF, 0xFE, BitVec.ofNat 8 (x / 2 ^ 24), BitVec.ofNat 8 (x / 2 ^ 16),
        BitVec.ofNat 8 (x / 2 ^ 8), BitVec.ofNat 8 x])) ∧
    (alen 0 = [] ∧ alen 65279 = [0xFE, 0xFF] ∧ alen 65280 = [0xFF, 0xFE, 0x00, 0x00, 0xFF, 0x00] ∧
      alen (2 ^ 32 - 1) = [0xFF, 0xFE, 0xFF, 0xFF, 0xFF, 0xFF]) ∧
    (∀ b : Bytes, ∃ z, padz b = b ++ List.replicate z 0x00 ∧ z < 16 ∧ (b.length + z) % 16 = 0) ∧
    (∀ n a p : Bytes, 7 ≤ n.length → n.length ≤ 13 → a.length < 2 ^ 32 → p.length < 256 ^ (15 - n.length) →
      (∀ j, j < 256 ^ (15 - n.length) →
        bytesOf (ccmCtr n j) = BitVec.ofNat 8 (14 - n.length) :: (n ++ be (15 - n.length) j)) ∧
      ccmB0 n a p.length = BitVec.ofNat 8 ((if a = [] then 0x38 else 0x78) + (14 - n.length)) ::
        (n ++ be (15 - n.length) p.length) ∧
      ccmFormat n a p =
        ccmB0 n a p.length ++ (if a = [] then [] else padz (alen a.length ++ a)) ++ padz p ∧
      (ccmFormat n a p).length % 16 = 0 ∧ 0 < (ccmFormat n a p).length)

/-- Multiplication in GF(2^128) is commutative and associative, with unit and zero. R75. -/
def Obligations.FieldMultiplicationIsCommutativeAndAssociative : Prop :=
  (∀ x y : Block, gfMul x y = gfMul y x) ∧ (∀ x y z : Block, gfMul (gfMul x y) z = gfMul x (gfMul y z)) ∧
    (∀ x : Block, gfMul x 0 = 0) ∧ (∀ x : Block, gfMul x 0x80000000000000000000000000000000#128 = x)

/-- PAD gives whole blocks with valid padding, and UNPAD of it returns the string. R84, R85. -/
def Obligations.PaddingIsRemovedExactly : Prop :=
  (∀ p : Bytes, (pad p).length = 16 * (p.length / 16 + 1) ∧ padOk (pad p) = true ∧ unpad (pad p) = p) ∧
    (∀ q : Bytes, q.length % 16 = 0 → padOk q = true → pad (unpad q) = q)

/-- The tag comparator answers true exactly on equal strings. R86. -/
def Obligations.TagComparisonDecidesEquality : Prop :=
  ∀ t u : Bytes, t.length = u.length → (cteq t u = true ↔ t = u)
end

