-- ==== Sys2Proof/Laws/Bytes.lean ====
section
/-! SUPPORT. Lemmas about byte strings, integers and blocks (Machine/Bytes.lean). -/

namespace Sys2Proof.Laws

open Sys2Proof.Machine

@[simp] theorem length_rep (v : Byte) (n : Nat) : (rep v n).length = n := List.length_replicate

@[simp] theorem length_zeros (n : Nat) : (zeros n).length = n := length_rep 0 n

@[simp] theorem length_be (n x : Nat) : (be n x).length = n := by
  induction n generalizing x with
  | zero => rfl
  | succ n ih => simp [be, ih]

@[simp] theorem length_bytesOf (x : Block) : (bytesOf x).length = 16 := length_be 16 _

theorem beInt_append (a : Bytes) (x : Byte) : beInt (a ++ [x]) = beInt a * 256 + x.toNat := by
  simp [beInt, List.foldl_append]

theorem beInt_be (n x : Nat) : beInt (be n x) = x % 256 ^ n := by
  induction n generalizing x with
  | zero => simp [be, beInt, Nat.mod_one]
  | succ n ih =>
    have h : x % (256 * 256 ^ n) = x % 256 + 256 * (x / 256 % 256 ^ n) := Nat.mod_mul
    rw [be, beInt_append, ih, BitVec.toNat_ofNat, pow_succ 256 n, Nat.mul_comm (256 ^ n) 256, h]
    norm_num
    omega

theorem beInt_lt (b : Bytes) : beInt b < 256 ^ b.length := by
  induction b using List.reverseRecOn with
  | nil => simp [beInt]
  | append_singleton a x ih =>
    rw [beInt_append, List.length_append, List.length_singleton, pow_succ]
    have hx := x.isLt
    have : beInt a + 1 ≤ 256 ^ a.length := ih
    nlinarith

theorem be_beInt (b : Bytes) : be b.length (beInt b) = b := by
  induction b using List.reverseRecOn with
  | nil => rfl
  | append_singleton a x ih =>
    rw [beInt_append, List.length_append, List.length_singleton, be]
    have hx : x.toNat < 256 := x.isLt
    have h1 : (beInt a * 256 + x.toNat) / 256 = beInt a := by omega
    have h2 : BitVec.ofNat 8 (beInt a * 256 + x.toNat) = x := by
      apply BitVec.eq_of_toNat_eq
      rw [BitVec.toNat_ofNat]
      omega
    rw [h1, h2, ih]

/-- A block is the block of its bytes. -/
@[simp] theorem blockOf_bytesOf (x : Block) : blockOf (bytesOf x) = x := by
  apply BitVec.eq_of_toNat_eq
  have hx := x.isLt
  rw [blockOf, bytesOf, beInt_be, BitVec.toNat_ofNat]
  norm_num
  omega

/-- A string of 16 bytes is the bytes of its block. -/
theorem bytesOf_blockOf {b : Bytes} (h : b.length = 16) : bytesOf (blockOf b) = b := by
  have hlt := beInt_lt b
  rw [h] at hlt
  have h2 : beInt b % 2 ^ 128 = beInt b := Nat.mod_eq_of_lt (by norm_num at hlt ⊢; exact hlt)
  rw [bytesOf, blockOf, BitVec.toNat_ofNat, h2]
  conv_lhs => rw [← h]
  exact be_beInt b

@[simp] theorem length_xorBytes (a b : Bytes) : (xorBytes a b).length = min a.length b.length := List.length_zipWith

theorem length_msb (d : Nat) (b : Bytes) : (msb d b).length = min d b.length := List.length_take

/-- `|xorp(A, S)| = |A|` for a segment of at most a block. -/
theorem length_xorp {a : Bytes} (h : a.length ≤ 16) (s : Block) : (xorp a s).length = a.length := by
  rw [xorp, length_xorBytes, length_msb, length_bytesOf]
  omega

/-- Exclusive or with the same string twice gives the string back. -/
theorem xorBytes_xorBytes {a k : Bytes} (h : a.length ≤ k.length) : xorBytes (xorBytes a k) k = a := by
  induction a generalizing k with
  | nil => rfl
  | cons x xs ih =>
    cases k with
    | nil => simp at h
    | cons y ys =>
      simp only [xorBytes, List.zipWith_cons_cons, List.cons.injEq]
      refine ⟨by rw [BitVec.xor_assoc, BitVec.xor_self, BitVec.xor_zero], ?_⟩
      exact ih (by simpa using h)

/-- `xorp` with the same keystream block twice gives the segment back (R70). -/
theorem xorp_xorp {a : Bytes} (h : a.length ≤ 16) (s : Block) : xorp (xorp a s) s = a := by
  have hl := length_xorp h s
  have hm : (msb a.length (bytesOf s)).length = a.length := by rw [length_msb, length_bytesOf]; omega
  rw [xorp, hl, xorp]
  exact xorBytes_xorBytes (by rw [hm])

/-! ## Blocks of a string -/

theorem numBlocks_nil : numBlocks [] = 0 := rfl

theorem length_blks (b : Bytes) : (blks b).length = numBlocks b := by simp [blks]

theorem length_blk (i : Nat) (b : Bytes) : (blk i b).length = min 16 (b.length - 16 * i) := by
  simp [blk, slice]

theorem length_le_of_mem_blks {b x : Bytes} (h : x ∈ blks b) : x.length ≤ 16 := by
  obtain ⟨i, -, rfl⟩ := List.mem_map.mp h
  rw [length_blk]
  omega

/-- Every block of a string of whole blocks has 16 bytes. -/
theorem length_of_mem_blks {b x : Bytes} (hb : b.length % 16 = 0) (h : x ∈ blks b) : x.length = 16 := by
  obtain ⟨i, hi, rfl⟩ := List.mem_map.mp h
  have := List.mem_range.mp hi
  rw [numBlocks] at this
  rw [length_blk]
  omega

/-- The first `k` blocks together are the first `16 k` bytes. -/
theorem flatten_map_blk_range (b : Bytes) (k : Nat) : ((List.range k).map (blk · b)).flatten = b.take (16 * k) := by
  induction k with
  | zero => simp
  | succ k ih =>
    rw [List.range_succ, List.map_append, List.flatten_append, ih]
    simp only [List.map_cons, List.map_nil, List.flatten_cons, List.flatten_nil, List.append_nil, blk, slice]
    rw [show 16 * k + 16 - 16 * k = 16 by omega, show 16 * (k + 1) = 16 * k + 16 by omega, List.take_add]

/-- The blocks of a string put together are the string (R71). -/
theorem flatten_blks (b : Bytes) : (blks b).flatten = b := by
  rw [blks, flatten_map_blk_range, numBlocks]
  exact List.take_of_length_le (by omega)

@[simp] theorem length_padz_mod (b : Bytes) : (padz b).length % 16 = 0 := by
  simp only [padz, List.length_append, length_zeros]
  omega

theorem padz_of_whole {b : Bytes} (h : b.length % 16 = 0) : padz b = b := by
  simp [padz, h, zeros, rep]

/-! ## Exclusive or of blocks -/

theorem be_xor (n x y : Nat) : be n (x ^^^ y) = xorBytes (be n x) (be n y) := by
  induction n generalizing x y with
  | zero => rfl
  | succ n ih =>
    have h : (x ^^^ y) / 256 = x / 256 ^^^ y / 256 := by
      have := Nat.shiftRight_xor_distrib (a := x) (b := y) (i := 8)
      simpa [Nat.shiftRight_eq_div_pow] using this
    have h8 : BitVec.ofNat 8 (x ^^^ y) = BitVec.ofNat 8 x ^^^ BitVec.ofNat 8 y := by
      apply BitVec.eq_of_getLsbD_eq
      intro k hk
      simp [hk]
    rw [be, be, be, h, h8, ih, xorBytes, xorBytes, List.zipWith_append (by rw [length_be, length_be])]
    rfl

/-- The exclusive or of blocks is that of each byte lane (R70). -/
theorem bytesOf_xor (a b : Block) : bytesOf (a ^^^ b) = xorBytes (bytesOf a) (bytesOf b) := by
  rw [bytesOf, BitVec.toNat_xor, be_xor]
  rfl

/-- A string of one whole block is its one block. -/
theorem blks_one {b : Bytes} (h : b.length = 16) : blks b = [b] := by
  have hn : numBlocks b = 1 := by rw [numBlocks, h]
  rw [blks, hn]
  simp [List.range_succ, blk, slice, List.take_of_length_le (Nat.le_of_eq h)]

end Sys2Proof.Laws
end

