-- ==== Sys2Proof/Laws/State.lean ====
section
/-! SUPPORT. One lemma per field per update of the state and of the datapath registers, so that no later proof unfolds a
record update. -/

namespace Sys2Proof.Laws

open Sys2Proof.Machine

/-! ## Acceptance -/

@[simp] theorem accept_cmd (w : Word) (s : State) : (s.accept w).cmd = w := rfl
@[simp] theorem accept_busy (w : Word) (s : State) : (s.accept w).busy = true := rfl
@[simp] theorem accept_done (w : Word) (s : State) : (s.accept w).done = false := rfl
@[simp] theorem accept_err (w : Word) (s : State) : (s.accept w).err = 0 := rfl
@[simp] theorem accept_doneIe (w : Word) (s : State) : (s.accept w).doneIe = s.doneIe := rfl
@[simp] theorem accept_par (w : Word) (s : State) : (s.accept w).par = s.par := rfl
@[simp] theorem accept_outLen (w : Word) (s : State) : (s.accept w).outLen = 0 := rfl
@[simp] theorem accept_mem (w : Word) (s : State) : (s.accept w).mem = s.mem := rfl
@[simp] theorem accept_plat (w : Word) (s : State) : (s.accept w).plat = s.plat := rfl
@[simp] theorem accept_inbox (w : Word) (s : State) : (s.accept w).inbox = s.inbox := rfl
@[simp] theorem accept_regRead (w : Word) (s : State) : (s.accept w).regRead = s.regRead := rfl
@[simp] theorem accept_memRead (w : Word) (s : State) : (s.accept w).memRead = s.memRead := rfl
@[simp] theorem accept_draws (w : Word) (s : State) : (s.accept w).draws = s.draws := rfl
@[simp] theorem accept_hostDirty (w : Word) (s : State) : (s.accept w).hostDirty = s.hostDirty := rfl
@[simp] theorem accept_unobserved (w : Word) (s : State) : (s.accept w).unobserved = s.unobserved := rfl
@[simp] theorem accept_engDirty (w : Word) (s : State) : (s.accept w).engDirty = s.engDirty := rfl
@[simp] theorem accept_eng_phase (w : Word) (s : State) : (s.accept w).eng.phase = .check := rfl
@[simp] theorem accept_eng_cmd (w : Word) (s : State) : (s.accept w).eng.cmd = w := rfl
@[simp] theorem accept_eng_cfg (w : Word) (s : State) : (s.accept w).eng.cfg = s.par := rfl
@[simp] theorem accept_eng_dp (w : Word) (s : State) : (s.accept w).eng.dp = s.eng.dp := rfl
@[simp] theorem accept_eng_res (w : Word) (s : State) : (s.accept w).eng.res = none := rfl
@[simp] theorem accept_eng_left (w : Word) (s : State) : (s.accept w).eng.left = 0 := rfl
@[simp] theorem accept_eng_stale (w : Word) (s : State) : (s.accept w).eng.stale = s.hostDirty := rfl

/-! ## An operation that ends in an error -/

@[simp] theorem endWith_cmd (e : Err) (s : State) : (s.endWith e).cmd = s.cmd := rfl
@[simp] theorem endWith_busy (e : Err) (s : State) : (s.endWith e).busy = s.busy := rfl
@[simp] theorem endWith_done (e : Err) (s : State) : (s.endWith e).done = s.done := rfl
@[simp] theorem endWith_err (e : Err) (s : State) : (s.endWith e).err = s.err := rfl
@[simp] theorem endWith_doneIe (e : Err) (s : State) : (s.endWith e).doneIe = s.doneIe := rfl
@[simp] theorem endWith_par (e : Err) (s : State) : (s.endWith e).par = s.par := rfl
@[simp] theorem endWith_outLen (e : Err) (s : State) : (s.endWith e).outLen = s.outLen := rfl
@[simp] theorem endWith_mem (e : Err) (s : State) : (s.endWith e).mem = s.mem := rfl
@[simp] theorem endWith_plat (e : Err) (s : State) : (s.endWith e).plat = s.plat := rfl
@[simp] theorem endWith_inbox (e : Err) (s : State) : (s.endWith e).inbox = s.inbox := rfl
@[simp] theorem endWith_regRead (e : Err) (s : State) : (s.endWith e).regRead = s.regRead := rfl
@[simp] theorem endWith_memRead (e : Err) (s : State) : (s.endWith e).memRead = s.memRead := rfl
@[simp] theorem endWith_draws (e : Err) (s : State) : (s.endWith e).draws = s.draws := rfl
@[simp] theorem endWith_hostDirty (e : Err) (s : State) : (s.endWith e).hostDirty = s.hostDirty := rfl
@[simp] theorem endWith_unobserved (e : Err) (s : State) : (s.endWith e).unobserved = s.unobserved := rfl
@[simp] theorem endWith_engDirty (e : Err) (s : State) : (s.endWith e).engDirty = s.engDirty := rfl
@[simp] theorem endWith_eng_phase (e : Err) (s : State) : (s.endWith e).eng.phase = .finish := rfl
@[simp] theorem endWith_eng_cmd (e : Err) (s : State) : (s.endWith e).eng.cmd = s.eng.cmd := rfl
@[simp] theorem endWith_eng_cfg (e : Err) (s : State) : (s.endWith e).eng.cfg = s.eng.cfg := rfl
@[simp] theorem endWith_eng_dp (e : Err) (s : State) : (s.endWith e).eng.dp = s.eng.dp := rfl
@[simp] theorem endWith_eng_res (e : Err) (s : State) : (s.endWith e).eng.res = some e := rfl
@[simp] theorem endWith_eng_left (e : Err) (s : State) : (s.endWith e).eng.left = s.eng.left := rfl
@[simp] theorem endWith_eng_stale (e : Err) (s : State) : (s.endWith e).eng.stale = s.eng.stale := rfl

/-! ## Completion -/

@[simp] theorem complete_cmd (s : State) : (s.complete).cmd = s.cmd := rfl
@[simp] theorem complete_busy (s : State) : (s.complete).busy = false := rfl
@[simp] theorem complete_done (s : State) : (s.complete).done = true := rfl
@[simp] theorem complete_err (s : State) : (s.complete).err = resCode s.eng.res := rfl
@[simp] theorem complete_doneIe (s : State) : (s.complete).doneIe = s.doneIe := rfl
@[simp] theorem complete_par (s : State) : (s.complete).par = s.par := rfl
@[simp] theorem complete_outLen (s : State) : (s.complete).outLen = match s.eng.res with | none => BitVec.ofNat 32 s.eng.dp.out.length | some _ => 0 := rfl
@[simp] theorem complete_mem (s : State) : (s.complete).mem = s.mem := rfl
@[simp] theorem complete_plat (s : State) : (s.complete).plat = s.plat := rfl
@[simp] theorem complete_inbox (s : State) : (s.complete).inbox = s.inbox := rfl
@[simp] theorem complete_regRead (s : State) : (s.complete).regRead = s.regRead := rfl
@[simp] theorem complete_memRead (s : State) : (s.complete).memRead = s.memRead := rfl
@[simp] theorem complete_draws (s : State) : (s.complete).draws = s.draws := rfl
@[simp] theorem complete_hostDirty (s : State) : (s.complete).hostDirty = s.hostDirty := rfl
@[simp] theorem complete_unobserved (s : State) : (s.complete).unobserved = s.unobserved := rfl
@[simp] theorem complete_engDirty (s : State) : (s.complete).engDirty = s.engDirty := rfl
@[simp] theorem complete_eng_phase (s : State) : (s.complete).eng.phase = .idle := rfl
@[simp] theorem complete_eng_cmd (s : State) : (s.complete).eng.cmd = s.eng.cmd := rfl
@[simp] theorem complete_eng_cfg (s : State) : (s.complete).eng.cfg = s.eng.cfg := rfl
@[simp] theorem complete_eng_dp (s : State) : (s.complete).eng.dp = Dp.zero := rfl
@[simp] theorem complete_eng_res (s : State) : (s.complete).eng.res = s.eng.res := rfl
@[simp] theorem complete_eng_left (s : State) : (s.complete).eng.left = s.eng.left := rfl
@[simp] theorem complete_eng_stale (s : State) : (s.complete).eng.stale = s.eng.stale := rfl

/-! ## Acknowledgement -/

@[simp] theorem acknowledge_cmd (s : State) : (s.acknowledge).cmd = s.cmd := rfl
@[simp] theorem acknowledge_busy (s : State) : (s.acknowledge).busy = s.busy := rfl
@[simp] theorem acknowledge_done (s : State) : (s.acknowledge).done = false := rfl
@[simp] theorem acknowledge_err (s : State) : (s.acknowledge).err = s.err := rfl
@[simp] theorem acknowledge_doneIe (s : State) : (s.acknowledge).doneIe = s.doneIe := rfl
@[simp] theorem acknowledge_par (s : State) : (s.acknowledge).par = s.par := rfl
@[simp] theorem acknowledge_outLen (s : State) : (s.acknowledge).outLen = s.outLen := rfl
@[simp] theorem acknowledge_mem (s : State) : (s.acknowledge).mem = s.mem := rfl
@[simp] theorem acknowledge_plat (s : State) : (s.acknowledge).plat = s.plat := rfl
@[simp] theorem acknowledge_inbox (s : State) : (s.acknowledge).inbox = s.inbox := rfl
@[simp] theorem acknowledge_regRead (s : State) : (s.acknowledge).regRead = s.regRead := rfl
@[simp] theorem acknowledge_memRead (s : State) : (s.acknowledge).memRead = s.memRead := rfl
@[simp] theorem acknowledge_draws (s : State) : (s.acknowledge).draws = s.draws := rfl
@[simp] theorem acknowledge_hostDirty (s : State) : (s.acknowledge).hostDirty = s.hostDirty := rfl
@[simp] theorem acknowledge_unobserved (s : State) : (s.acknowledge).unobserved = s.unobserved := rfl
@[simp] theorem acknowledge_engDirty (s : State) : (s.acknowledge).engDirty = s.engDirty := rfl
@[simp] theorem acknowledge_eng_phase (s : State) : (s.acknowledge).eng.phase = s.eng.phase := rfl
@[simp] theorem acknowledge_eng_cmd (s : State) : (s.acknowledge).eng.cmd = s.eng.cmd := rfl
@[simp] theorem acknowledge_eng_cfg (s : State) : (s.acknowledge).eng.cfg = s.eng.cfg := rfl
@[simp] theorem acknowledge_eng_dp (s : State) : (s.acknowledge).eng.dp = s.eng.dp := rfl
@[simp] theorem acknowledge_eng_res (s : State) : (s.acknowledge).eng.res = s.eng.res := rfl
@[simp] theorem acknowledge_eng_left (s : State) : (s.acknowledge).eng.left = s.eng.left := rfl
@[simp] theorem acknowledge_eng_stale (s : State) : (s.acknowledge).eng.stale = s.eng.stale := rfl

/-! ## The observation of a completion -/

@[simp] theorem observe_cmd (s : State) : (s.observe).cmd = s.cmd := rfl
@[simp] theorem observe_busy (s : State) : (s.observe).busy = s.busy := rfl
@[simp] theorem observe_done (s : State) : (s.observe).done = s.done := rfl
@[simp] theorem observe_err (s : State) : (s.observe).err = s.err := rfl
@[simp] theorem observe_doneIe (s : State) : (s.observe).doneIe = s.doneIe := rfl
@[simp] theorem observe_par (s : State) : (s.observe).par = s.par := rfl
@[simp] theorem observe_outLen (s : State) : (s.observe).outLen = s.outLen := rfl
@[simp] theorem observe_eng (s : State) : (s.observe).eng = s.eng := rfl
@[simp] theorem observe_mem (s : State) : (s.observe).mem = s.mem := rfl
@[simp] theorem observe_plat (s : State) : (s.observe).plat = s.plat := rfl
@[simp] theorem observe_inbox (s : State) : (s.observe).inbox = s.inbox := rfl
@[simp] theorem observe_regRead (s : State) : (s.observe).regRead = s.regRead := rfl
@[simp] theorem observe_memRead (s : State) : (s.observe).memRead = s.memRead := rfl
@[simp] theorem observe_draws (s : State) : (s.observe).draws = s.draws := rfl
@[simp] theorem observe_hostDirty (s : State) : (s.observe).hostDirty = s.hostDirty := rfl
@[simp] theorem observe_unobserved (s : State) : (s.observe).unobserved = [] := rfl
@[simp] theorem observe_engDirty (s : State) :
    (s.observe).engDirty = if s.plat.dmaCoherent then s.engDirty else s.unobserved ++ s.engDirty := rfl

/-! ## A read of STATUS -/

@[simp] theorem readStatus_cmd (s : State) : (s.readStatus).cmd = s.cmd := by
  unfold State.readStatus
  split <;> rfl
@[simp] theorem readStatus_busy (s : State) : (s.readStatus).busy = s.busy := by
  unfold State.readStatus
  split <;> rfl
@[simp] theorem readStatus_done (s : State) : (s.readStatus).done = s.done := by
  unfold State.readStatus
  split <;> rfl
@[simp] theorem readStatus_err (s : State) : (s.readStatus).err = s.err := by
  unfold State.readStatus
  split <;> rfl
@[simp] theorem readStatus_doneIe (s : State) : (s.readStatus).doneIe = s.doneIe := by
  unfold State.readStatus
  split <;> rfl
@[simp] theorem readStatus_par (s : State) : (s.readStatus).par = s.par := by
  unfold State.readStatus
  split <;> rfl
@[simp] theorem readStatus_outLen (s : State) : (s.readStatus).outLen = s.outLen := by
  unfold State.readStatus
  split <;> rfl
@[simp] theorem readStatus_eng (s : State) : (s.readStatus).eng = s.eng := by
  unfold State.readStatus
  split <;> rfl
@[simp] theorem readStatus_mem (s : State) : (s.readStatus).mem = s.mem := by
  unfold State.readStatus
  split <;> rfl
@[simp] theorem readStatus_plat (s : State) : (s.readStatus).plat = s.plat := by
  unfold State.readStatus
  split <;> rfl
@[simp] theorem readStatus_inbox (s : State) : (s.readStatus).inbox = s.inbox := by
  unfold State.readStatus
  split <;> rfl
@[simp] theorem readStatus_regRead (s : State) : (s.readStatus).regRead = s.statusWord := rfl
@[simp] theorem readStatus_memRead (s : State) : (s.readStatus).memRead = s.memRead := by
  unfold State.readStatus
  split <;> rfl
@[simp] theorem readStatus_draws (s : State) : (s.readStatus).draws = s.draws := by
  unfold State.readStatus
  split <;> rfl
@[simp] theorem readStatus_hostDirty (s : State) : (s.readStatus).hostDirty = s.hostDirty := by
  unfold State.readStatus
  split <;> rfl

/-! ## The end of RUN on success -/

@[simp] theorem commit_ok_cmd (out : Bytes) (tout : Option Bytes) (d : Dp) (s : State) : (s.commit (.ok out tout, d)).cmd = s.cmd := rfl
@[simp] theorem commit_ok_busy (out : Bytes) (tout : Option Bytes) (d : Dp) (s : State) : (s.commit (.ok out tout, d)).busy = s.busy := rfl
@[simp] theorem commit_ok_done (out : Bytes) (tout : Option Bytes) (d : Dp) (s : State) : (s.commit (.ok out tout, d)).done = s.done := rfl
@[simp] theorem commit_ok_err (out : Bytes) (tout : Option Bytes) (d : Dp) (s : State) : (s.commit (.ok out tout, d)).err = s.err := rfl
@[simp] theorem commit_ok_doneIe (out : Bytes) (tout : Option Bytes) (d : Dp) (s : State) : (s.commit (.ok out tout, d)).doneIe = s.doneIe := rfl
@[simp] theorem commit_ok_par (out : Bytes) (tout : Option Bytes) (d : Dp) (s : State) : (s.commit (.ok out tout, d)).par = s.par := rfl
@[simp] theorem commit_ok_outLen (out : Bytes) (tout : Option Bytes) (d : Dp) (s : State) : (s.commit (.ok out tout, d)).outLen = s.outLen := rfl
@[simp] theorem commit_ok_mem (out : Bytes) (tout : Option Bytes) (d : Dp) (s : State) : (s.commit (.ok out tout, d)).mem = storeResult s.eng.cfg out tout s.mem := rfl
@[simp] theorem commit_ok_plat (out : Bytes) (tout : Option Bytes) (d : Dp) (s : State) : (s.commit (.ok out tout, d)).plat = s.plat := rfl
@[simp] theorem commit_ok_inbox (out : Bytes) (tout : Option Bytes) (d : Dp) (s : State) : (s.commit (.ok out tout, d)).inbox = s.inbox := rfl
@[simp] theorem commit_ok_regRead (out : Bytes) (tout : Option Bytes) (d : Dp) (s : State) : (s.commit (.ok out tout, d)).regRead = s.regRead := rfl
@[simp] theorem commit_ok_memRead (out : Bytes) (tout : Option Bytes) (d : Dp) (s : State) : (s.commit (.ok out tout, d)).memRead = s.memRead := rfl
@[simp] theorem commit_ok_draws (out : Bytes) (tout : Option Bytes) (d : Dp) (s : State) : (s.commit (.ok out tout, d)).draws = s.draws := rfl
@[simp] theorem commit_ok_hostDirty (out : Bytes) (tout : Option Bytes) (d : Dp) (s : State) : (s.commit (.ok out tout, d)).hostDirty = s.hostDirty := rfl
@[simp] theorem commit_ok_unobserved (out : Bytes) (tout : Option Bytes) (d : Dp) (s : State) : (s.commit (.ok out tout, d)).unobserved = storedAddrs s.eng.cfg out tout ++ s.unobserved := rfl
@[simp] theorem commit_ok_engDirty (out : Bytes) (tout : Option Bytes) (d : Dp) (s : State) : (s.commit (.ok out tout, d)).engDirty = s.engDirty := rfl
@[simp] theorem commit_ok_eng_phase (out : Bytes) (tout : Option Bytes) (d : Dp) (s : State) : (s.commit (.ok out tout, d)).eng.phase = .finish := rfl
@[simp] theorem commit_ok_eng_cmd (out : Bytes) (tout : Option Bytes) (d : Dp) (s : State) : (s.commit (.ok out tout, d)).eng.cmd = s.eng.cmd := rfl
@[simp] theorem commit_ok_eng_cfg (out : Bytes) (tout : Option Bytes) (d : Dp) (s : State) : (s.commit (.ok out tout, d)).eng.cfg = s.eng.cfg := rfl
@[simp] theorem commit_ok_eng_dp (out : Bytes) (tout : Option Bytes) (d : Dp) (s : State) : (s.commit (.ok out tout, d)).eng.dp = { d with out := out } := rfl
@[simp] theorem commit_ok_eng_res (out : Bytes) (tout : Option Bytes) (d : Dp) (s : State) : (s.commit (.ok out tout, d)).eng.res = none := rfl
@[simp] theorem commit_ok_eng_left (out : Bytes) (tout : Option Bytes) (d : Dp) (s : State) : (s.commit (.ok out tout, d)).eng.left = s.eng.left := rfl
@[simp] theorem commit_ok_eng_stale (out : Bytes) (tout : Option Bytes) (d : Dp) (s : State) : (s.commit (.ok out tout, d)).eng.stale = s.eng.stale := rfl

/-! ## The end of RUN on an error -/

@[simp] theorem commit_fail_cmd (e : Err) (d : Dp) (s : State) : (s.commit (.fail e, d)).cmd = s.cmd := rfl
@[simp] theorem commit_fail_busy (e : Err) (d : Dp) (s : State) : (s.commit (.fail e, d)).busy = s.busy := rfl
@[simp] theorem commit_fail_done (e : Err) (d : Dp) (s : State) : (s.commit (.fail e, d)).done = s.done := rfl
@[simp] theorem commit_fail_err (e : Err) (d : Dp) (s : State) : (s.commit (.fail e, d)).err = s.err := rfl
@[simp] theorem commit_fail_doneIe (e : Err) (d : Dp) (s : State) : (s.commit (.fail e, d)).doneIe = s.doneIe := rfl
@[simp] theorem commit_fail_par (e : Err) (d : Dp) (s : State) : (s.commit (.fail e, d)).par = s.par := rfl
@[simp] theorem commit_fail_outLen (e : Err) (d : Dp) (s : State) : (s.commit (.fail e, d)).outLen = s.outLen := rfl
@[simp] theorem commit_fail_mem (e : Err) (d : Dp) (s : State) : (s.commit (.fail e, d)).mem = s.mem := rfl
@[simp] theorem commit_fail_plat (e : Err) (d : Dp) (s : State) : (s.commit (.fail e, d)).plat = s.plat := rfl
@[simp] theorem commit_fail_inbox (e : Err) (d : Dp) (s : State) : (s.commit (.fail e, d)).inbox = s.inbox := rfl
@[simp] theorem commit_fail_regRead (e : Err) (d : Dp) (s : State) : (s.commit (.fail e, d)).regRead = s.regRead := rfl
@[simp] theorem commit_fail_memRead (e : Err) (d : Dp) (s : State) : (s.commit (.fail e, d)).memRead = s.memRead := rfl
@[simp] theorem commit_fail_draws (e : Err) (d : Dp) (s : State) : (s.commit (.fail e, d)).draws = s.draws := rfl
@[simp] theorem commit_fail_hostDirty (e : Err) (d : Dp) (s : State) : (s.commit (.fail e, d)).hostDirty = s.hostDirty := rfl
@[simp] theorem commit_fail_unobserved (e : Err) (d : Dp) (s : State) : (s.commit (.fail e, d)).unobserved = s.unobserved := rfl
@[simp] theorem commit_fail_engDirty (e : Err) (d : Dp) (s : State) : (s.commit (.fail e, d)).engDirty = s.engDirty := rfl
@[simp] theorem commit_fail_eng_phase (e : Err) (d : Dp) (s : State) : (s.commit (.fail e, d)).eng.phase = .finish := rfl
@[simp] theorem commit_fail_eng_cmd (e : Err) (d : Dp) (s : State) : (s.commit (.fail e, d)).eng.cmd = s.eng.cmd := rfl
@[simp] theorem commit_fail_eng_cfg (e : Err) (d : Dp) (s : State) : (s.commit (.fail e, d)).eng.cfg = s.eng.cfg := rfl
@[simp] theorem commit_fail_eng_dp (e : Err) (d : Dp) (s : State) : (s.commit (.fail e, d)).eng.dp = d := rfl
@[simp] theorem commit_fail_eng_res (e : Err) (d : Dp) (s : State) : (s.commit (.fail e, d)).eng.res = some e := rfl
@[simp] theorem commit_fail_eng_left (e : Err) (d : Dp) (s : State) : (s.commit (.fail e, d)).eng.left = s.eng.left := rfl
@[simp] theorem commit_fail_eng_stale (e : Err) (d : Dp) (s : State) : (s.commit (.fail e, d)).eng.stale = s.eng.stale := rfl

/-! ## A command placed where step runs it -/

@[simp] theorem withFetchWord_cmd (nbits w : Nat) (s : State) : (s.withFetchWord nbits w).cmd = BitVec.ofNat 32 (w % 2 ^ nbits) := rfl
@[simp] theorem withFetchWord_busy (nbits w : Nat) (s : State) : (s.withFetchWord nbits w).busy = true := rfl
@[simp] theorem withFetchWord_done (nbits w : Nat) (s : State) : (s.withFetchWord nbits w).done = false := rfl
@[simp] theorem withFetchWord_err (nbits w : Nat) (s : State) : (s.withFetchWord nbits w).err = 0 := rfl
@[simp] theorem withFetchWord_doneIe (nbits w : Nat) (s : State) : (s.withFetchWord nbits w).doneIe = s.doneIe := rfl
@[simp] theorem withFetchWord_par (nbits w : Nat) (s : State) : (s.withFetchWord nbits w).par = s.par := rfl
@[simp] theorem withFetchWord_outLen (nbits w : Nat) (s : State) : (s.withFetchWord nbits w).outLen = 0 := rfl
@[simp] theorem withFetchWord_mem (nbits w : Nat) (s : State) : (s.withFetchWord nbits w).mem = s.mem := rfl
@[simp] theorem withFetchWord_plat (nbits w : Nat) (s : State) : (s.withFetchWord nbits w).plat = s.plat := rfl
@[simp] theorem withFetchWord_inbox (nbits w : Nat) (s : State) : (s.withFetchWord nbits w).inbox = [] := rfl
@[simp] theorem withFetchWord_regRead (nbits w : Nat) (s : State) : (s.withFetchWord nbits w).regRead = s.regRead := rfl
@[simp] theorem withFetchWord_memRead (nbits w : Nat) (s : State) : (s.withFetchWord nbits w).memRead = s.memRead := rfl
@[simp] theorem withFetchWord_draws (nbits w : Nat) (s : State) : (s.withFetchWord nbits w).draws = s.draws := rfl
@[simp] theorem withFetchWord_hostDirty (nbits w : Nat) (s : State) : (s.withFetchWord nbits w).hostDirty = s.hostDirty := rfl
@[simp] theorem withFetchWord_unobserved (nbits w : Nat) (s : State) : (s.withFetchWord nbits w).unobserved = s.unobserved := rfl
@[simp] theorem withFetchWord_engDirty (nbits w : Nat) (s : State) : (s.withFetchWord nbits w).engDirty = s.engDirty := rfl
@[simp] theorem withFetchWord_eng_phase (nbits w : Nat) (s : State) : (s.withFetchWord nbits w).eng.phase = .run := rfl
@[simp] theorem withFetchWord_eng_cmd (nbits w : Nat) (s : State) : (s.withFetchWord nbits w).eng.cmd = BitVec.ofNat 32 (w % 2 ^ nbits) := rfl
@[simp] theorem withFetchWord_eng_cfg (nbits w : Nat) (s : State) : (s.withFetchWord nbits w).eng.cfg = s.par := rfl
@[simp] theorem withFetchWord_eng_dp (nbits w : Nat) (s : State) : (s.withFetchWord nbits w).eng.dp = s.eng.dp := rfl
@[simp] theorem withFetchWord_eng_res (nbits w : Nat) (s : State) : (s.withFetchWord nbits w).eng.res = none := rfl
@[simp] theorem withFetchWord_eng_left (nbits w : Nat) (s : State) : (s.withFetchWord nbits w).eng.left = 0 := rfl
@[simp] theorem withFetchWord_eng_stale (nbits w : Nat) (s : State) : (s.withFetchWord nbits w).eng.stale = s.hostDirty := rfl

/-! ## The primitive port -/

@[simp] theorem enc_fst (P : Prim) (x : Block) (d : Dp) : (d.enc P x).1 = P d.key x := rfl
@[simp] theorem dec_fst (P : Prim) (x : Block) (d : Dp) : (d.dec P x).1 = (P d.key).symm x := rfl

/-! ## Registers after ENC -/

@[simp] theorem enc_key (P : Prim) (x : Block) (d : Dp) : ((d.enc P x).2).key = d.key := rfl
@[simp] theorem enc_v (P : Prim) (x : Block) (d : Dp) : ((d.enc P x).2).v = d.v := rfl
@[simp] theorem enc_y (P : Prim) (x : Block) (d : Dp) : ((d.enc P x).2).y = d.y := rfl
@[simp] theorem enc_h (P : Prim) (x : Block) (d : Dp) : ((d.enc P x).2).h = d.h := rfl
@[simp] theorem enc_j0 (P : Prim) (x : Block) (d : Dp) : ((d.enc P x).2).j0 = d.j0 := rfl
@[simp] theorem enc_i (P : Prim) (x : Block) (d : Dp) : ((d.enc P x).2).i = d.i := rfl
@[simp] theorem enc_tmpX (P : Prim) (x : Block) (d : Dp) : ((d.enc P x).2).tmpX = d.tmpX := rfl
@[simp] theorem enc_tmpS (P : Prim) (x : Block) (d : Dp) : ((d.enc P x).2).tmpS = d.tmpS := rfl
@[simp] theorem enc_tmpT (P : Prim) (x : Block) (d : Dp) : ((d.enc P x).2).tmpT = d.tmpT := rfl
@[simp] theorem enc_tmpZ (P : Prim) (x : Block) (d : Dp) : ((d.enc P x).2).tmpZ = d.tmpZ := rfl
@[simp] theorem enc_out (P : Prim) (x : Block) (d : Dp) : ((d.enc P x).2).out = d.out := rfl
@[simp] theorem enc_work (P : Prim) (x : Block) (d : Dp) : ((d.enc P x).2).work = d.work ++ [.enc] := rfl

/-! ## Registers after DEC -/

@[simp] theorem dec_key (P : Prim) (x : Block) (d : Dp) : ((d.dec P x).2).key = d.key := rfl
@[simp] theorem dec_v (P : Prim) (x : Block) (d : Dp) : ((d.dec P x).2).v = d.v := rfl
@[simp] theorem dec_y (P : Prim) (x : Block) (d : Dp) : ((d.dec P x).2).y = d.y := rfl
@[simp] theorem dec_h (P : Prim) (x : Block) (d : Dp) : ((d.dec P x).2).h = d.h := rfl
@[simp] theorem dec_j0 (P : Prim) (x : Block) (d : Dp) : ((d.dec P x).2).j0 = d.j0 := rfl
@[simp] theorem dec_i (P : Prim) (x : Block) (d : Dp) : ((d.dec P x).2).i = d.i := rfl
@[simp] theorem dec_tmpX (P : Prim) (x : Block) (d : Dp) : ((d.dec P x).2).tmpX = d.tmpX := rfl
@[simp] theorem dec_tmpS (P : Prim) (x : Block) (d : Dp) : ((d.dec P x).2).tmpS = d.tmpS := rfl
@[simp] theorem dec_tmpT (P : Prim) (x : Block) (d : Dp) : ((d.dec P x).2).tmpT = d.tmpT := rfl
@[simp] theorem dec_tmpZ (P : Prim) (x : Block) (d : Dp) : ((d.dec P x).2).tmpZ = d.tmpZ := rfl
@[simp] theorem dec_out (P : Prim) (x : Block) (d : Dp) : ((d.dec P x).2).out = d.out := rfl
@[simp] theorem dec_work (P : Prim) (x : Block) (d : Dp) : ((d.dec P x).2).work = d.work ++ [.dec] := rfl

/-! ## The MAC unit -/

@[simp] theorem macInit_key (d : Dp) : (d.macInit).key = d.key := rfl
@[simp] theorem macInit_v (d : Dp) : (d.macInit).v = d.v := rfl
@[simp] theorem macInit_y (d : Dp) : (d.macInit).y = 0 := rfl
@[simp] theorem macInit_h (d : Dp) : (d.macInit).h = d.h := rfl
@[simp] theorem macInit_j0 (d : Dp) : (d.macInit).j0 = d.j0 := rfl
@[simp] theorem macInit_i (d : Dp) : (d.macInit).i = d.i := rfl
@[simp] theorem macInit_tmpX (d : Dp) : (d.macInit).tmpX = d.tmpX := rfl
@[simp] theorem macInit_tmpS (d : Dp) : (d.macInit).tmpS = d.tmpS := rfl
@[simp] theorem macInit_tmpT (d : Dp) : (d.macInit).tmpT = d.tmpT := rfl
@[simp] theorem macInit_tmpZ (d : Dp) : (d.macInit).tmpZ = d.tmpZ := rfl
@[simp] theorem macInit_out (d : Dp) : (d.macInit).out = d.out := rfl
@[simp] theorem macInit_work (d : Dp) : (d.macInit).work = d.work := rfl

/-! ## One MAC step -/

@[simp] theorem macAbsorb_key (P : Prim) (x : Block) (d : Dp) : (d.macAbsorb P x).key = d.key := rfl
@[simp] theorem macAbsorb_v (P : Prim) (x : Block) (d : Dp) : (d.macAbsorb P x).v = d.v := rfl
@[simp] theorem macAbsorb_y (P : Prim) (x : Block) (d : Dp) : (d.macAbsorb P x).y = P d.key (d.y ^^^ x) := rfl
@[simp] theorem macAbsorb_h (P : Prim) (x : Block) (d : Dp) : (d.macAbsorb P x).h = d.h := rfl
@[simp] theorem macAbsorb_j0 (P : Prim) (x : Block) (d : Dp) : (d.macAbsorb P x).j0 = d.j0 := rfl
@[simp] theorem macAbsorb_i (P : Prim) (x : Block) (d : Dp) : (d.macAbsorb P x).i = d.i := rfl
@[simp] theorem macAbsorb_tmpX (P : Prim) (x : Block) (d : Dp) : (d.macAbsorb P x).tmpX = d.tmpX := rfl
@[simp] theorem macAbsorb_tmpS (P : Prim) (x : Block) (d : Dp) : (d.macAbsorb P x).tmpS = d.tmpS := rfl
@[simp] theorem macAbsorb_tmpT (P : Prim) (x : Block) (d : Dp) : (d.macAbsorb P x).tmpT = d.tmpT := rfl
@[simp] theorem macAbsorb_tmpZ (P : Prim) (x : Block) (d : Dp) : (d.macAbsorb P x).tmpZ = d.tmpZ := rfl
@[simp] theorem macAbsorb_out (P : Prim) (x : Block) (d : Dp) : (d.macAbsorb P x).out = d.out := rfl
@[simp] theorem macAbsorb_work (P : Prim) (x : Block) (d : Dp) : (d.macAbsorb P x).work = d.work ++ [.enc] := rfl

/-! ## The GHASH unit -/

@[simp] theorem ghashInit_key (d : Dp) : (d.ghashInit).key = d.key := rfl
@[simp] theorem ghashInit_v (d : Dp) : (d.ghashInit).v = d.v := rfl
@[simp] theorem ghashInit_y (d : Dp) : (d.ghashInit).y = 0 := rfl
@[simp] theorem ghashInit_h (d : Dp) : (d.ghashInit).h = d.h := rfl
@[simp] theorem ghashInit_j0 (d : Dp) : (d.ghashInit).j0 = d.j0 := rfl
@[simp] theorem ghashInit_i (d : Dp) : (d.ghashInit).i = d.i := rfl
@[simp] theorem ghashInit_tmpX (d : Dp) : (d.ghashInit).tmpX = d.tmpX := rfl
@[simp] theorem ghashInit_tmpS (d : Dp) : (d.ghashInit).tmpS = d.tmpS := rfl
@[simp] theorem ghashInit_tmpT (d : Dp) : (d.ghashInit).tmpT = d.tmpT := rfl
@[simp] theorem ghashInit_tmpZ (d : Dp) : (d.ghashInit).tmpZ = d.tmpZ := rfl
@[simp] theorem ghashInit_out (d : Dp) : (d.ghashInit).out = d.out := rfl
@[simp] theorem ghashInit_work (d : Dp) : (d.ghashInit).work = d.work := rfl

/-! ## One GHASH step -/

@[simp] theorem ghashAbsorb_key (x : Block) (d : Dp) : (d.ghashAbsorb x).key = d.key := rfl
@[simp] theorem ghashAbsorb_v (x : Block) (d : Dp) : (d.ghashAbsorb x).v = d.v := rfl
@[simp] theorem ghashAbsorb_y (x : Block) (d : Dp) : (d.ghashAbsorb x).y = gfMul (d.y ^^^ x) d.h := by
  simp only [Dp.ghashAbsorb]
@[simp] theorem ghashAbsorb_h (x : Block) (d : Dp) : (d.ghashAbsorb x).h = d.h := rfl
@[simp] theorem ghashAbsorb_j0 (x : Block) (d : Dp) : (d.ghashAbsorb x).j0 = d.j0 := rfl
@[simp] theorem ghashAbsorb_i (x : Block) (d : Dp) : (d.ghashAbsorb x).i = d.i := rfl
@[simp] theorem ghashAbsorb_tmpX (x : Block) (d : Dp) : (d.ghashAbsorb x).tmpX = d.tmpX := rfl
@[simp] theorem ghashAbsorb_tmpS (x : Block) (d : Dp) : (d.ghashAbsorb x).tmpS = d.tmpS := rfl
@[simp] theorem ghashAbsorb_tmpT (x : Block) (d : Dp) : (d.ghashAbsorb x).tmpT = d.tmpT := rfl
@[simp] theorem ghashAbsorb_tmpZ (x : Block) (d : Dp) : (d.ghashAbsorb x).tmpZ = d.tmpZ := rfl
@[simp] theorem ghashAbsorb_out (x : Block) (d : Dp) : (d.ghashAbsorb x).out = d.out := rfl
@[simp] theorem ghashAbsorb_work (x : Block) (d : Dp) : (d.ghashAbsorb x).work = d.work ++ [.gfMul] := rfl

/-! ## The start of RUN -/

@[simp] theorem start_key (key : Bytes) (d : Dp) : (d.start key).key = key := rfl
@[simp] theorem start_v (key : Bytes) (d : Dp) : (d.start key).v = d.v := rfl
@[simp] theorem start_y (key : Bytes) (d : Dp) : (d.start key).y = d.y := rfl
@[simp] theorem start_h (key : Bytes) (d : Dp) : (d.start key).h = d.h := rfl
@[simp] theorem start_j0 (key : Bytes) (d : Dp) : (d.start key).j0 = d.j0 := rfl
@[simp] theorem start_i (key : Bytes) (d : Dp) : (d.start key).i = d.i := rfl
@[simp] theorem start_tmpX (key : Bytes) (d : Dp) : (d.start key).tmpX = d.tmpX := rfl
@[simp] theorem start_tmpS (key : Bytes) (d : Dp) : (d.start key).tmpS = d.tmpS := rfl
@[simp] theorem start_tmpT (key : Bytes) (d : Dp) : (d.start key).tmpT = d.tmpT := rfl
@[simp] theorem start_tmpZ (key : Bytes) (d : Dp) : (d.start key).tmpZ = d.tmpZ := rfl
@[simp] theorem start_out (key : Bytes) (d : Dp) : (d.start key).out = d.out := rfl
@[simp] theorem start_work (key : Bytes) (d : Dp) : (d.start key).work = [] := rfl

end Sys2Proof.Laws
end

