-- ==== Sys2Proof/Laws/Datapath.lean ====
section
/-! SUPPORT. Lemmas about the datapath units (Machine/Datapath.lean): the block loop, packaged once. -/

namespace Sys2Proof.Laws

open Sys2Proof.Machine

@[simp] theorem forBlocks_nil (body : Nat → Bytes → Dp → Bytes × Dp) (k : Nat) (d : Dp) :
    forBlocks body k [] d = ([], d) := rfl

theorem forBlocks_cons (body : Nat → Bytes → Dp → Bytes × Dp) (k : Nat) (b : Bytes) (bs : List Bytes) (d : Dp) :
    forBlocks body k (b :: bs) d =
      ((body k b d).1 ++ (forBlocks body (k + 1) bs (body k b d).2).1, (forBlocks body (k + 1) bs (body k b d).2).2) :=
  rfl

/-- What every round keeps, the loop keeps. -/
theorem forBlocks_keeps {body : Nat → Bytes → Dp → Bytes × Dp} {I : Dp → Prop}
    (h : ∀ k b d, I d → I (body k b d).2) : ∀ (bs : List Bytes) (k : Nat) (d : Dp), I d → I (forBlocks body k bs d).2
  | [], _, _, hd => hd
  | b :: bs, k, d, hd => forBlocks_keeps h bs (k + 1) _ (h k b d hd)

/-- A loop whose rounds each give as many bytes as their block has gives as many bytes as the blocks have together. -/
theorem length_forBlocks {body : Nat → Bytes → Dp → Bytes × Dp} {bs : List Bytes}
    (h : ∀ k d, ∀ b ∈ bs, (body k b d).1.length = b.length) (k : Nat) (d : Dp) :
    (forBlocks body k bs d).1.length = bs.flatten.length := by
  induction bs generalizing k d with
  | nil => rfl
  | cons b bs ih =>
    rw [forBlocks_cons, List.length_append, h k d b (by simp), List.flatten_cons, List.length_append,
      ih fun k d x hx => h k d x (by simp [hx])]

/-- Two bodies that answer alike on the blocks, from alike states, make alike loops. -/
theorem forBlocks_congr {f g : Nat → Bytes → Dp → Bytes × Dp} {R : Dp → Dp → Prop} {bs : List Bytes}
    (h : ∀ k, ∀ b ∈ bs, ∀ d e, R d e → (f k b d).1 = (g k b e).1 ∧ R (f k b d).2 (g k b e).2)
    (k : Nat) {d e : Dp} (hde : R d e) :
    (forBlocks f k bs d).1 = (forBlocks g k bs e).1 ∧ R (forBlocks f k bs d).2 (forBlocks g k bs e).2 := by
  induction bs generalizing k d e with
  | nil => exact ⟨rfl, hde⟩
  | cons b bs ih =>
    have hb := h k b (by simp) d e hde
    have hr := ih (fun k x hx => h k x (by simp [hx])) (k + 1) hb.2
    rw [forBlocks_cons, forBlocks_cons]
    exact ⟨by rw [hb.1, hr.1], hr.2⟩

@[simp] theorem ghashBlocks_key (bs : List Bytes) (d : Dp) : (Dp.ghashBlocks bs d).key = d.key := by
  induction bs generalizing d with
  | nil => rfl
  | cons b bs ih => rw [Dp.ghashBlocks, ih, ghashAbsorb_key]

@[simp] theorem ghashBlocks_h (bs : List Bytes) (d : Dp) : (Dp.ghashBlocks bs d).h = d.h := by
  induction bs generalizing d with
  | nil => rfl
  | cons b bs ih => rw [Dp.ghashBlocks, ih, ghashAbsorb_h]

@[simp] theorem ghashBlocks_j0 (bs : List Bytes) (d : Dp) : (Dp.ghashBlocks bs d).j0 = d.j0 := by
  induction bs generalizing d with
  | nil => rfl
  | cons b bs ih => rw [Dp.ghashBlocks, ih, ghashAbsorb_j0]

/-- Each block absorbed is one multiplication (R76). -/
theorem ghashBlocks_work (bs : List Bytes) (d : Dp) :
    (Dp.ghashBlocks bs d).work = d.work ++ List.replicate bs.length .gfMul := by
  induction bs generalizing d with
  | nil => simp [Dp.ghashBlocks]
  | cons b bs ih => rw [Dp.ghashBlocks, ih, ghashAbsorb_work]; simp [List.replicate_succ]

end Sys2Proof.Laws
end

