-- ==== Sys2Proof/Laws/Memory.lean ====
section
/-! SUPPORT. Lemmas about buffer memory (Machine/Memory.lean): reading after writing, and the canonical form, which every
memory operation keeps. -/

namespace Sys2Proof.Laws

open Sys2Proof.Machine

theorem wf_nil : Memory.wf [] := ⟨List.Pairwise.nil, by simp⟩

theorem wf_tail {c : Host.Cell} {m : List Host.Cell} (h : Memory.wf (c :: m)) : Memory.wf m :=
  ⟨(List.pairwise_cons.mp h.1).2, fun d hd => h.2 d (List.mem_cons_of_mem c hd)⟩

/-- In a canonical memory an address below every entry reads as an unlisted one. -/
theorem read_of_below {m : List Host.Cell} {a : Nat} (h : ∀ c ∈ m, a < c.1) : Memory.read m a = Memory.unlisted := by
  induction m with
  | nil => rfl
  | cons c m ih =>
    have hc := h c (by simp)
    simp only [Memory.read, if_neg (show ¬ a = c.1 by omega)]
    exact ih fun d hd => h d (by simp [hd])

theorem read_cons (c : Host.Cell) (m : List Host.Cell) (a : Nat) :
    Memory.read (c :: m) a = if a = c.1 then c.2 else Memory.read m a := rfl

/-- Entries of a memory after a write are the old ones and the new one. -/
theorem mem_write {m : List Host.Cell} {a : Nat} {v : Byte} {c : Host.Cell} (h : c ∈ Memory.write m a v) :
    c ∈ m ∨ (c = (a, v) ∧ v ≠ Memory.unlisted) := by
  induction m with
  | nil =>
    rw [Memory.write] at h
    split at h <;> simp_all
  | cons d m ih =>
    obtain ⟨b, w⟩ := d
    rw [Memory.write] at h
    split at h
    · split at h <;> simp_all
      tauto
    · split at h
      · split at h <;> simp_all
        tauto
      · rcases List.mem_cons.mp h with rfl | h
        · simp
        · rcases ih h with h | h
          · exact .inl (by simp [h])
          · exact .inr h

/-- A write keeps the canonical form. -/
theorem wf_write {m : List Host.Cell} (h : Memory.wf m) {a : Nat} (ha : a < Config.memorySize) (v : Byte) :
    Memory.wf (Memory.write m a v) := by
  refine ⟨?_, fun c hc => ?_⟩
  · induction m with
    | nil =>
      rw [Memory.write]
      split <;> simp
    | cons d m ih =>
      obtain ⟨b, w⟩ := d
      have hp := List.pairwise_cons.mp h.1
      rw [Memory.write]
      split
      · rename_i hlt
        split
        · exact h.1
        · refine List.pairwise_cons.mpr ⟨fun c hc => ?_, h.1⟩
          rcases List.mem_cons.mp hc with rfl | hc
          · exact hlt
          · exact lt_trans hlt (hp.1 c hc)
      · split
        · rename_i heq
          split
          · exact hp.2
          · subst heq
            exact List.pairwise_cons.mpr ⟨fun c hc => hp.1 c hc, hp.2⟩
        · refine List.pairwise_cons.mpr ⟨fun c hc => ?_, ih (wf_tail h)⟩
          rcases mem_write hc with hc | ⟨rfl, -⟩
          · exact hp.1 c hc
          · show b < a
            omega
  · rcases mem_write hc with hc | ⟨rfl, hv⟩
    · exact h.2 c hc
    · exact ⟨hv, ha⟩

/-- Reading after a write: the byte written at its address, every other byte as before (R45). -/
theorem read_write {m : List Host.Cell} (h : Memory.wf m) (a b : Nat) (v : Byte) :
    Memory.read (Memory.write m a v) b = if b = a then v else Memory.read m b := by
  induction m with
  | nil =>
    rw [Memory.write]
    split <;> simp_all [Memory.read]
  | cons d m ih =>
    obtain ⟨x, w⟩ := d
    have hp := List.pairwise_cons.mp h.1
    rw [Memory.write]
    split
    · rename_i hlt
      have hbelow : Memory.read ((x, w) :: m) a = Memory.unlisted := by
        refine read_of_below fun c hc => ?_
        rcases List.mem_cons.mp hc with rfl | hc
        · exact hlt
        · exact lt_trans hlt (hp.1 c hc)
      split
      · rename_i hv
        split
        · rename_i hb
          rw [hb, hbelow, hv]
        · rfl
      · rw [read_cons]
    · split
      · rename_i heq
        subst heq
        have hbelow : Memory.read m a = Memory.unlisted := read_of_below fun c hc => hp.1 c hc
        split
        · rename_i hv
          rw [read_cons]
          split
          · rename_i hb
            rw [hb, hbelow, hv]
          · rfl
        · simp only [read_cons]
          split <;> rfl
      · simp only [read_cons]
        rw [ih (wf_tail h)]
        split
        · rename_i hb
          rw [if_neg (by omega)]
        · rfl

/-- A string write inside the address space keeps the canonical form. -/
theorem wf_writeBytes {m : List Host.Cell} (h : Memory.wf m) {a : Nat} {v : Bytes}
    (ha : a + v.length ≤ Config.memorySize) : Memory.wf (Memory.writeBytes m a v) := by
  induction v generalizing m a with
  | nil => exact h
  | cons x xs ih =>
    simp only [List.length_cons] at ha
    exact ih (wf_write h (by omega) x) (by omega)

/-- Reading one byte after a string write (R45). -/
theorem read_writeBytes {m : List Host.Cell} (h : Memory.wf m) {a : Nat} {v : Bytes}
    (ha : a + v.length ≤ Config.memorySize) (b : Nat) :
    Memory.read (Memory.writeBytes m a v) b =
      if a ≤ b ∧ b < a + v.length then v.getD (b - a) 0 else Memory.read m b := by
  induction v generalizing m a with
  | nil => simp [Memory.writeBytes]
  | cons x xs ih =>
    simp only [List.length_cons] at ha ⊢
    rw [Memory.writeBytes, ih (wf_write h (by omega) x) (by omega), read_write h]
    by_cases h1 : b = a
    · subst h1
      rw [if_neg (by omega), if_pos rfl, if_pos (by omega)]
      simp
    · by_cases h2 : a ≤ b ∧ b < a + (xs.length + 1)
      · rw [if_pos (by omega), if_pos h2, show b - a = (b - (a + 1)) + 1 by omega, List.getD_cons_succ]
      · rw [if_neg (by omega), if_neg h1, if_neg h2]

@[simp] theorem length_readBytes (m : List Host.Cell) (a n : Nat) : (Memory.readBytes m a n).length = n := by
  simp [Memory.readBytes]

/-- Two memories that agree byte by byte on a range read the same string there. -/
theorem readBytes_congr {m m' : List Host.Cell} {a n : Nat}
    (h : ∀ b, a ≤ b → b < a + n → Memory.read m b = Memory.read m' b) :
    Memory.readBytes m a n = Memory.readBytes m' a n := by
  refine List.map_congr_left fun k hk => ?_
  have := List.mem_range.mp hk
  exact h _ (by omega) (by omega)

/-- A string written is the string read back (R45). -/
theorem readBytes_writeBytes_same {m : List Host.Cell} (h : Memory.wf m) {a : Nat} {v : Bytes}
    (ha : a + v.length ≤ Config.memorySize) : Memory.readBytes (Memory.writeBytes m a v) a v.length = v := by
  refine List.ext_getElem (by simp) fun k h1 h2 => ?_
  simp only [Memory.readBytes, List.getElem_map, List.getElem_range]
  rw [read_writeBytes h ha, if_pos (by omega), show a + k - a = k by omega]
  simp [h2]

/-- A string write leaves every string apart from it as it was. -/
theorem readBytes_writeBytes_other {m : List Host.Cell} (h : Memory.wf m) {a b n : Nat} {v : Bytes}
    (ha : a + v.length ≤ Config.memorySize) (hd : a + v.length ≤ b ∨ b + n ≤ a) :
    Memory.readBytes (Memory.writeBytes m a v) b n = Memory.readBytes m b n := by
  refine readBytes_congr fun x h1 h2 => ?_
  rw [read_writeBytes h ha, if_neg (by omega)]

/-- Two ranges overlap exactly when they share an address. -/
theorem overlaps_iff (r q : Region) : r.overlaps q = true ↔ ∃ a, r.has a = true ∧ q.has a = true := by
  simp only [Region.overlaps, Region.has, Bool.and_eq_true, decide_eq_true_eq]
  constructor
  · rintro ⟨⟨⟨h1, h2⟩, h3⟩, h4⟩
    exact ⟨max r.base q.base, by omega, by omega⟩
  · rintro ⟨a, h1, h2⟩
    omega

theorem overlaps_comm (r q : Region) : r.overlaps q = q.overlaps r := by
  rw [Bool.eq_iff_iff, overlaps_iff, overlaps_iff]
  exact ⟨fun ⟨a, h1, h2⟩ => ⟨a, h2, h1⟩, fun ⟨a, h1, h2⟩ => ⟨a, h2, h1⟩⟩

end Sys2Proof.Laws
end

