-- ==== Sys2Proof/Laws/Ops.lean ====
section
/-! SUPPORT. For each shared operation one lemma that says once everything it can do: the register port, the host
obligations, the stores of an operation, and the running of a command's rule. -/

namespace Sys2Proof.Laws

open Sys2Proof.Machine

/-! ## The host obligations -/

theorem obligations_none {i : Instr} {l : Nat} {s : State} :
    obligations i l s = none ↔
      (∀ r ∈ readBufs i s.eng.cfg ++ writeBufs i s.eng.cfg l, r.inRange = true)
      ∧ (∀ r ∈ readBufs i s.eng.cfg ++ writeBufs i s.eng.cfg l, s.plat.ordinary r = true)
      ∧ overlapOk i s.eng.cfg l = true
      ∧ visibleOk s (readBufs i s.eng.cfg ++ writeBufs i s.eng.cfg l) = true := by
  rw [← List.all_eq_true, ← List.all_eq_true]
  simp only [obligations]
  generalize (readBufs i s.eng.cfg ++ writeBufs i s.eng.cfg l).all Region.inRange = p
  generalize (readBufs i s.eng.cfg ++ writeBufs i s.eng.cfg l).all s.plat.ordinary = q
  generalize overlapOk i s.eng.cfg l = u
  generalize visibleOk s (readBufs i s.eng.cfg ++ writeBufs i s.eng.cfg l) = v
  cases p <;> cases q <;> cases u <;> cases v <;> simp

theorem inRange_iff (r : Region) : r.inRange = true ↔ r.base + r.len ≤ Config.memorySize := by
  rw [Region.inRange, decide_eq_true_eq]

theorem dst_inRange {i : Instr} {l : Nat} {s : State} (h : obligations i l s = none) :
    s.eng.cfg.dstAddr.toNat + l ≤ Config.memorySize := by
  have := (obligations_none.mp h).1 (s.eng.cfg.dstBuf l) (by simp [writeBufs])
  exact (inRange_iff _).mp this

theorem tag_inRange {i : Instr} {l : Nat} {s : State} (h : obligations i l s = none) (hw : writesTag i = true) :
    s.eng.cfg.tagAddr.toNat + 16 ≤ Config.memorySize := by
  have := (obligations_none.mp h).1 s.eng.cfg.tagBuf (by simp [writeBufs, hw])
  exact (inRange_iff _).mp this

/-! ## The stores of an operation -/

theorem storeResult_none (c : Params) (out : Bytes) (m : List Host.Cell) :
    storeResult c out none m = Memory.writeBytes m c.dstAddr.toNat out := rfl

theorem storeResult_some (c : Params) (out tag : Bytes) (m : List Host.Cell) :
    storeResult c out (some tag) m =
      Memory.writeBytes (Memory.writeBytes m c.dstAddr.toNat out) c.tagAddr.toNat tag := rfl

/-- The stores of an operation inside the address space keep the canonical form. -/
theorem wf_storeResult {m : List Host.Cell} (h : Memory.wf m) {c : Params} {out : Bytes} {tout : Option Bytes}
    (ho : c.dstAddr.toNat + out.length ≤ Config.memorySize)
    (ht : ∀ tag, tout = some tag → c.tagAddr.toNat + tag.length ≤ Config.memorySize) :
    Memory.wf (storeResult c out tout m) := by
  cases tout with
  | none => exact wf_writeBytes h ho
  | some tag => exact wf_writeBytes (wf_writeBytes h ho) (ht tag rfl)

/-! ## Phase RUN -/

/-- Everything `runRule` can do: end in the validation error, refuse an operation whose obligations do not hold, or commit
the rule's result. -/
theorem runRule_cases (i : Instr) (rule : Rule) (s : State) :
    (∃ e, validate i s.eng.cfg = some e ∧ runRule i rule s = .next (s.endWith e))
    ∨ (validate i s.eng.cfg = none ∧ ∃ why,
        obligations i (outSpan s.eng.cfg (ruleResult i rule s).1) s = some why ∧ runRule i rule s = .refused why)
    ∨ (validate i s.eng.cfg = none ∧ obligations i (outSpan s.eng.cfg (ruleResult i rule s).1) s = none
        ∧ runRule i rule s = .next (s.commit (ruleResult i rule s))) := by
  unfold runRule
  cases hv : validate i s.eng.cfg with
  | some e => exact .inl ⟨e, rfl, rfl⟩
  | none =>
    cases ho : obligations i (outSpan s.eng.cfg (ruleResult i rule s).1) s with
    | some why => exact .inr (.inl ⟨rfl, why, rfl, by simp only [ho]⟩)
    | none => exact .inr (.inr ⟨rfl, rfl, by simp only [ho]⟩)

theorem runRule_ready {i : Instr} {rule : Rule} {s : State} (hv : validate i s.eng.cfg = none)
    (ho : obligations i (outSpan s.eng.cfg (ruleResult i rule s).1) s = none) :
    runRule i rule s = .next (s.commit (ruleResult i rule s)) := by
  unfold runRule
  simp only [hv, ho]

theorem runRule_invalid {i : Instr} {rule : Rule} {s : State} {e : Err} (hv : validate i s.eng.cfg = some e) :
    runRule i rule s = .next (s.endWith e) := by
  unfold runRule
  simp only [hv]

/-- Every meaning is `runRule` of its own rule. -/
theorem exec_eq_runRule (i : Instr) : ∃ rule : Rule, ∀ s, exec i s = runRule i rule s := by
  cases i <;> exact ⟨_, fun _ => rfl⟩

/-- Everything `exec` can do. -/
theorem exec_cases (i : Instr) (s : State) :
    (∃ e, validate i s.eng.cfg = some e ∧ exec i s = .next (s.endWith e))
    ∨ (validate i s.eng.cfg = none ∧ ∃ l why, obligations i l s = some why ∧ exec i s = .refused why)
    ∨ (validate i s.eng.cfg = none ∧ ∃ r : Result × Dp, obligations i (outSpan s.eng.cfg r.1) s = none
        ∧ exec i s = .next (s.commit r)) := by
  obtain ⟨rule, h⟩ := exec_eq_runRule i
  rw [h]
  rcases runRule_cases i rule s with h | ⟨hv, why, ho, h⟩ | ⟨hv, ho, h⟩
  · exact .inl h
  · exact .inr (.inl ⟨hv, _, why, ho, h⟩)
  · exact .inr (.inr ⟨hv, _, ho, h⟩)

/-- The length of a written tag: 16 bytes for the commands that write one, and no other command's rule gives one (R113). -/
theorem readBytes_fetch (m : List Host.Cell) (r : Region) : r.fetch m = Memory.readBytes m r.base r.len := rfl

@[simp] theorem length_fetch (m : List Host.Cell) (r : Region) : (r.fetch m).length = r.len :=
  length_readBytes m r.base r.len

/-! ## The register port -/

/-- Everything a register write does (R25, R27, R28, R32). -/
theorem writeReg_cases (off : Nat) (v : Word) (s : State) :
    (off = 0x00 ∧ s.eng.phase = .idle ∧ s.writeReg off v = s.accept v)
    ∨ (off = 0x00 ∧ s.eng.phase ≠ .idle ∧ s.writeReg off v = s)
    ∨ (off = 0x04 ∧ s.writeReg off v = if v.getLsbD 1 then s.acknowledge else s)
    ∨ (off = 0x08 ∧ s.writeReg off v = { s with doneIe := v.getLsbD 0 })
    ∨ (off ≠ 0x00 ∧ off ≠ 0x04 ∧ off ≠ 0x08 ∧ s.busy = true ∧ s.writeReg off v = s)
    ∨ (off ≠ 0x00 ∧ off ≠ 0x04 ∧ off ≠ 0x08 ∧ s.busy = false
        ∧ s.writeReg off v = { s with par := s.par.set off v }) := by
  unfold State.writeReg
  split
  · by_cases h : s.eng.phase = .idle <;> simp [h]
  · simp
  · simp
  · rename_i h0 h4 h8
    cases hb : s.busy <;> simp_all

end Sys2Proof.Laws
end

