-- ==== Sys2Proof/Laws/PerInstr.lean ====
section
/-! SUPPORT. A fact about every instruction as syntax, one lemma per constructor: its command word carries the row of the
opcode map (30_encoding.md R63) and its operand flags (R61). -/

namespace Sys2Proof.Laws.OpcodeRow

/-- The command word of `i` matches its row of R63, its reserved bits are 0 and its flag bits are those of `i`. -/
def Statement (i : Instr) : Prop :=
  encode i &&& opcodeMask = opcodeMatch i ∧ cmdReserved (encode i) = 0
    ∧ cmdIvp (encode i) = i.ivp ∧ cmdAadp (encode i) = i.aadp ∧ cmdTagp (encode i) = i.tagp

theorem ecbEnc (ivp aadp tagp : Bool) : Statement (.ecbEnc ivp aadp tagp) := by
  unfold Statement
  revert ivp aadp tagp
  decide

theorem ecbDec (ivp aadp tagp : Bool) : Statement (.ecbDec ivp aadp tagp) := by
  unfold Statement
  revert ivp aadp tagp
  decide

theorem cbcEnc (ivp aadp tagp : Bool) : Statement (.cbcEnc ivp aadp tagp) := by
  unfold Statement
  revert ivp aadp tagp
  decide

theorem cbcDec (ivp aadp tagp : Bool) : Statement (.cbcDec ivp aadp tagp) := by
  unfold Statement
  revert ivp aadp tagp
  decide

theorem cfbEnc (ivp aadp tagp : Bool) : Statement (.cfbEnc ivp aadp tagp) := by
  unfold Statement
  revert ivp aadp tagp
  decide

theorem cfbDec (ivp aadp tagp : Bool) : Statement (.cfbDec ivp aadp tagp) := by
  unfold Statement
  revert ivp aadp tagp
  decide

theorem ofbEnc (ivp aadp tagp : Bool) : Statement (.ofbEnc ivp aadp tagp) := by
  unfold Statement
  revert ivp aadp tagp
  decide

theorem ofbDec (ivp aadp tagp : Bool) : Statement (.ofbDec ivp aadp tagp) := by
  unfold Statement
  revert ivp aadp tagp
  decide

theorem ctrEnc (ivp aadp tagp : Bool) : Statement (.ctrEnc ivp aadp tagp) := by
  unfold Statement
  revert ivp aadp tagp
  decide

theorem ctrDec (ivp aadp tagp : Bool) : Statement (.ctrDec ivp aadp tagp) := by
  unfold Statement
  revert ivp aadp tagp
  decide

theorem ctsEnc (ivp aadp tagp : Bool) : Statement (.ctsEnc ivp aadp tagp) := by
  unfold Statement
  revert ivp aadp tagp
  decide

theorem ctsDec (ivp aadp tagp : Bool) : Statement (.ctsDec ivp aadp tagp) := by
  unfold Statement
  revert ivp aadp tagp
  decide

theorem ccmEnc (ivp aadp tagp : Bool) : Statement (.ccmEnc ivp aadp tagp) := by
  unfold Statement
  revert ivp aadp tagp
  decide

theorem ccmDec (ivp aadp tagp : Bool) : Statement (.ccmDec ivp aadp tagp) := by
  unfold Statement
  revert ivp aadp tagp
  decide

theorem gcmEnc (ivp aadp tagp : Bool) : Statement (.gcmEnc ivp aadp tagp) := by
  unfold Statement
  revert ivp aadp tagp
  decide

theorem gcmDec (ivp aadp tagp : Bool) : Statement (.gcmDec ivp aadp tagp) := by
  unfold Statement
  revert ivp aadp tagp
  decide

end Sys2Proof.Laws.OpcodeRow
end

