-- ==== Sys2Proof/Laws/Sequencer.lean ====
section
/-! SUPPORT. For each operation of the sequencer one lemma that says once everything it can do. -/

namespace Sys2Proof.Laws

open Sys2Proof.Machine

/-- No command faults. -/
theorem exec_ne_fault (i : Instr) (s : State) (f : Fault) : exec i s ≠ .fault f := by
  rcases exec_cases i s with ⟨_, _, h⟩ | ⟨_, _, _, _, h⟩ | ⟨_, _, _, h⟩ <;> rw [h] <;> simp

/-- Everything the step of `CHECK` can do (R89). -/
theorem checkStep_cases (s : State) :
    (∃ e, checkCommand s.eng.cmd s.eng.cfg = some e ∧ checkStep s = .next (s.endWith e))
    ∨ (∃ i why, decode s.eng.cmd = .ok i ∧ validate i s.eng.cfg = none ∧ exec i s = .refused why
        ∧ checkStep s = .refused why)
    ∨ (∃ i t, decode s.eng.cmd = .ok i ∧ validate i s.eng.cfg = none ∧ exec i s = .next t
        ∧ checkStep s = .next { s with eng := { s.eng with
            phase := .run, left := runLength i s.eng.cmd s.eng.cfg t.eng.res } }) := by
  unfold checkStep checkCommand
  cases hd : decode s.eng.cmd with
  | error e => exact .inl ⟨_, rfl, rfl⟩
  | ok i =>
    cases hv : validate i s.eng.cfg with
    | some e => exact .inl ⟨e, hv, by simp only [hv]⟩
    | none =>
      cases hx : exec i s with
      | next t => exact .inr (.inr ⟨i, t, rfl, hv, hx, by simp only [hv, hx]⟩)
      | fault f => exact absurd hx (exec_ne_fault i s f)
      | refused r => exact .inr (.inl ⟨i, r, rfl, hv, hx, by simp only [hv, hx]⟩)

/-- Everything one engine step can do (R87). -/
theorem engineStep_cases (s : State) :
    (s.eng.phase = .idle ∧ engineStep s = .next s)
    ∨ (s.eng.phase = .check ∧ engineStep s = checkStep s)
    ∨ (s.eng.phase = .run ∧ ∃ k, s.eng.left = k + 1 ∧ engineStep s = .next { s with eng := { s.eng with left := k } })
    ∨ (s.eng.phase = .run ∧ s.eng.left = 0 ∧ engineStep s = runOutcome s)
    ∨ (s.eng.phase = .finish ∧ engineStep s = .next s.complete) := by
  unfold engineStep
  cases hp : s.eng.phase with
  | idle => simp
  | check => simp
  | finish => simp
  | run =>
    unfold runStep
    cases hl : s.eng.left with
    | zero => simp
    | succ k => simp

/-- Everything the last step of `RUN` can do (R90, R91). -/
theorem runOutcome_cases (s : State) :
    (∃ i, decode s.eng.cmd = .ok i ∧ runOutcome s = exec i s)
    ∨ (∃ e, decode s.eng.cmd = .error e ∧ runOutcome s = .next (s.endWith .illegalCommand)) := by
  unfold runOutcome
  cases hd : decode s.eng.cmd with
  | ok i => exact .inl ⟨i, rfl, rfl⟩
  | error e => exact .inr ⟨e, rfl, rfl⟩

/-- When an operation that uses buffers is in progress, and in which state its `RUN` ends. -/
theorem inFlight_some {s : State} {i : Instr} {t : State} (h : inFlight s = .ok (some (i, t))) :
    decode s.eng.cmd = .ok i ∧ validate i s.eng.cfg = none
      ∧ ((s.eng.phase = .finish ∧ t = s) ∨ ((s.eng.phase = .check ∨ s.eng.phase = .run) ∧ exec i s = .next t)) := by
  unfold inFlight at h
  cases hd : decode s.eng.cmd with
  | error e => cases hp : s.eng.phase <;> simp [hp, hd] at h
  | ok j =>
    cases hp : s.eng.phase with
    | idle => simp [hp] at h
    | finish =>
      simp only [hp, hd] at h
      split at h <;> simp_all
    | check =>
      simp only [hp, hd] at h
      split at h
      · cases hx : exec j s <;> simp_all
      · simp at h
    | run =>
      simp only [hp, hd] at h
      split at h
      · cases hx : exec j s <;> simp_all
      · simp at h

/-- What a register read that is let through does (R32, R55). -/
theorem hostRegRead_next {width off : Nat} {s t : State} (h : hostRegRead width off s = .next t) :
    regAccessOk width off = true
      ∧ ((off = 0x04 ∧ s.done = true ∧ t = { s.observe with regRead := s.statusWord })
        ∨ ((off ≠ 0x04 ∨ s.done = false) ∧ t = { s with regRead := s.readReg off })) := by
  unfold hostRegRead at h
  split at h
  · rename_i hok
    injection h with h
    subst h
    refine ⟨hok, ?_⟩
    by_cases ho : off = 0x04
    · subst ho
      cases hd : s.done <;> simp [State.readStatus, State.readReg, hd]
    · simp [ho]
  · simp at h

/-- What a host store that is let through does (R53). -/
theorem hostStore_next {a : Word} {bs : Bytes} {s t : State} (h : hostStore a bs s = .next t) :
    a.toNat + bs.length ≤ Config.memorySize
      ∧ s.plat.ordinary { base := a.toNat, len := bs.length } = true
      ∧ (∃ op, inFlight s = .ok op ∧ ∀ r ∈ liveReads op ++ liveWrites op,
          r.overlaps { base := a.toNat, len := bs.length } = false)
      ∧ t = { s with
          mem := Memory.writeBytes s.mem a.toNat bs
          hostDirty := if s.plat.dmaCoherent then s.hostDirty
            else Region.addrs { base := a.toNat, len := bs.length } ++ s.hostDirty
          unobserved := s.unobserved.filter fun x => !Region.has { base := a.toNat, len := bs.length } x
          engDirty := s.engDirty.filter fun x => !Region.has { base := a.toNat, len := bs.length } x } := by
  simp only [hostStore] at h
  split at h
  · simp at h
  · rename_i h1
    split at h
    · simp at h
    · rename_i h2
      cases hi : inFlight s with
      | error why => simp [hi] at h
      | ok op =>
        simp only [hi] at h
        split at h
        · simp at h
        · rename_i h3
          injection h with h
          refine ⟨by simpa [Region.inRange] using h1, by simpa using h2, ⟨op, rfl, fun r hr => ?_⟩, h.symm⟩
          simp only [List.any_eq_true, not_exists, not_and, Bool.not_eq_true] at h3
          exact h3 r hr

/-- Where the spec defines what a host read returns, it is the byte of memory (R53, R55, R56, R145). -/
theorem byteSeen_memory {s : State} {rd wr : List Region} {x : Nat} (k : Nat) (hw : ∀ q ∈ wr, q.has x = false)
    (h : (∃ q ∈ rd, q.has x = true) ∨ (x ∉ s.unobserved ∧ (s.plat.dmaCoherent = true ∨ x ∉ s.engDirty))) :
    byteSeen s rd wr k x = Memory.read s.mem x := by
  have hw' : (wr.any fun q => q.has x) = false := by simpa [List.any_eq_false] using hw
  unfold byteSeen
  rw [hw', if_neg Bool.false_ne_true]
  rcases h with h | ⟨hu, hd⟩
  · rw [if_pos (List.any_eq_true.mpr h)]
  · have hn : (s.unobserved.contains x || (!s.plat.dmaCoherent && s.engDirty.contains x)) = false := by
      rcases hd with hd | hd <;> simp [hu, hd]
    rw [hn, if_neg Bool.false_ne_true, ite_self]

/-- What a host read that is let through does (R53). -/
theorem hostLoad_next {a : Word} {n : Nat} {s t : State} (h : hostLoad a n s = .next t) :
    a.toNat + n ≤ Config.memorySize ∧ ∃ op, inFlight s = .ok op
      ∧ t = { s with
          memRead := (List.range n).map fun k => byteSeen s (liveReads op) (liveWrites op) (s.draws + k) (a.toNat + k)
          draws := s.draws + n } := by
  simp only [hostLoad] at h
  split at h
  · simp at h
  · rename_i h1
    split at h
    · simp at h
    · cases hi : inFlight s with
      | error why => simp [hi] at h
      | ok op =>
        simp only [hi] at h
        injection h with h
        exact ⟨by simpa [Region.inRange] using h1, op, rfl, h.symm⟩

/-- What a reset does (R139, R140). -/
theorem hostReset_next {s t : State} (h : hostReset s = .next t) :
    ∃ op, inFlight s = .ok op ∧ t = { State.reset with
      mem := scramble (abandoned s op) s.draws s.mem
      draws := s.draws + ((abandoned s op).map Region.len).sum
      unobserved := s.unobserved.filter fun x => !(abandoned s op).any fun q => q.has x
      engDirty := if s.plat.dmaCoherent then s.engDirty
        else (abandoned s op).flatMap Region.addrs ++ s.engDirty
      plat := s.plat, inbox := s.inbox, regRead := s.regRead, memRead := s.memRead, hostDirty := s.hostDirty } := by
  simp only [hostReset] at h
  cases hi : inFlight s with
  | error why => simp [hi] at h
  | ok op =>
    simp only [hi] at h
    injection h with h
    exact ⟨op, rfl, h.symm⟩

/-- Scrambling ranges inside the address space keeps the canonical form. -/
theorem wf_scramble {rs : List Region} {k : Nat} {m : List Host.Cell} (h : Memory.wf m)
    (hr : ∀ r ∈ rs, r.inRange = true) : Memory.wf (scramble rs k m) := by
  induction rs generalizing k m with
  | nil => exact h
  | cons r rs ih =>
    refine ih (wf_writeBytes h ?_) fun q hq => hr q (by simp [hq])
    have := hr r (by simp)
    simpa [Region.inRange, freeBytes] using this

/-- Scrambling leaves every byte outside the ranges as it was (R140). -/
theorem read_scramble {rs : List Region} {k : Nat} {m : List Host.Cell} (h : Memory.wf m)
    (hr : ∀ r ∈ rs, r.inRange = true) {a : Nat} (ha : ∀ r ∈ rs, r.has a = false) :
    Memory.read (scramble rs k m) a = Memory.read m a := by
  induction rs generalizing k m with
  | nil => rfl
  | cons r rs ih =>
    have hlen : r.base + (freeBytes k r.len).length ≤ Config.memorySize := by
      have := hr r (by simp)
      simpa [Region.inRange, freeBytes] using this
    rw [scramble, ih (wf_writeBytes h hlen) (fun q hq => hr q (by simp [hq])) (fun q hq => ha q (by simp [hq])),
      read_writeBytes h hlen]
    have := ha r (by simp)
    simp only [Region.has, Bool.and_eq_false_iff, decide_eq_false_iff_not] at this
    rw [if_neg]
    simp only [freeBytes, List.length_map, List.length_range]
    omega

/-- A step with events to come handles the first. -/
theorem step_cons {s : State} {e : Event} {rest : List Event} (h : s.inbox = e :: rest) :
    step s = handle e { s with inbox := rest } := by
  unfold step
  simp only [h]

/-- A step with nothing else to come is an engine step. -/
theorem step_nil {s : State} (h : s.inbox = []) : step s = engineStep s := by
  unfold step
  simp only [h]

end Sys2Proof.Laws
end

