-- ==== Sys2Proof/Laws/Rules.lean ====
section
/-! SUPPORT. Lemmas about the sixteen rules together (`ruleOf`): which of them give a tag, that none changes `eng.K`, and
what a command that gives a next state has done. -/

namespace Sys2Proof.Laws

open Sys2Proof.Machine

/-- Every meaning is `runRule` of the rule R90 selects. -/
theorem exec_eq_ruleOf (i : Instr) (s : State) : exec i s = runRule i (ruleOf Config.prim i) s := by
  cases i <;> rfl

/-- A validated command whose obligations hold gives the committed result of its rule. -/
theorem exec_next {i : Instr} {s : State} (hv : validate i s.eng.cfg = none)
    (ho : obligations i (outSpan s.eng.cfg (ruleResult i (ruleOf Config.prim i) s).1) s = none) :
    exec i s = .next (s.commit (ruleResult i (ruleOf Config.prim i) s)) := by
  rw [exec_eq_ruleOf]
  exact runRule_ready hv ho

/-- A validated command that gives a next state met its obligations and committed the result of its rule. -/
theorem exec_next_commit {i : Instr} {s t : State} (h : exec i s = .next t) (hv : validate i s.eng.cfg = none) :
    obligations i (outSpan s.eng.cfg (ruleResult i (ruleOf Config.prim i) s).1) s = none
      ∧ t = s.commit (ruleResult i (ruleOf Config.prim i) s) := by
  rw [exec_eq_ruleOf] at h
  rcases runRule_cases i (ruleOf Config.prim i) s with ⟨e, h1, _⟩ | ⟨_, why, _, h2⟩ | ⟨_, h1, h2⟩
  · rw [hv] at h1
    cases h1
  · rw [h2] at h
    cases h
  · rw [h2] at h
    injection h with h
    exact ⟨h1, h.symm⟩

/-- The output length R50 gives the end of `RUN` is that of the rule's result. -/
theorem endSpan_commit (r : Result × Dp) (s : State) : endSpan (s.commit r) = outSpan s.eng.cfg r.1 := by
  unfold State.commit
  cases r.1 with
  | ok out tout => rfl
  | fail e => cases e <;> rfl

theorem commit_eng_cfg (r : Result × Dp) (s : State) : (s.commit r).eng.cfg = s.eng.cfg := by
  unfold State.commit
  cases r.1 <;> rfl

theorem commit_eng_cmd (r : Result × Dp) (s : State) : (s.commit r).eng.cmd = s.eng.cmd := by
  unfold State.commit
  cases r.1 <;> rfl

/-- A validated command has a key of 16, 24 or 32 bytes (R89 test 4). -/
theorem validate_keyLen {i : Instr} {c : Params} (hv : validate i c = none) :
    c.keyLen.toNat = 16 ∨ c.keyLen.toNat = 24 ∨ c.keyLen.toNat = 32 := by
  by_contra hc
  revert hv
  unfold validate
  (repeat' split) <;> simp_all

/-! ## Which rules give a tag -/

/-- The result has no tag. -/
def NoTag (r : Result) : Prop := ∀ out tag, r ≠ .ok out (some tag)

theorem noTag_ok (out : Bytes) : NoTag (.ok out none) := fun _ _ h => by cases h

theorem noTag_fail (e : Err) : NoTag (.fail e) := fun _ _ h => by cases h

theorem noTag_ite (c : Prop) [Decidable c] (a b : Result × Dp) (ha : NoTag a.1) (hb : NoTag b.1) :
    NoTag (if c then a else b).1 := by
  split <;> assumption

/-- A rule gives a tag only for `CCM.ENC` and `GCM.ENC`, and then of at most 16 bytes (R91, R113). -/
theorem ruleOf_tag {P : Prim} {i : Instr} {o : Operands} {d : Dp} {out tag : Bytes}
    (h : (ruleOf P i o d).1 = .ok out (some tag)) : tag.length ≤ 16 ∧ writesTag i = true := by
  have no : NoTag (ruleOf P i o d).1 → tag.length ≤ 16 ∧ writesTag i = true := fun hn => absurd h (hn out tag)
  cases i with
  | ccmEnc _ _ _ =>
    injection h with _ h2
    injection h2 with h2
    subst h2
    exact ⟨by rw [length_xorBytes, length_msb]; simp [Config.tagBytes], rfl⟩
  | gcmEnc _ _ _ =>
    injection h with _ h2
    injection h2 with h2
    subst h2
    exact ⟨by rw [length_msb]; simp [Config.tagBytes], rfl⟩
  | ecbDec => exact no (by dsimp only [ruleOf, ecbDecRule]; exact noTag_ite _ _ _ (noTag_ok _) (noTag_fail _))
  | cbcDec => exact no (by dsimp only [ruleOf, cbcDecRule]; exact noTag_ite _ _ _ (noTag_ok _) (noTag_fail _))
  | ccmDec => exact no (by dsimp only [ruleOf, ccmDecRule]; exact noTag_ite _ _ _ (noTag_ok _) (noTag_fail _))
  | gcmDec => exact no (by dsimp only [ruleOf, gcmDecRule]; exact noTag_ite _ _ _ (noTag_ok _) (noTag_fail _))
  | ctsEnc => exact no (by dsimp only [ruleOf, ctsEncRule]; exact noTag_ite _ _ _ (noTag_ok _) (noTag_ok _))
  | ctsDec => exact no (by dsimp only [ruleOf, ctsDecRule]; exact noTag_ite _ _ _ (noTag_ok _) (noTag_ok _))
  | _ => exact no (noTag_ok _)

/-! ## No rule changes the key -/

theorem key_ite (k : Bytes) (c : Prop) [Decidable c] (a b : Result × Dp) (ha : a.2.key = k) (hb : b.2.key = k) :
    (if c then a else b).2.key = k := by
  split <;> assumption

theorem forBlocks_key {body : Nat → Bytes → Dp → Bytes × Dp} (hb : ∀ k b d, (body k b d).2.key = d.key) (k : Nat)
    (bs : List Bytes) (d : Dp) : (forBlocks body k bs d).2.key = d.key :=
  forBlocks_keeps (I := fun x => x.key = d.key) (fun k b e h => (hb k b e).trans h) _ _ _ rfl

theorem setJ0_key (n : Bytes) (d : Dp) : (Dp.setJ0 n d).key = d.key := by
  unfold Dp.setJ0
  split <;> simp [Dp.ghashInit]

theorem gcmSetup_key (P : Prim) (n : Bytes) (d : Dp) : (gcmSetup P n d).key = d.key := by
  rw [gcmSetup, setJ0_key]
  rfl

theorem gcmHash_key (a c : Bytes) (d : Dp) : (gcmHash a c d).key = d.key := by
  rw [gcmHash, ghashAbsorb_key, Dp.ghashAbsorbz, ghashBlocks_key, Dp.ghashAbsorbz, ghashBlocks_key]
  rfl

theorem gctr_key (P : Prim) (icb : Block) (b : Bytes) (d : Dp) : (gctr P icb b d).2.key = d.key :=
  forBlocks_key (by intros; rfl) _ _ _

/-- No rule changes `eng.K` (R69: "every primitive invocation of an operation uses the operation's key"). -/
theorem ruleOf_key (P : Prim) (i : Instr) (o : Operands) (d : Dp) : (ruleOf P i o d).2.key = d.key := by
  cases i with
  | ecbDec => dsimp only [ruleOf, ecbDecRule]; exact key_ite _ _ _ _ (forBlocks_key (by intros; rfl) _ _ _) rfl
  | cbcDec => dsimp only [ruleOf, cbcDecRule]; exact key_ite _ _ _ _ (forBlocks_key (by intros; rfl) _ _ _) rfl
  | ctsEnc => dsimp only [ruleOf, ctsEncRule]; exact key_ite _ _ _ _ rfl (forBlocks_key (by intros; rfl) _ _ _)
  | ctsDec => dsimp only [ruleOf, ctsDecRule]; exact key_ite _ _ _ _ rfl (forBlocks_key (by intros; rfl) _ _ _)
  | ccmEnc => exact (forBlocks_key (by intros; rfl) _ _ _).trans (forBlocks_key (by intros; rfl) _ _ _)
  | ccmDec =>
    dsimp only [ruleOf, ccmDecRule]
    have h : ∀ k bs j cs, (forBlocks (ccmPeekMacBody P) j cs (forBlocks (ccmPeekBody P o.iv) k bs
        { d with j0 := ccmCtr o.iv 0 }).2.macInit).2.key = d.key := fun _ _ _ _ =>
      (forBlocks_key (by intros; rfl) _ _ _).trans (forBlocks_key (by intros; rfl) _ _ _)
    exact key_ite _ _ _ _ ((forBlocks_key (by intros; rfl) _ _ _).trans (h _ _ _ _)) (h _ _ _ _)
  | gcmEnc =>
    show (gcmHash _ _ _).key = _
    rw [gcmHash_key, gctr_key, gcmSetup_key]
  | gcmDec =>
    have h : (gcmHash o.aad o.inp (gcmSetup P o.iv d)).key = d.key := by rw [gcmHash_key, gcmSetup_key]
    dsimp only [ruleOf, gcmDecRule]
    exact key_ite _ _ _ _ ((gctr_key _ _ _ _).trans h) h
  | _ => exact forBlocks_key (by intros; rfl) _ _ _

/-- Every command that gives a next state keeps the canonical form of memory. -/
theorem exec_wf {i : Instr} {s t : State} (hw : Memory.wf s.mem) (h : exec i s = .next t) : Memory.wf t.mem := by
  rcases exec_cases i s with ⟨_, _, hx⟩ | ⟨_, _, _, _, hx⟩ | ⟨hv, _, _, _⟩
  · rw [hx] at h
    injection h with h
    subst h
    exact hw
  · rw [hx] at h
    cases h
  · obtain ⟨ho, rfl⟩ := exec_next_commit h hv
    unfold State.commit
    cases hr : (ruleResult i (ruleOf Config.prim i) s).1 with
    | fail e => exact hw
    | ok out tout =>
      rw [hr] at ho
      refine wf_storeResult hw (dst_inRange ho) fun tag ht => ?_
      subst ht
      have h16 := ruleOf_tag hr
      have := tag_inRange ho h16.2
      omega

/-! ## The operation in progress -/

/-- With no operation that uses buffers in progress, none is in flight. -/
theorem inFlight_none {s : State} (h : NoOpInProgress s) : inFlight s = .ok none := by
  unfold inFlight
  rcases h with h | ⟨e, he⟩
  · simp only [h]
  · unfold checkCommand at he
    cases hd : decode s.eng.cmd with
    | error _ => cases hp : s.eng.phase <;> rfl
    | ok i =>
      simp only [hd] at he
      cases hp : s.eng.phase <;> simp [he]

/-- The operation in progress is the one in flight, up to the end of its `RUN`. -/
theorem inFlight_op {s t : State} {i : Instr} (h : OpInProgress s i t) : inFlight s = .ok (some (i, t)) := by
  obtain ⟨hd, hv, h⟩ := h
  unfold inFlight
  rcases h with ⟨hp | hp, hx⟩ | ⟨hp, rfl⟩
  · simp only [hp, hd, if_pos hv, hx]
  · simp only [hp, hd, if_pos hv, hx]
  · simp only [hp, hd, if_pos hv]

/-- The operation in flight uses the accepted parameters. -/
theorem opInProgress_cfg {s t : State} {i : Instr} (h : OpInProgress s i t) : t.eng.cfg = s.eng.cfg := by
  obtain ⟨-, hv, ⟨-, hx⟩ | ⟨-, rfl⟩⟩ := h
  · obtain ⟨-, rfl⟩ := exec_next_commit hx hv
    exact commit_eng_cfg _ _
  · rfl

end Sys2Proof.Laws
end

