-- ==== Sys2Proof/Machine/HostProgram.lean ====
section
/-! DEFINITION. The host program notation of 30_encoding.md R68: lines, pseudo-instructions and their expansion into the
events of the inbox. -/

namespace Sys2Proof.Machine

/-- The register names of 10_state.md R23. -/
inductive RegName where
  | cmd | status | irqEn | keyAddr | keyLen | ivAddr | ivLen | aadAddr | aadLen | srcAddr | srcLen
  | dstAddr | tagAddr | outLen
  deriving DecidableEq, Repr

/-- The `<X>` of `BUF <X>` (R68). -/
inductive BufName where
  | key | iv | aad | src
  deriving DecidableEq, Repr

/-- A line of a host program (R68). -/
inductive HostLine where
  | wr (reg : RegName) (value : Word)
  | rd (reg : RegName)
  | mem (addr : Word) (bytes : Bytes)
  | start (command : Command)
  | buf (name : BufName) (addr len : Word)
  | out (addr : Word)
  | tagbuf (addr : Word)
  | waitDone
  | clrDone
  deriving DecidableEq, Repr

/-- The offset of a register (R23). -/
def regOffset : RegName → Nat
  | .cmd => 0x00 | .status => 0x04 | .irqEn => 0x08 | .keyAddr => 0x0C | .keyLen => 0x10
  | .ivAddr => 0x14 | .ivLen => 0x18 | .aadAddr => 0x1C | .aadLen => 0x20 | .srcAddr => 0x24
  | .srcLen => 0x28 | .dstAddr => 0x2C | .tagAddr => 0x30 | .outLen => 0x34

/-- `WR <REG>, <v32>` as an event. -/
def wrEvent (r : RegName) (v : Word) : Event := .regWrite 32 (regOffset r) v

/-- The address and length registers of `BUF <X>` (R68). -/
def bufRegs : BufName → RegName × RegName
  | .key => (.keyAddr, .keyLen)
  | .iv => (.ivAddr, .ivLen)
  | .aad => (.aadAddr, .aadLen)
  | .src => (.srcAddr, .srcLen)

/-- The events a line stands for (R68). -/
def HostLine.expand : HostLine → List Event
  | .wr r v => [wrEvent r v]
  | .rd r => [.regRead 32 (regOffset r)]
  | .mem a bs => [.store a bs]
  | .start c => [wrEvent .cmd c.enc]
  | .buf x a n => [wrEvent (bufRegs x).1 a, wrEvent (bufRegs x).2 n]
  | .out a => [wrEvent .dstAddr a]
  | .tagbuf a => [wrEvent .tagAddr a]
  | .waitDone => [.waitDone]
  | .clrDone => [wrEvent .status 2]

/-- The events of a host program. -/
def expandProgram (p : List HostLine) : List Event := p.flatMap HostLine.expand

end Sys2Proof.Machine
end

