-- ==== Sys2Proof/Machine/Toy.lean ====
section
/-! DEFINITION. The test primitive `TOY` of 00_scope.md R7: not this hardware's primitive, used by the tests alone. -/

namespace Sys2Proof.Machine

/-- `Kf(K) = K[0..16) xor padr(K[16..|K|))`. -/
def toyKf (k : Bytes) : Block := blockOf (slice 0 16 k) ^^^ blockOf (k.drop 16 ++ zeros (16 - (k.length - 16)))

/-- `rotl1(Y) = Y[1..16) || Y[0..1)`. -/
def rotl1 (y : Block) : Block := y.extractLsb' 0 120 ++ y.extractLsb' 120 8

/-- `rotr1(Y) = Y[15..16) || Y[0..15)`. -/
def rotr1 (y : Block) : Block := y.extractLsb' 0 8 ++ y.extractLsb' 8 120

/-- A bit of `rotl1(Y)`. -/
theorem getLsbD_rotl1 (y : Block) (k : Nat) :
    (rotl1 y).getLsbD k = if k < 8 then y.getLsbD (120 + k) else (decide (k < 128) && y.getLsbD (k - 8)) := by
  rw [rotl1, BitVec.getLsbD_append, BitVec.getLsbD_extractLsb', BitVec.getLsbD_extractLsb']
  by_cases h : k < 8 <;> simp [h]
  grind

/-- A bit of `rotr1(Y)`. -/
theorem getLsbD_rotr1 (y : Block) (k : Nat) :
    (rotr1 y).getLsbD k = if k < 120 then y.getLsbD (8 + k) else (decide (k < 128) && y.getLsbD (k - 120)) := by
  rw [rotr1, BitVec.getLsbD_append, BitVec.getLsbD_extractLsb', BitVec.getLsbD_extractLsb']
  by_cases h : k < 120 <;> simp [h]
  grind

theorem rotr1_rotl1 (y : Block) : rotr1 (rotl1 y) = y := by
  refine BitVec.eq_of_getLsbD_eq fun k hk => ?_
  rw [getLsbD_rotr1, getLsbD_rotl1, getLsbD_rotl1]
  grind

theorem rotl1_rotr1 (y : Block) : rotl1 (rotr1 y) = y := by
  refine BitVec.eq_of_getLsbD_eq fun k hk => ?_
  rw [getLsbD_rotl1, getLsbD_rotr1, getLsbD_rotr1]
  grind

/-- `TOY`: `ENC_TOY(K, X) = rotl1(X xor Kf(K))`, `DEC_TOY(K, Y) = rotr1(Y) xor Kf(K)`. -/
def toy : Prim := fun k =>
  { toFun := fun x => rotl1 (x ^^^ toyKf k)
    invFun := fun y => rotr1 y ^^^ toyKf k
    left_inv := fun x => by
      show rotr1 (rotl1 (x ^^^ toyKf k)) ^^^ toyKf k = x
      rw [rotr1_rotl1, BitVec.xor_assoc, BitVec.xor_self, BitVec.xor_zero]
    right_inv := fun y => by
      show rotl1 (rotr1 y ^^^ toyKf k ^^^ toyKf k) = y
      rw [BitVec.xor_assoc, BitVec.xor_self, BitVec.xor_zero, rotl1_rotr1] }

end Sys2Proof.Machine
end

