-- ==== Sys2Proof/Tests/Slice0.lean ====
section
/-! SUPPORT. The model's own tests. Expected values are those of 95_test_vectors.md (the vector is named), or written out from
the rule named. Then, for every statement with hypotheses, a witness that meets them. -/

namespace Sys2Proof.Tests

-- One theorem at a time: the many small evaluations below would otherwise each hold a thread's stack.
set_option Elab.async false

open Sys2Proof.Machine Sys2Proof.Laws

/-! ## Well-formedness: each check refuses an ill-formed term -/

/-- R64: every mode but ECB requires `IVP`. -/
theorem test_wf_iv_missing : (Instr.cbcEnc false false false).wellFormed = false := by decide
/-- R64: AEAD decryption requires `TAGP`. -/
theorem test_wf_tag_missing : (Instr.gcmDec true true false).wellFormed = false := by decide
theorem test_wf_accepts : (Instr.gcmDec true true true).wellFormed = true
    ∧ (Instr.ecbEnc false false false).wellFormed = true := by decide
/-- R67: each flag at most once. -/
theorem test_wf_flag_twice : (Command.mk .gcm .enc [.iv, .aad, .iv]).wellFormed = false := by decide

/-! ## Decoding: one word of each command, bit by bit from R61 and R63 (31..8 zero, TAGP AADP IVP DIR, MODE) -/

theorem test_decode_ecbEnc : decode 0b000000000000000000000000_0_0_0_0_0000#32 = .ok (.ecbEnc false false false) := by decide
theorem test_decode_ecbDec : decode 0b000000000000000000000000_1_0_0_1_0000#32 = .ok (.ecbDec false false true) := by decide
theorem test_decode_cbcEnc : decode 0b000000000000000000000000_0_0_1_0_0001#32 = .ok (.cbcEnc true false false) := by decide
theorem test_decode_cbcDec : decode 0b000000000000000000000000_0_1_0_1_0001#32 = .ok (.cbcDec false true false) := by decide
theorem test_decode_cfbEnc : decode 0b000000000000000000000000_0_0_1_0_0010#32 = .ok (.cfbEnc true false false) := by decide
theorem test_decode_cfbDec : decode 0b000000000000000000000000_0_0_1_1_0010#32 = .ok (.cfbDec true false false) := by decide
theorem test_decode_ofbEnc : decode 0b000000000000000000000000_1_0_1_0_0011#32 = .ok (.ofbEnc true false true) := by decide
theorem test_decode_ofbDec : decode 0b000000000000000000000000_0_0_1_1_0011#32 = .ok (.ofbDec true false false) := by decide
theorem test_decode_ctrEnc : decode 0b000000000000000000000000_0_0_1_0_0100#32 = .ok (.ctrEnc true false false) := by decide
theorem test_decode_ctrDec : decode 0b000000000000000000000000_0_0_1_1_0100#32 = .ok (.ctrDec true false false) := by decide
theorem test_decode_ctsEnc : decode 0b000000000000000000000000_0_0_1_0_0101#32 = .ok (.ctsEnc true false false) := by decide
theorem test_decode_ctsDec : decode 0b000000000000000000000000_0_1_1_1_0101#32 = .ok (.ctsDec true true false) := by decide
theorem test_decode_ccmEnc : decode 0b000000000000000000000000_0_1_1_0_0110#32 = .ok (.ccmEnc true true false) := by decide
theorem test_decode_ccmDec : decode 0b000000000000000000000000_1_0_1_1_0110#32 = .ok (.ccmDec true false true) := by decide
theorem test_decode_gcmEnc : decode 0b000000000000000000000000_0_1_1_0_0111#32 = .ok (.gcmEnc true true false) := by decide
theorem test_decode_gcmDec : decode 0b000000000000000000000000_1_1_1_1_0111#32 = .ok (.gcmDec true true true) := by decide
/-- R66: each reserved bit, and each of the modes 8..15. -/
theorem test_decode_reserved :
    ((List.range 24).all fun k => decode (BitVec.ofNat 32 (2 ^ (k + 8))) == .error .reservedBits)
    ∧ ((List.range 8).all fun k => decode (BitVec.ofNat 32 (k + 8)) == .error .reservedMode) := by decide
/-- The rows of spec/opcode_table.json, as the host asks for them. -/
theorem test_table_words : decodeTableWord 32 0x00000016 = some (.ccmDec false false false)
    ∧ decodeTableWord 32 0x00000100 = none := by decide
/-- R67: the six examples of the command syntax, from the written form. -/
theorem test_enc_examples :
    (Command.mk .gcm .dec [.iv, .aad, .tag]).enc = 0x000000F7#32 ∧ (Command.mk .ccm .dec [.tag, .iv]).enc = 0x000000B6#32
    ∧ (Command.mk .ctr .dec [.iv]).enc = 0x00000034#32 ∧ (Command.mk .ecb .enc []).enc = 0x00000000#32 := by decide

/-! ## The datapath units (95_test_vectors.md sections 2 and 4) -/

def hex (n x : Nat) : Bytes := be n x
def key : Bytes := hex 16 0x2b7e151628aed2a6abf7158809cf4f3c
def iv16 : Bytes := hex 16 0x000102030405060708090a0b0c0d0e0f
def p20 : Bytes := hex 20 0x6bc1bee22e409f96e93d7e117393172aae2d8a57
def p11 : Bytes := hex 11 0x68656c6c6f20776f726c64
def n12 : Bytes := hex 12 0x101112131415161718191a1b
def aad8 : Bytes := hex 8 0x0001020304050607

/-- U-4 and U-2. -/
theorem test_counters_wrap : inc32 0xcafebabefacedbaddecaf888ffffffff#128 = 0xcafebabefacedbaddecaf88800000000#128
    ∧ inc128 0xffffffffffffffffffffffffffffffff#128 = 0 := by decide
/-- U-8 and U-6. -/
theorem test_gfMul : gfMul 1#128 0x40000000000000000000000000000000#128 = 0xe1000000000000000000000000000000#128
    ∧ gfMul 0x6bc1bee22e409f96e93d7e117393172a#128 0x80000000000000000000000000000000#128
      = 0x6bc1bee22e409f96e93d7e117393172a#128 := by decide +kernel
/-- TC2 of section 3.3: `C • H`. -/
theorem test_gfMul_tc2 : gfMul 0x0388dace60b6a392f328c2b971b2fe78#128 0x66e94bd4ef8a2c3b884cfa59ca342b2e#128
    = 0x5e2ec746917062882c85b0685353deb7#128 := by decide +kernel
/-- U-11, U-17, U-16, U-15. -/
theorem test_padding : pad p11 = hex 16 0x68656c6c6f20776f726c640505050505 ∧ padOk (hex 16 0x0302) = false
    ∧ unpad (hex 16 0x0202) = zeros 14 ∧ padOk (hex 16 0x11) = false := by decide +kernel
/-- U-20. -/
theorem test_ccmFormat : ccmFormat n12 aad8 p20 =
    hex 64 0x7a101112131415161718191a1b00001400080001020304050607000000000000_6bc1bee22e409f96e93d7e117393172aae2d8a57000000000000000000000000 := by
  decide +kernel
/-- U-22, and U-23's `ctr_1`. -/
theorem test_ccm_blocks : ccmB0 (hex 7 0x10111213141516) [] 0 = hex 16 0x3f101112131415160000000000000000
    ∧ ccmCtr n12 1 = 0x02101112131415161718191a1b000001#128 := by decide +kernel
/-- R82: the AAD length below 65280, from there on, and at 2^32 - 1. -/
theorem test_alen : alen 65279 = hex 2 0xfeff ∧ alen 65280 = hex 6 0xfffe0000ff00
    ∧ alen 4294967295 = hex 6 0xfffeffffffff := by decide +kernel
/-- TOY-3 and TOY-4. -/
theorem test_toy : toy key 0x000102030405060708090a0b0c0d0e0f#128 = 0x7f17152cabd4a1a3fe1f8305c241332b#128
    ∧ (toy key).symm 0x7f17152cabd4a1a3fe1f8305c241332b#128 = 0x000102030405060708090a0b0c0d0e0f#128 := by decide +kernel

/-! ## The commands, with the test primitive `TOY` (sections 5 and 6) -/

def ops (iv aad inp tin : Bytes) : Operands := { key := key, iv := iv, aad := aad, inp := inp, tin := tin }
def d0 : Dp := Dp.zero.start key

/-- ECB-2. -/
theorem test_ecbEnc : (ecbEncRule toy (ops [] [] p11 []) d0).1
    = .ok (hex 16 0x1b797a478ea5c9d99b718d0cca4a3943) none := by decide +kernel
/-- ECB-4 back. -/
theorem test_ecbDec : (ecbDecRule toy (ops [] [] (hex 48
      0xbfabf406ee4d3042ca6b997a5c581640539f4136ad7e3a35407a244c60c16d856e050638bec2b6bbe7059819df5f2c3b) []) d0).1
    = .ok (hex 32 0x6bc1bee22e409f96e93d7e117393172aae2d8a571e03ac9c9eb76fac45af8e51) none := by decide +kernel
/-- ECB-7. -/
theorem test_ecbDec_padding : (ecbDecRule toy (ops [] [] (hex 16 0x7e151628aed2a6abf7158809cf4c3e2b) []) d0).1
    = .fail .invalidPadding := by decide +kernel
/-- CBC-2. -/
theorem test_cbcEnc : (cbcEncRule toy (ops iv16 [] p20 []) d0).1
    = .ok (hex 32 0xbea9f702eb4b374ac361927651561940fa6843cfe9e9e0649a8bf254955a703b) none := by decide +kernel
/-- CBC-6: a changed byte 0 is copied into both blocks. -/
theorem test_cbcDec : (cbcDecRule toy (ops iv16 []
      (hex 32 0xbfa9f702eb4b374ac361927651561940fa6843cfe9e9e0649a8bf254955a703b) []) d0).1
    = .ok (hex 20 0x6bc0bee22e409f96e93d7e117393172aaf2d8a57) none := by decide +kernel
/-- CBC-4. -/
theorem test_cbcDec_padding : (cbcDecRule toy (ops iv16 []
      (hex 32 0xbea9f702eb4b374ac361927651561941fa6843cfe9e9e0649a8bf254955a703b) []) d0).1
    = .fail .invalidPadding := by decide +kernel
/-- CFB-1. -/
theorem test_cfbEnc : (cfbEncRule toy (ops iv16 [] p20 []) d0).1
    = .ok (hex 20 0x14d6abce85943e351722fd14b1d22401069352fa) none := by decide +kernel
/-- CFB-1 back. -/
theorem test_cfbDec : (cfbDecRule toy (ops iv16 [] (hex 20 0x14d6abce85943e351722fd14b1d22401069352fa) []) d0).1
    = .ok p20 none := by decide +kernel
/-- OFB-1. -/
theorem test_ofbEnc : (ofbEncRule toy (ops iv16 [] p20 []) d0).1
    = .ok (hex 20 0x14d6abce85943e351722fd14b1d22401c72db0d4) none := by decide +kernel
/-- OFB-1 back. -/
theorem test_ofbDec : (ofbDecRule toy (ops iv16 [] (hex 20 0x14d6abce85943e351722fd14b1d22401c72db0d4) []) d0).1
    = .ok p20 none := by decide +kernel
/-- CTR-3: the counter wraps. -/
theorem test_ctrEnc : (ctrEncRule toy (ops (rep 0xff 16) [] p20 []) d0).1
    = .ok (hex 20 0xea2b57357f6dc6c2e1d709e74323d4fed0389c7f) none := by decide +kernel
/-- CTR-1 back. -/
theorem test_ctrDec : (ctrDecRule toy (ops iv16 [] (hex 20 0x14d6abce85943e351722fd14b1d22401d13a9f7b) []) d0).1
    = .ok p20 none := by decide +kernel
/-- CTS-3. -/
theorem test_ctsEnc : (ctsEncRule toy (ops iv16 [] p20 []) d0).1
    = .ok (hex 20 0xfa6843c3e5e5ec689687fe5899567c3bbea9f702) none := by decide +kernel
/-- CTS-1: one block is accepted (90_conflicts.md C1). -/
theorem test_ctsEnc_one_block : (ctsEncRule toy (ops iv16 [] (hex 16 0x6bc1bee22e409f96e93d7e117393172a) []) d0).1
    = .ok (hex 16 0xbea9f702eb4b374ac361927651561940) none := by decide +kernel
/-- CTS-8 back. -/
theorem test_ctsDec : (ctsDecRule toy (ops iv16 []
      (hex 40 0xbea9f702eb4b374ac361927651561940d7e829e0a73dc68a1f47953f176207bafa6843dde64970f6) []) d0).1
    = .ok (hex 40 0x6bc1bee22e409f96e93d7e117393172aae2d8a571e03ac9c9eb76fac45af8e516bc1bee22e409f96) none := by
  decide +kernel
/-- CCM-1. -/
theorem test_ccmEnc : (ccmEncRule toy (ops n12 aad8 p20 []) d0).1
    = .ok (hex 20 0x05c5bad994872f2a0631ec03bcdc2a03c0298e6c)
      (some (hex 16 0xbaff299b4667a85ae946e02035533202)) := by decide +kernel
/-- CCM-6. -/
theorem test_ccmDec : (ccmDecRule toy (ops n12 aad8 (hex 20 0x05c5bad994872f2a0631ec03bcdc2a03c0298e6c)
      (hex 16 0xbaff299b4667a85ae946e02035533202)) d0).1 = .ok p20 none := by decide +kernel
/-- CCM-4. -/
theorem test_ccmDec_tag : (ccmDecRule toy (ops n12 aad8 (hex 20 0x05c5bad994872f2a0631ec03bcdc2a03c0298e6c)
      (hex 16 0xbaff299b4667a85ae946e02035533282)) d0).1 = .fail .integrityError := by decide +kernel
/-- GCM-3: a 1-byte nonce. -/
theorem test_gcmEnc : (gcmEncRule toy (ops [1] [] p20 []) d0).1
    = .ok (hex 20 0x6a3eabc5e091b393f4019faa41236041afd29f70)
      (some (hex 16 0x0ed5fe27c0a4a9dbfc391694434193e7)) := by decide +kernel
/-- GCM-5. -/
theorem test_gcmDec : (gcmDecRule toy (ops n12 aad8 (hex 20 0x04c6bbde95842e250732ed18bcdc2911c12a8f6b)
      (hex 16 0xe5b7dc636169899bb1291fcc748a9b2d)) d0).1 = .ok p20 none := by decide +kernel
/-- GCM-4. -/
theorem test_gcmDec_tag : (gcmDecRule toy (ops n12 aad8 (hex 20 0x05c6bbde95842e250732ed18bcdc2911c12a8f6b)
      (hex 16 0xe5b7dc636169899bb1291fcc748a9b2d)) d0).1 = .fail .integrityError := by decide +kernel
/-- T-5 and T-9: one `DEC` when the padding fails, nine `ENC` for CCM-6. -/
theorem test_counts : (ecbDecRule toy (ops [] [] (zeros 32) []) d0).2.work = [.dec]
    ∧ (ccmDecRule toy (ops n12 aad8 (hex 20 0x05c5bad994872f2a0631ec03bcdc2a03c0298e6c)
      (hex 16 0xbaff299b4667a85ae946e02035533202)) d0).2.work = List.replicate 9 .enc := by decide +kernel

/-! ## Validation (section 7) -/

/-- ERR-1 to ERR-13: the first test that holds gives the error. -/
theorem test_validation_errors :
    checkCommand 0x108 (lengths 0 0 0) = some .illegalCommand ∧ checkCommand 0x9 (lengths 16 16 16) = some .illegalCommand
    ∧ checkCommand 0x1 (lengths 15 16 16) = some .missingRequiredParameter
    ∧ checkCommand 0x37 (lengths 16 12 16) = some .missingRequiredParameter
    ∧ checkCommand 0x21 (lengths 20 12 16) = some .invalidKeyLength
    ∧ checkCommand 0x25 (lengths 32 12 4) = some .invalidIVLength
    ∧ checkCommand 0x25 (lengths 24 16 15) = some .shortInputForCTS
    ∧ checkCommand 0x26 (lengths 16 6 0) = some .invalidIVLength ∧ checkCommand 0x26 (lengths 16 14 0) = some .invalidIVLength
    ∧ checkCommand 0x26 (lengths 16 13 65536) = some .invalidIVLength
    ∧ checkCommand 0x26 (lengths 16 12 (2 ^ 24)) = some .invalidIVLength := by decide
/-- ERR-15 to ERR-25. -/
theorem test_validation_more :
    checkCommand 0x27 (lengths 16 0 0) = some .invalidIVLength ∧ checkCommand 0x10 (lengths 16 0 0) = some .invalidPadding
    ∧ checkCommand 0x10 (lengths 16 0 17) = some .invalidPadding ∧ checkCommand 0x10 (lengths 17 0 17) = some .invalidKeyLength
    ∧ checkCommand 0x31 (lengths 16 16 0) = some .invalidPadding
    ∧ checkCommand 0x96 (lengths 16 13 0) = some .missingRequiredParameter := by decide
/-- ERR-8, 12, 14, 16, 20, 21, 23, 24. -/
theorem test_validation_passes :
    checkCommand 0x25 (lengths 24 16 16) = none ∧ checkCommand 0x26 (lengths 16 13 65535) = none
    ∧ checkCommand 0x26 (lengths 16 7 0xFFFFFFFF) = none ∧ checkCommand 0x27 (lengths 16 1 0) = none
    ∧ checkCommand 0x0 (lengths 16 5 0) = none ∧ checkCommand 0xE0 (lengths 16 0 5) = none
    ∧ checkCommand 0x22 (lengths 16 16 0) = none ∧ checkCommand 0xB6 (lengths 16 13 0) = none := by decide

/-! ## One step of the machine -/

/-- The next state, where there is one. -/
def nextOf (o : Host.Outcome State Fault Refusal) : Option State :=
  match o with
  | .next t => some t
  | _ => none

/-- P1, line `START CBC.ENC iv`: `BUSY = 1`, `CMD` stored, phase CHECK (R88). -/
theorem test_accept : ((nextOf (step { State.reset with inbox := [.regWrite 32 0 0x21] })).map
    fun t => (t.statusWord, t.cmd, t.eng.phase)) = some (1, 0x21, .check) := by decide
/-- P2, line `CLRDONE`: 0x52 becomes 0x50 (R27, R26). -/
theorem test_clear_done : ((nextOf (step { State.reset with done := true, err := 5, inbox := [.regWrite 32 4 2] })).map
    fun t => (t.statusWord, t.irq)) = some (0x50, false) := by decide
/-- P5: `RD STATUS` while busy (R26), and a write to `SRC_LEN` that is ignored (R32). -/
theorem test_busy_port :
    ((nextOf (step { State.reset with busy := true, inbox := [.regRead 32 4] })).map (·.regRead)) = some 1
    ∧ ((nextOf (step { State.reset with busy := true, inbox := [.regWrite 32 0x28 7] })).map (·.par)) = some Params.zero := by
  decide
/-- R22: a 16-bit access, and an offset that is not a multiple of 4. -/
theorem test_bad_access : step { State.reset with inbox := [.regRead 16 0] } = .refused .registerAccess
    ∧ step { State.reset with inbox := [.regWrite 32 2 0] } = .refused .registerAccess := ⟨rfl, rfl⟩
/-- R139: reset in the middle of an acceptance. -/
theorem test_reset_event : ((nextOf (step { State.reset with
      cmd := 0x108, busy := true, doneIe := true, inbox := [.reset], eng := { Engine.reset with phase := .check, cmd := 0x108 } })).map
    fun t => (t.statusWord, t.cmd, t.doneIe, t.eng.phase)) = some (0, 0, false, .idle) := by decide
/-- R39: a host store past the last address faults. -/
theorem test_store_past_end : step { State.reset with inbox := [.store 0xFFFFFFFF [1, 2]] } = .fault .outsideAddressSpace := rfl
/-- R45, R43: a host store and the byte order of what is read back. -/
theorem test_store_load : ((nextOf (step { State.reset with inbox := [.store 0x10 [1, 0, 3]] })).map
    fun t => (t.mem, Memory.readBytes t.mem 0xF 4)) = some ([(0x10, 1), (0x12, 3)], [0, 1, 0, 3]) := by decide +kernel
/-- R54: with `DMA_COHERENT = false` a host store that acceptance finds not visible stays so, whatever maintenance follows. -/
theorem test_maintain_after_acceptance :
    let s : State := { State.reset with plat := { Platform.plain with dmaCoherent := false }, hostDirty := [0x100] }
    let t := (s.accept 0x21)
    (nextOf (handle .maintain t)).map (fun u => (u.hostDirty, u.eng.stale)) = some ([], [0x100])
    ∧ ((nextOf (handle .maintain s)).map fun u => (u.accept 0x21).eng.stale) = some [] := by decide
/-- R145: an engine store reads as any value before the host has observed `DONE = 1`, and as stored after it. -/
theorem test_observation :
    let s : State := { State.reset with done := true, mem := [(0x200, 5)], unobserved := [0x200] }
    (nextOf (handle (.load 0x200 1) s)).map (·.memRead) = some [Config.freeByte 0]
    ∧ ((nextOf (handle (.regRead 32 4) s)).bind fun t => (nextOf (handle (.load 0x200 1) t)).map (·.memRead))
      = some [5] := ⟨rfl, by decide⟩
/-- CTR over the byte at 0x100, in FINISH with one byte written at 0x200, on a platform without coherence; the host has observed
the earlier engine store to neither. -/
def wBusy : State :=
  let c : Params := { lengths 16 16 1 with srcAddr := 0x100, dstAddr := 0x200 }
  { State.reset with
    busy := true, par := c, mem := [(0x100, 7), (0x200, 5)], plat := { Platform.plain with dmaCoherent := false }
    unobserved := [0x100, 0x200], engDirty := [0x100]
    eng := { Engine.reset with
      phase := .finish, cmd := encode (.ctrEnc true false false), cfg := c, dp := { Dp.zero with out := [5] } } }
/-- R53, R56: while BUSY = 1 an input byte reads as in memory, without coherence and unobserved too, and an output byte does not. -/
theorem test_input_byte_while_busy :
    (nextOf (handle (.load 0x100 1) wBusy)).map (·.memRead) = some [7]
    ∧ (nextOf (handle (.load 0x200 1) wBusy)).map (·.memRead) = some [Config.freeByte 0] := ⟨by decide, rfl⟩
/-- Every table word placed after reset is decoded and run: `KEY_LEN` is 0 (R89 test 4), and without `IVP` the modes after
ECB end in test 2. -/
theorem test_placed_words_run :
    ([0x00, 0x10].all fun w => decide ((nextOf (step (State.reset.withFetchWord 32 w))).map (·.eng.res)
      = some (some .invalidKeyLength)))
    ∧ ([0x01, 0x02, 0x03, 0x04, 0x05, 0x06, 0x07, 0x11, 0x12, 0x13, 0x14, 0x15, 0x16, 0x17].all fun w =>
      decide ((nextOf (step (State.reset.withFetchWord 32 w))).map (·.eng.res) = some (some .missingRequiredParameter))) := by
  decide
/-- R68: `BUF KEY, 1000, 10`, `START CBC.ENC iv`, `CLRDONE` and `RD OUT_LEN`. -/
theorem test_program_expands :
    expandProgram [.buf .key 0x1000 0x10, .start ⟨.cbc, .enc, [.iv]⟩, .clrDone, .rd .outLen]
    = [.regWrite 32 0x0C 0x1000, .regWrite 32 0x10 0x10, .regWrite 32 0 0x21, .regWrite 32 4 2, .regRead 32 0x34] := by
  decide

/-! ## Witnesses: for every statement with hypotheses, states and operands that meet them -/

/-- Parameters with the key and the IV in zero bytes at address 0, payload at 0x100, output at 0x200, tag at 0x300. -/
def wCfg (ivLen srcLen : Word) : Params :=
  { keyAddr := 0, keyLen := 16, ivAddr := 0, ivLen := ivLen, aadAddr := 0, aadLen := 0
    srcAddr := 0x100, srcLen := srcLen, dstAddr := 0x200, tagAddr := 0x300 }

/-- The command `i` in progress in phase `p`. -/
def wOp (p : Phase) (i : Instr) (ivLen srcLen : Word) (m : List Host.Cell) : State :=
  { State.reset with
    cmd := encode i, busy := true, par := wCfg ivLen srcLen, mem := m
    eng := { Engine.reset with phase := p, cmd := encode i, cfg := wCfg ivLen srcLen } }

abbrev wRun := wOp .run

/-- Idle, after a completed operation. -/
def wIdle : State := { State.reset with done := true, outLen := 7 }

def ctr : Instr := .ctrEnc true false false

/-- CTR over one byte gives a next state, in CHECK's look ahead and in RUN. -/
theorem wCtr_exec (p : Phase) : ∃ t, exec ctr (wOp p ctr 16 1 []) = .next t :=
  ⟨_, exec_next (by cases p <;> decide) (by cases p <;> decide +kernel)⟩

theorem wCtr_inv : (wRun ctr 16 1 []).Inv where
  memWf := wf_nil
  busyIff := by decide
  notBoth := by decide
  busyClear := by decide
  cmdHeld := rfl
  cfgHeld := fun _ => rfl
  quietZero := fun _ => rfl
  keyLen := by decide
  idleErr := fun h => absurd h (by decide)
  pending := fun _ => rfl
  runValid := fun _ => by decide
  finishRange := fun h => absurd h (by decide)

theorem wIdle_inv : wIdle.Inv where
  memWf := wf_nil
  busyIff := by decide
  notBoth := by decide
  busyClear := by decide
  cmdHeld := rfl
  cfgHeld := by decide
  quietZero := fun _ => rfl
  keyLen := by decide
  idleErr := fun _ => rfl
  pending := by decide
  runValid := by decide
  finishRange := fun h => absurd h (by decide)

theorem witness_StepRunsDecodedCommand :
    ((wRun ctr 16 1 []).eng.phase = .run ∧ (wRun ctr 16 1 []).eng.left = 0
      ∧ decode (wRun ctr 16 1 []).eng.cmd = .ok ctr ∧ (wRun ctr 16 1 []).inbox = [])
    ∧ ({ wRun ctr 16 1 [] with inbox := [.engine, .reset] } : State).inbox = .engine :: [.reset] := by decide

/-- A command in CHECK that fails validation (mode 8), and one that passes. -/
def wFail : State := { wOp .check ctr 16 1 [] with
  cmd := 8, eng := { Engine.reset with phase := .check, cmd := 8, cfg := wCfg 16 1 } }

theorem witness_CheckStepValidatesTheCommand :
    (wFail.inbox = [] ∧ wFail.eng.phase = .check ∧ checkCommand wFail.eng.cmd wFail.eng.cfg = some .illegalCommand)
    ∧ ((wOp .check ctr 16 1 []).inbox = [] ∧ (wOp .check ctr 16 1 []).eng.phase = .check
      ∧ decode (wOp .check ctr 16 1 []).eng.cmd = .ok ctr ∧ validate ctr (wOp .check ctr 16 1 []).eng.cfg = none
      ∧ ∃ t, exec ctr (wOp .check ctr 16 1 []) = .next t) :=
  ⟨by decide, by decide, by decide, by decide, by decide, wCtr_exec _⟩

theorem witness_FinishStepCompletesTheOperation :
    let s := wOp .finish ctr 16 1 []
    let f : State := { s with eng := { s.eng with res := some .integrityError } }
    (s.inbox = [] ∧ s.eng.phase = .finish ∧ s.eng.res = none)
    ∧ (f.inbox = [] ∧ f.eng.phase = .finish ∧ f.eng.res = some .integrityError) := by decide

theorem witness_IdleAndEarlierRunSteps :
    (wIdle.inbox = [] ∧ wIdle.eng.phase = .idle)
    ∧ (let s := wRun ctr 16 1 []
      let t : State := { s with eng := { s.eng with left := 3 } }
      t.inbox = [] ∧ t.eng.phase = .run ∧ t.eng.left = 2 + 1) := by decide

theorem witness_EveryStepKeepsTheInvariant :
    (wRun ctr 16 1 []).Inv ∧ ∃ t, step (wRun ctr 16 1 []) = .next t :=
  ⟨wCtr_inv, wCtr_exec .run⟩

/-- CTR over one byte is in progress in CHECK, RUN and FINISH, with an output buffer of at most one byte at 0x200. -/
theorem wCtr_op (p : Phase) (hp : p ≠ .idle) : ∃ t, OpInProgress (wOp p ctr 16 1 []) ctr t := by
  cases p with
  | idle => exact absurd rfl hp
  | check =>
    obtain ⟨t, ht⟩ := wCtr_exec .check
    exact ⟨t, by decide, by decide, .inl ⟨.inl rfl, ht⟩⟩
  | run =>
    obtain ⟨t, ht⟩ := wCtr_exec .run
    exact ⟨t, by decide, by decide, .inl ⟨.inr rfl, ht⟩⟩
  | finish => exact ⟨_, by decide, by decide, .inr ⟨rfl, rfl⟩⟩

/-- The output span of that operation. -/
theorem wCtr_span {p : Phase} {t : State} (h : OpInProgress (wOp p ctr 16 1 []) ctr t) : endSpan t ≤ 1 := by
  obtain ⟨-, hv, ⟨-, hx⟩ | ⟨-, rfl⟩⟩ := h
  · have h1 := exec_next (i := ctr) (s := wOp p ctr 16 1 []) hv (by cases p <;> decide +kernel)
    rw [h1] at hx
    injection hx with hx
    subst hx
    rw [endSpan_commit]
    cases p <;> exact Nat.le_refl 1
  · cases p <;> decide

theorem wFail_noOp : NoOpInProgress wFail := .inr ⟨.illegalCommand, by decide⟩

/-- A reset in RUN; an operation in each phase; no operation: idle, and a failed command in CHECK and in FINISH. -/
theorem witness_ResetEventRestoresEveryRegister :
    ((wRun ctr 16 1 []).Inv ∧ ∃ t op, handle .reset (wRun ctr 16 1 []) = .next t ∧ inFlight (wRun ctr 16 1 []) = .ok op)
    ∧ (wIdle.Inv ∧ wIdle.eng.phase = .idle)
    ∧ (∀ p, p ≠ .idle → ∃ t, OpInProgress (wOp p ctr 16 1 []) ctr t)
    ∧ (NoOpInProgress wIdle ∧ NoOpInProgress wFail
      ∧ NoOpInProgress { wFail with eng := { wFail.eng with phase := .finish, res := some .illegalCommand } })
    ∧ (∀ t, abandoned (wOp .check (.gcmDec true false true) 12 1 []) (some (.gcmDec true false true, t)) = []) := by
  obtain ⟨t, ht⟩ := wCtr_exec .run
  have hop : inFlight (wRun ctr 16 1 []) = .ok (some (ctr, t)) := by
    have hd : decode (wRun ctr 16 1 []).eng.cmd = .ok ctr := by decide
    have hv : validate ctr (wRun ctr 16 1 []).eng.cfg = none := by decide
    have hp : (wRun ctr 16 1 []).eng.phase = .run := rfl
    unfold inFlight
    simp only [hp, hd, if_pos hv, ht]
  exact ⟨⟨wCtr_inv, _, _, by simp only [handle, hostReset, hop]; exact rfl, hop⟩, ⟨wIdle_inv, rfl⟩, wCtr_op,
    ⟨.inl rfl, wFail_noOp, .inr ⟨.illegalCommand, by decide⟩⟩, fun _ => rfl⟩

theorem witness_CommandWriteInIdleIsAccepted : wIdle.eng.phase = .idle := rfl

theorem witness_LockedRegisters : (wRun ctr 16 1 []).Inv ∧ (wRun ctr 16 1 []).busy = true
    ∧ 0x30 ∈ [0x00, 0x0C, 0x10, 0x14, 0x18, 0x1C, 0x20, 0x24, 0x28, 0x2C, 0x30] := ⟨wCtr_inv, rfl, by decide⟩

theorem witness_ParameterRegisters : wIdle.busy = false
    ∧ 0x0C ∈ [0x0C, 0x10, 0x14, 0x18, 0x1C, 0x20, 0x24, 0x28, 0x2C, 0x30] := by decide

theorem witness_UndefinedRegisterAccess : (16 ≠ 32 ∨ 0 % 4 ≠ 0) ∧ (32 ≠ 32 ∨ 3 % 4 ≠ 0) := by decide

theorem witness_EqualReads : Memory.wf [(0, 1), (0xFFFFFFFF, 2)] ∧ Memory.wf [(0, 1), (0xFFFFFFFF, 2)]
    ∧ ∀ a, Memory.read [(0, 1), (0xFFFFFFFF, 2)] a = Memory.read [(0, 1), (0xFFFFFFFF, 2)] a :=
  ⟨by decide, by decide, fun _ => rfl⟩

/-- In IDLE at the last address; after a command that fails; and while BUSY = 1 beside the buffers of CTR, in each phase. -/
theorem witness_HostStoreOutsideLiveBuffers :
    (Memory.wf wIdle.mem ∧ NoOpInProgress wIdle ∧ (0xFFFFFFFF#32).toNat + [(7 : Byte)].length ≤ 2 ^ 32
      ∧ wIdle.plat.ordinary { base := (0xFFFFFFFF#32).toNat, len := 1 } = true)
    ∧ NoOpInProgress wFail
    ∧ ∀ p, p ≠ .idle → Memory.wf (wOp p ctr 16 1 []).mem ∧ (0x101#32).toNat + [(7 : Byte)].length ≤ 2 ^ 32
      ∧ (wOp p ctr 16 1 []).plat.ordinary { base := 0x101, len := 1 } = true
      ∧ ∃ t, OpInProgress (wOp p ctr 16 1 []) ctr t ∧ ∀ r ∈ readBufs ctr (wOp p ctr 16 1 []).eng.cfg
        ++ writeBufs ctr (wOp p ctr 16 1 []).eng.cfg (endSpan t), r.overlaps { base := 0x101, len := 1 } = false := by
  refine ⟨⟨wf_nil, .inl rfl, by decide, by decide⟩, wFail_noOp, fun p hp => ⟨wf_nil, by decide, ?_, ?_⟩⟩
  · cases p <;> decide
  · obtain ⟨t, ht⟩ := wCtr_op p hp
    refine ⟨t, ht, ?_⟩
    have hs := wCtr_span ht
    have hc : ∀ l ≤ 1, ∀ r ∈ readBufs ctr (wCfg 16 1) ++ writeBufs ctr (wCfg 16 1) l,
        r.overlaps { base := 0x101, len := 1 } = false := by decide
    cases p <;> exact hc _ hs

/-- A store to the payload byte, in CHECK, RUN and FINISH. -/
theorem witness_HostStoreToLiveBuffer (p : Phase) (hp : p ≠ .idle) :
    let s := wOp p ctr 16 1 []
    (0x100#32).toNat + [(7 : Byte)].length ≤ 2 ^ 32 ∧ s.plat.ordinary { base := 0x100, len := 1 } = true
    ∧ ∃ t, OpInProgress s ctr t
      ∧ s.eng.cfg.srcBuf ∈ readBufs ctr s.eng.cfg ++ writeBufs ctr s.eng.cfg (endSpan t)
      ∧ s.eng.cfg.srcBuf.overlaps { base := 0x100, len := 1 } = true := by
  obtain ⟨t, ht⟩ := wCtr_op p hp
  refine ⟨by decide, ?_, t, ht, by simp [readBufs], ?_⟩ <;> cases p <;> decide

/-- Idle on a platform without coherence, with an unobserved engine store at 0x200 and one not yet visible at 0x300. -/
def wDirty : State := { wIdle with
  plat := { Platform.plain with dmaCoherent := false }, unobserved := [0x200], engDirty := [0x300] }

theorem witness_HostLoad :
    (∃ t, handle (.load 0x201 2) wDirty = .next t) ∧ inFlight wDirty = .ok none
    ∧ NoOpInProgress wDirty ∧ (0x201#32).toNat + 2 ≤ 2 ^ 32
    ∧ wDirty.plat.ordinary { base := 0x201, len := 2 } = true
    ∧ 0x200 ∈ wDirty.unobserved ∧ (0x200#32).toNat + 2 ≤ 2 ^ 32
    ∧ wDirty.plat.ordinary { base := 0x200, len := 2 } = true
    ∧ (∀ k, k < 2 → 0x201 + k ∉ wDirty.unobserved ∧ (wDirty.plat.dmaCoherent = true ∨ 0x201 + k ∉ wDirty.engDirty))
    ∧ (OpInProgress wBusy ctr wBusy ∧ (∃ r ∈ readBufs ctr wBusy.eng.cfg, r.has 0x100 = true)
      ∧ ∀ r ∈ writeBufs ctr wBusy.eng.cfg (endSpan wBusy), r.has 0x100 = false)
    ∧ ∀ p, p ≠ .idle → ∃ t, OpInProgress (wOp p ctr 16 1 []) ctr t :=
  ⟨⟨_, rfl⟩, rfl, .inl rfl, by decide, by decide, by decide, by decide, by decide, fun k hk => ⟨by simp [wDirty]; omega, .inr (by simp [wDirty]; omega)⟩,
    ⟨⟨by decide, by decide, .inr ⟨rfl, rfl⟩⟩, by decide, by decide⟩, wCtr_op⟩

theorem witness_Observation : wDirty.done = true ∧ NoOpInProgress wDirty ∧ (0x200#32).toNat + 0x101 ≤ 2 ^ 32
    ∧ wDirty.plat.ordinary { base := 0x200, len := 0x101 } = true ∧ wIdle.plat.dmaCoherent = true ∧ wIdle.done = true
    ∧ NoOpInProgress wIdle ∧ (wRun ctr 16 1 []).done = false ∧ wDirty.eng.phase = .idle :=
  ⟨rfl, .inl rfl, by decide, by decide, rfl, rfl, .inl rfl, rfl, rfl⟩

/-- Each way an input or an output buffer can fail (one byte past the end, one byte not ordinary, one not visible), and each
overlap R52 forbids: the output on the key, the output one byte beside the payload, the tag on the payload and on the output. -/
theorem witness_UnmetObligation :
    let g := Instr.gcmEnc true false false
    let with' (c : Params) : State := { wRun g 12 2 [] with eng := { (wRun g 12 2 []).eng with cfg := c } }
    let past := with' { wCfg 12 2 with srcAddr := 0xFFFFFFFF }
    let pastOut := with' { wCfg 12 2 with dstAddr := 0xFFFFFFFF }
    let dev (a : Nat) : State := { with' (wCfg 12 2) with plat := { Platform.plain with special := [{ base := a, len := 1 }] } }
    let dirty (a : Nat) : State := { wRun g 12 2 [] with
      plat := { Platform.plain with dmaCoherent := false }, eng := { (wRun g 12 2 []).eng with stale := [a] } }
    let onKey := with' { wCfg 12 2 with dstAddr := 15 }
    let beside := with' { wCfg 12 2 with dstAddr := 0x101 }
    let tagOnSrc := with' { wCfg 12 2 with tagAddr := 0x101 }
    let tagOnDst := with' { wCfg 12 2 with tagAddr := 0x201 }
    (∀ u ∈ [past, pastOut, dev 0x101, dev 0x201, dev 0x30F, dirty 0x100, dirty 0x201, onKey, beside, tagOnSrc, tagOnDst],
      validate g u.eng.cfg = none ∧ knownSpan g u.eng.cfg = some 2 ∧ u.eng.cfg.srcBuf ∈ readBufs g u.eng.cfg
      ∧ u.eng.cfg.dstBuf 2 ∈ writeBufs g u.eng.cfg 2 ∧ u.eng.cfg.tagBuf ∈ writeBufs g u.eng.cfg 2)
    ∧ 2 ^ 32 < past.eng.cfg.srcBuf.base + past.eng.cfg.srcBuf.len
    ∧ 2 ^ 32 < (pastOut.eng.cfg.dstBuf 2).base + (pastOut.eng.cfg.dstBuf 2).len
    ∧ (dev 0x101).plat.ordinary (wCfg 12 2).srcBuf = false ∧ (dev 0x201).plat.ordinary ((wCfg 12 2).dstBuf 2) = false
    ∧ (dev 0x30F).plat.ordinary (wCfg 12 2).tagBuf = false
    ∧ (dirty 0x100).plat.dmaCoherent = false ∧ (∃ a ∈ (dirty 0x100).eng.stale, (wCfg 12 2).srcBuf.has a = true)
    ∧ (∃ a ∈ (dirty 0x201).eng.stale, ((wCfg 12 2).dstBuf 2).has a = true)
    ∧ (∃ q ∈ sideBufs g onKey.eng.cfg, q.overlaps (onKey.eng.cfg.dstBuf 2) = true)
    ∧ (beside.eng.cfg.dstAddr ≠ beside.eng.cfg.srcAddr ∧ beside.eng.cfg.srcBuf.overlaps (beside.eng.cfg.dstBuf 2) = true)
    ∧ writesTag g = true ∧ (∃ q ∈ readBufs g tagOnSrc.eng.cfg, q.overlaps tagOnSrc.eng.cfg.tagBuf = true)
    ∧ (tagOnDst.eng.cfg.dstBuf 2).overlaps tagOnDst.eng.cfg.tagBuf = true := by
  decide +kernel

/-- `GCM.ENC` on a platform without coherence, with a host store elsewhere still unseen. -/
theorem witness_SuccessImpliesEveryHostObligation :
    let i := Instr.gcmEnc true false false
    let s : State := { wRun i 12 1 [] with
      plat := { Platform.plain with dmaCoherent := false }, eng := { (wRun i 12 1 []).eng with stale := [0x500] } }
    validate i s.eng.cfg = none ∧ writesTag i = true ∧ s.plat.dmaCoherent = false ∧ 0x500 ∈ s.eng.stale
    ∧ ∃ t, exec i s = .next t ∧ t.eng.res = none :=
  ⟨by decide, by decide, rfl, by decide, _, exec_next (by decide) (by decide +kernel), rfl⟩

/-! ### The commands -/

/-- A command that may run on a payload of `n` bytes of the empty memory. -/
theorem wReady (i : Instr) (ivLen srcLen : Word) (l : Nat) (hv : validate i (wCfg ivLen srcLen) = none)
    (ho : obligations i l (wRun i ivLen srcLen []) = none) : Ready i l (wRun i ivLen srcLen []) :=
  ⟨wf_nil, hv, ho⟩

theorem witness_EcbEnc : Ready (.ecbEnc false false false)
    (16 * ((wRun (.ecbEnc false false false) 0 5 []).opIn.length / 16 + 1)) (wRun (.ecbEnc false false false) 0 5 []) :=
  wReady _ _ _ _ (by decide) (by decide)

theorem witness_CbcEnc : Ready (.cbcEnc true false false)
    (16 * ((wRun (.cbcEnc true false false) 16 20 []).opIn.length / 16 + 1)) (wRun (.cbcEnc true false false) 16 20 []) :=
  wReady _ _ _ _ (by decide) (by decide)

/-- The stream modes, CTS (one block, and a block and a byte), CCM and GCM encryption. -/
theorem witness_SameLengthCommands :
    (∀ i ∈ [Instr.cfbEnc true false false, .cfbDec true false false, .ofbEnc true false false, .ofbDec true false false,
      .ctrEnc true false false, .ctrDec true false false, .ctsEnc true false false, .ctsDec true false false],
      Ready i 16 (wRun i 16 16 []) ∧ Ready i 17 (wRun i 16 17 []))
    ∧ Ready (.ccmEnc true false false) 17 (wRun (.ccmEnc true false false) 7 17 [])
    ∧ Ready (.gcmEnc true false false) 17 (wRun (.gcmEnc true false false) 1 17 []) := by
  refine ⟨fun i hi => ?_, wReady _ _ _ _ (by decide) (by decide), wReady _ _ _ _ (by decide) (by decide)⟩
  simp only [List.mem_cons, List.not_mem_nil, or_false] at hi
  rcases hi with rfl | rfl | rfl | rfl | rfl | rfl | rfl | rfl <;>
    exact ⟨wReady _ _ _ _ (by decide) (by decide), wReady _ _ _ _ (by decide) (by decide)⟩

/-- A memory with 16 bytes at address `a`, which lies above the key and the IV. -/
def mem16 (a : Nat) (b : Bytes) : List Host.Cell := Memory.writeBytes [] a b

theorem mem16_low {a n : Nat} {b : Bytes} (hb : b.length = 16) (ha : a + 16 ≤ Config.memorySize) (hn : n ≤ a) :
    Memory.readBytes (mem16 a b) 0 n = Memory.readBytes [] 0 n :=
  readBytes_writeBytes_other wf_nil (by omega) (by omega)

theorem mem16_same {a : Nat} {b : Bytes} (hb : b.length = 16) (ha : a + 16 ≤ Config.memorySize) :
    Memory.readBytes (mem16 a b) a 16 = b := by
  have h := readBytes_writeBytes_same wf_nil (a := a) (v := b) (by omega)
  rwa [hb] at h

theorem mem16_wf {a : Nat} {b : Bytes} (hb : b.length = 16) (ha : a + 16 ≤ Config.memorySize) : Memory.wf (mem16 a b) :=
  wf_writeBytes wf_nil (by omega)

theorem wRun_opKey (i : Instr) (v n : Word) (m : List Host.Cell) : (wRun i v n m).opKey = Memory.readBytes m 0 16 := rfl
theorem wRun_opIv (i : Instr) (v n : Word) (m : List Host.Cell) :
    (wRun i v n m).opIv = Memory.readBytes m 0 v.toNat := rfl
theorem wRun_opIn (i : Instr) (v n : Word) (m : List Host.Cell) :
    (wRun i v n m).opIn = Memory.readBytes m 0x100 n.toNat := rfl
theorem wRun_opTag (i : Instr) (v n : Word) (m : List Host.Cell) :
    (wRun i v n m).opTag = Memory.readBytes m 0x300 16 := rfl
theorem wRun_mem (i : Instr) (v n : Word) (m : List Host.Cell) : (wRun i v n m).mem = m := rfl

/-- `ECB.DEC` or `CBC.DEC` of one block, whose last decrypted block is `x` (key and IV are zero bytes). -/
def wDec (i : Instr) (x : Block) : State := wRun i 16 16 (mem16 0x100 (bytesOf (Config.prim (zeros 16) x)))

theorem wDec_opKey (i : Instr) (x : Block) : (wDec i x).opKey = zeros 16 := by
  rw [wDec, wRun_opKey, mem16_low (length_bytesOf _) (by decide) (by decide)]
  decide

theorem wDec_opIv (i : Instr) (x : Block) : (wDec i x).opIv = zeros 16 := by
  rw [wDec, wRun_opIv, mem16_low (length_bytesOf _) (by decide) (by decide)]
  decide

theorem wDec_opIn (i : Instr) (x : Block) : (wDec i x).opIn = bytesOf (Config.prim (zeros 16) x) := by
  rw [wDec, wRun_opIn]
  exact mem16_same (length_bytesOf _) (by decide)

theorem wDec_wf (i : Instr) (x : Block) : Memory.wf (wDec i x).mem := by
  rw [wDec, wRun_mem]
  exact mem16_wf (length_bytesOf _) (by decide)

theorem wEcb_q (i : Instr) (x : Block) :
    ((blks (wDec i x).opIn).flatMap fun b => bytesOf ((Config.prim (wDec i x).opKey).symm (blockOf b))) = bytesOf x := by
  rw [wDec_opIn, wDec_opKey, blks_one (length_bytesOf _)]
  simp

theorem wCbc_q (i : Instr) (x : Block) :
    (joinBlocks (numBlocks (wDec i x).opIn) fun k => bytesOf ((Config.prim (wDec i x).opKey).symm
      (blockOf (blk k (wDec i x).opIn)) ^^^ prevBlock (wDec i x).opIv (wDec i x).opIn k)) = bytesOf x := by
  rw [wDec_opIn, wDec_opKey, wDec_opIv]
  have hn : numBlocks (bytesOf (Config.prim (zeros 16) x)) = 1 := by rw [numBlocks, length_bytesOf]
  have hb : blk 0 (bytesOf (Config.prim (zeros 16) x)) = bytesOf (Config.prim (zeros 16) x) := by
    have := blks_one (length_bytesOf (Config.prim (zeros 16) x))
    rw [blks, hn] at this
    simpa [List.range_succ] using this
  have hz : blockOf (zeros 16) = 0 := by decide +kernel
  simp only [joinBlocks, hn, List.range_one, List.flatMap_cons, List.flatMap_nil, List.append_nil, hb, blockOf_bytesOf,
    Equiv.symm_apply_apply, prevBlock, if_pos, hz]
  rw [show x ^^^ (0 : Block) = x from BitVec.xor_zero]

/-- Valid padding of one byte, and a last block of zeros (U-13, U-14). -/
theorem witness_EcbDec :
    let i := Instr.ecbDec false false false
    (padOk (bytesOf 1) = true ∧ Ready i ((bytesOf 1).length - padCount (bytesOf 1)) (wDec i 1))
    ∧ (padOk (bytesOf 0) = false ∧ Ready i 0 (wDec i 0)) :=
  ⟨⟨by decide +kernel, wDec_wf _ _, by decide, by decide +kernel⟩, by decide +kernel, wDec_wf _ _, by decide, by decide +kernel⟩

theorem witness_CbcDec :
    let i := Instr.cbcDec true false false
    (padOk (bytesOf 1) = true ∧ Ready i ((bytesOf 1).length - padCount (bytesOf 1)) (wDec i 1))
    ∧ (padOk (bytesOf 0) = false ∧ Ready i 0 (wDec i 0)) :=
  ⟨⟨by decide +kernel, wDec_wf _ _, by decide, by decide +kernel⟩, by decide +kernel, wDec_wf _ _, by decide, by decide +kernel⟩

/-- `CCM.DEC` or `GCM.DEC` of a payload of 16 zero bytes with the tag `bytesOf x`. -/
def wAead (i : Instr) (x : Block) : State := wRun i 12 16 (mem16 0x300 (bytesOf x))

theorem wAead_operands (i : Instr) (x : Block) :
    (wAead i x).opKey = zeros 16 ∧ (wAead i x).opIv = zeros 12 ∧ (wAead i x).opIn = zeros 16
      ∧ (wAead i x).opAad false = [] ∧ (wAead i x).opTag = bytesOf x := by
  rw [wAead, wRun_opKey, wRun_opIv, wRun_opIn, wRun_opTag]
  refine ⟨?_, ?_, ?_, rfl, mem16_same (length_bytesOf _) (by decide)⟩
  · rw [mem16_low (length_bytesOf _) (by decide) (by decide)]
    decide
  · rw [mem16_low (length_bytesOf _) (by decide) (by decide)]
    decide
  · rw [mem16, readBytes_writeBytes_other wf_nil (by rw [length_bytesOf]; decide) (.inr (by decide))]
    decide

theorem wAead_wf (i : Instr) (x : Block) : Memory.wf (wAead i x).mem := by
  rw [wAead, wRun_mem]
  exact mem16_wf (length_bytesOf _) (by decide)

theorem bytesOf_flip_ne (x : Block) : bytesOf x ≠ bytesOf (x ^^^ 1) := fun h => by
  have h2 := congrArg blockOf h
  rw [blockOf_bytesOf, blockOf_bytesOf] at h2
  have h3 : x ^^^ x = x ^^^ (x ^^^ 1) := by rw [← h2]
  rw [← BitVec.xor_assoc, BitVec.xor_self, BitVec.zero_xor] at h3
  exact absurd h3 (by decide)

/-- The tag CCM computes for the state of `wAead`, as a block. -/
def ccmX : Block := blockOf (ccmTag Config.prim (zeros 16) (zeros 12) []
  (ccmStream Config.prim (zeros 16) (zeros 12) (zeros 16)))

/-- A tag that matches, and one with its last bit flipped. -/
theorem witness_CcmDec :
    let i := Instr.ccmDec true false true
    (Ready i (wAead i ccmX).opIn.length (wAead i ccmX) ∧ ccmTag Config.prim (wAead i ccmX).opKey (wAead i ccmX).opIv
      ((wAead i ccmX).opAad false) (ccmStream Config.prim (wAead i ccmX).opKey (wAead i ccmX).opIv (wAead i ccmX).opIn)
      = (wAead i ccmX).opTag)
    ∧ (Ready i (wAead i (ccmX ^^^ 1)).opIn.length (wAead i (ccmX ^^^ 1)) ∧ ccmTag Config.prim (wAead i (ccmX ^^^ 1)).opKey
      (wAead i (ccmX ^^^ 1)).opIv ((wAead i (ccmX ^^^ 1)).opAad false) (ccmStream Config.prim (wAead i (ccmX ^^^ 1)).opKey
      (wAead i (ccmX ^^^ 1)).opIv (wAead i (ccmX ^^^ 1)).opIn) ≠ (wAead i (ccmX ^^^ 1)).opTag) := by
  have hX : ccmTag Config.prim (zeros 16) (zeros 12) [] (ccmStream Config.prim (zeros 16) (zeros 12) (zeros 16))
      = bytesOf ccmX := (bytesOf_blockOf (length_bytesOf _)).symm
  intro i
  obtain ⟨hk, hn, hp, ha, ht⟩ := wAead_operands i ccmX
  obtain ⟨hk', hn', hp', ha', ht'⟩ := wAead_operands i (ccmX ^^^ 1)
  rw [hk, hn, hp, ha, ht, hk', hn', hp', ha', ht', hX]
  exact ⟨⟨⟨wAead_wf _ _, by decide, by decide +kernel⟩, rfl⟩,
    ⟨wAead_wf _ _, by decide, by decide +kernel⟩, bytesOf_flip_ne _⟩

/-- The tag GCM computes for the state of `wAead`, as a block. -/
def gcmX : Block := blockOf (gcmTag Config.prim (zeros 16) (zeros 12) [] (zeros 16))

theorem witness_GcmDec :
    let i := Instr.gcmDec true false true
    (Ready i (wAead i gcmX).opIn.length (wAead i gcmX) ∧ gcmTag Config.prim (wAead i gcmX).opKey (wAead i gcmX).opIv
      ((wAead i gcmX).opAad false) (wAead i gcmX).opIn = (wAead i gcmX).opTag)
    ∧ (Ready i (wAead i (gcmX ^^^ 1)).opIn.length (wAead i (gcmX ^^^ 1)) ∧ gcmTag Config.prim (wAead i (gcmX ^^^ 1)).opKey
      (wAead i (gcmX ^^^ 1)).opIv ((wAead i (gcmX ^^^ 1)).opAad false) (wAead i (gcmX ^^^ 1)).opIn
      ≠ (wAead i (gcmX ^^^ 1)).opTag) := by
  have hX : gcmTag Config.prim (zeros 16) (zeros 12) [] (zeros 16) = bytesOf gcmX :=
    (bytesOf_blockOf (length_bytesOf _)).symm
  intro i
  obtain ⟨hk, hn, hp, ha, ht⟩ := wAead_operands i gcmX
  obtain ⟨hk', hn', hp', ha', ht'⟩ := wAead_operands i (gcmX ^^^ 1)
  rw [hk, hn, hp, ha, ht, hk', hn', hp', ha', ht', hX]
  exact ⟨⟨⟨wAead_wf _ _, by decide, by decide +kernel⟩, rfl⟩,
    ⟨wAead_wf _ _, by decide, by decide +kernel⟩, bytesOf_flip_ne _⟩

/-! ### Runs, errors and stores -/

/-- `ECB.DEC` of one block whose last decrypted block `x` has valid padding. -/
theorem wEcbDec_result {i : Instr} {x : Block} (hp : padOk (bytesOf x) = true) (d : Dp) :
    (ecbDecRule Config.prim { key := (wDec i x).opKey, iv := [], aad := [], inp := (wDec i x).opIn, tin := [] }
      (d.start (wDec i x).opKey)).1 = .ok (unpad (bytesOf x)) none := by
  have hb := blks_one (length_bytesOf (Config.prim (zeros 16) x))
  have hb0 : blk 0 (bytesOf (Config.prim (zeros 16) x)) = bytesOf (Config.prim (zeros 16) x) := by
    have hn : numBlocks (bytesOf (Config.prim (zeros 16) x)) = 1 := by rw [numBlocks, length_bytesOf]
    rw [blks, hn] at hb
    simpa [List.range_succ] using hb
  rw [wDec_opKey, wDec_opIn]
  simp only [ecbDecRule, length_bytesOf, Dp.dec, Dp.start, hb0, blockOf_bytesOf, Equiv.symm_apply_apply, hp, if_true,
    List.take_zero, forBlocks_nil, List.nil_append, Nat.reduceDiv, Nat.sub_self]

/-- A last step of RUN that writes: 15 bytes 0x05 at 0x200. -/
def wOut : Block := 0x05050505050505050505050505050501#128

theorem wOut_result : (ruleResult (.ecbDec false false false) (ruleOf Config.prim (.ecbDec false false false))
    (wDec (.ecbDec false false false) wOut)).1 = .ok (unpad (bytesOf wOut)) none := by
  have h : ∀ m : List Host.Cell, ruleResult (.ecbDec false false false) (ruleOf Config.prim (.ecbDec false false false))
      (wRun (.ecbDec false false false) 16 16 m) = ecbDecRule Config.prim
        { key := Memory.readBytes m 0 16, iv := [], aad := [], inp := Memory.readBytes m 0x100 16, tin := [] }
        (Dp.zero.start (Memory.readBytes m 0 16)) := fun _ => rfl
  rw [wDec, h, ← wRun_opKey (.ecbDec false false false) 16 16]
  exact wEcbDec_result (i := .ecbDec false false false) (by decide +kernel) Dp.zero

theorem wOut_step : ∃ t, step (wDec (.ecbDec false false false) wOut) = .next t ∧ t.eng.res = none
    ∧ t.mem = Memory.writeBytes (wDec (.ecbDec false false false) wOut).mem 0x200 (unpad (bytesOf wOut)) := by
  have hs : ∀ m, step (wRun (.ecbDec false false false) 16 16 m)
      = exec (.ecbDec false false false) (wRun (.ecbDec false false false) 16 16 m) := by
    intro m
    have hc : decode (wRun (.ecbDec false false false) 16 16 m).eng.cmd = .ok (.ecbDec false false false) := by
      show decode (encode (.ecbDec false false false)) = _
      decide
    have hp : (wRun (.ecbDec false false false) 16 16 m).eng.phase = .run := rfl
    have hl : (wRun (.ecbDec false false false) 16 16 m).eng.left = 0 := rfl
    rw [step_nil rfl]
    simp only [engineStep, hp, runStep, hl, runOutcome, hc]
  have hd : ∀ m, (wRun (.ecbDec false false false) 16 16 m).eng.cfg.dstAddr.toNat = 0x200 := fun _ => rfl
  have hv : ∀ m, validate (.ecbDec false false false) (wRun (.ecbDec false false false) 16 16 m).eng.cfg = none := by
    intro m
    show validate (.ecbDec false false false) (wCfg 16 16) = none
    decide
  have hx := exec_next (i := .ecbDec false false false) (s := wDec (.ecbDec false false false) wOut) (hv _)
    (by rw [wOut_result]; decide +kernel)
  refine ⟨_, (hs _).trans hx, ?_, ?_⟩
  · simp only [State.commit, wOut_result]
  · simp only [State.commit, wOut_result, storeResult]
    rw [wDec, hd]

theorem wOut_reads (m : List Host.Cell) (h : Memory.wf m) :
    Memory.read (Memory.writeBytes m 0x200 (unpad (bytesOf wOut))) 0x200 = 5 := by
  rw [read_writeBytes h (by decide +kernel), if_pos (by decide +kernel)]
  decide +kernel

theorem wOut_old : Memory.read (wDec (.ecbDec false false false) wOut).mem 0x200 = 0 := by
  rw [wDec, wRun_mem, mem16, read_writeBytes wf_nil (by rw [length_bytesOf]; decide),
    if_neg (by rw [length_bytesOf]; omega)]
  rfl

/-- For OnlySuccessfulOperationsWriteMemory and EngineStoresStayInTheOutputBuffers. -/
theorem witness_EngineStores :
    let s := wDec (.ecbDec false false false) wOut
    Memory.wf s.mem ∧ ∃ t, engineStep s = .next t ∧ t.mem ≠ s.mem
      ∧ Memory.read t.mem 0x200 ≠ Memory.read s.mem 0x200 := by
  intro s
  obtain ⟨t, ht, -, hm⟩ := wOut_step
  have hne : Memory.read t.mem 0x200 ≠ Memory.read s.mem 0x200 := by
    rw [hm, wOut_reads _ (wDec_wf _ _), wOut_old]
    decide
  have hi : ∀ m, (wRun (.ecbDec false false false) 16 16 m).inbox = [] := fun _ => rfl
  exact ⟨wDec_wf _ _, t, (step_nil (hi _)).symm.trans ht, fun h => hne (by rw [h]), hne⟩

/-- The other clause of OnlySuccessfulOperationsWriteMemory. -/
theorem witness_FinishStep : (wOp .finish ctr 16 1 []).eng.phase = .finish
    ∧ ∃ t, engineStep (wOp .finish ctr 16 1 []) = .next t := ⟨rfl, _, rfl⟩

theorem witness_ExecOnUnvalidatedOperands :
    validate (.ctsEnc true false false) (wRun (.ctsEnc true false false) 16 15 []).eng.cfg = some .shortInputForCTS := by
  decide

/-- The lowest and the highest reserved bit, and the lowest reserved mode. -/
theorem witness_IllegalCommand :
    (∀ w : Word, ({ wIdle with inbox := [.regWrite 32 0x00 w] } : State).inbox = [.regWrite 32 0x00 w])
    ∧ (∀ w : Word, ({ wIdle with inbox := [.regWrite 32 0x00 w] } : State).eng.phase = .idle)
    ∧ (0x100#32).toNat / 256 ≠ 0 ∧ (0x80000000#32).toNat / 256 ≠ 0 ∧ 8 ≤ (8#32).toNat % 16 :=
  ⟨fun _ => rfl, fun _ => rfl, by decide, by decide, by decide⟩

/-- The block whose bytes `GCM.DEC` expects as the tag of nothing, with an IV of 12 zero bytes. -/
def gcmE : Block := Config.prim (zeros 16) (blockOf (zeros 12 ++ [0, 0, 0, 1]))
  ^^^ gfMul (0 ^^^ lenblk [] []) (Config.prim (zeros 16) 0)

theorem xorBytes_cancel : ∀ a b : Bytes, a.length = b.length → xorBytes a (xorBytes a b) = b
  | [], [], _ => rfl
  | [], _ :: _, h => by cases h
  | _ :: _, [], h => by cases h
  | x :: xs, y :: ys, h => by
    rw [xorBytes, xorBytes, List.zipWith_cons_cons, List.zipWith_cons_cons, ← BitVec.xor_assoc, BitVec.xor_self,
      BitVec.zero_xor]
    exact congrArg _ (xorBytes_cancel xs ys (by simpa using h))

theorem cteq_flip (x : Block) : cteq (msb 16 (bytesOf x)) (bytesOf (x ^^^ 1)) = false := by
  rw [show msb 16 (bytesOf x) = bytesOf x from List.take_of_length_le (by rw [length_bytesOf]), cteq, bytesOf_xor,
    xorBytes_cancel _ _ (by rw [length_bytesOf, length_bytesOf])]
  decide +kernel

/-- The flipped tag ends in `IntegrityError`. -/
theorem wGcm_mismatch (d : Dp) : (gcmDecRule Config.prim
    { key := zeros 16, iv := zeros 12, aad := [], inp := [], tin := bytesOf (gcmE ^^^ 1) } (d.start (zeros 16))).1
    = .fail .integrityError := by
  have h : ∀ tin, (gcmDecRule Config.prim { key := zeros 16, iv := zeros 12, aad := [], inp := [], tin := tin }
      (d.start (zeros 16))).1 = if cteq (msb 16 (bytesOf gcmE)) tin then .ok [] none else .fail .integrityError := by
    intro tin
    have hb : blks [] = [] := rfl
    have hs : ∀ e : Dp, gcmSetup Config.prim (zeros 12) e = { e with
        h := Config.prim e.key 0, j0 := blockOf (zeros 12 ++ [0, 0, 0, 1]), work := e.work ++ [.enc] } := by
      intro e
      unfold gcmSetup Dp.setJ0
      rw [if_pos (by decide)]
      rfl
    have hh : ∀ e : Dp, gcmHash [] [] e = { e with
        y := gfMul (0 ^^^ lenblk [] []) e.h, work := e.work ++ [.gfMul] } := by
      intro e
      unfold gcmHash Dp.ghashAbsorbz
      rw [show blks (padz []) = [] from rfl]
      rfl
    unfold gcmE
    simp only [gcmDecRule, hs, hh, Dp.start, Dp.enc, gctr, hb, forBlocks_nil, Config.tagBytes, apply_ite Prod.fst]
  rw [h, cteq_flip]
  rfl

theorem witness_ErrorsBelongToTheirCommands :
    (∃ t, exec (.ecbDec false false false) (wRun (.ecbDec false false false) 0 0 []) = .next t
      ∧ t.eng.res = some .invalidPadding)
    ∧ (∃ t, exec (.ctsEnc true false false) (wRun (.ctsEnc true false false) 16 15 []) = .next t
      ∧ t.eng.res = some .shortInputForCTS)
    ∧ ∃ t, exec (.gcmDec true false true) (wRun (.gcmDec true false true) 12 0 (mem16 0x300 (bytesOf (gcmE ^^^ 1)))) = .next t
      ∧ t.eng.res = some .integrityError := by
  refine ⟨⟨_, (exec_eq_ruleOf _ _).trans (runRule_invalid (e := .invalidPadding) (by decide)), rfl⟩,
    ⟨_, (exec_eq_ruleOf _ _).trans (runRule_invalid (e := .shortInputForCTS) (by decide)), rfl⟩, ?_⟩
  have hr : (ruleResult (.gcmDec true false true) (ruleOf Config.prim (.gcmDec true false true))
      (wRun (.gcmDec true false true) 12 0 (mem16 0x300 (bytesOf (gcmE ^^^ 1))))).1 = .fail .integrityError := by
    have h : ∀ m : List Host.Cell, ruleResult (.gcmDec true false true) (ruleOf Config.prim (.gcmDec true false true))
        (wRun (.gcmDec true false true) 12 0 m) = gcmDecRule Config.prim
          { key := Memory.readBytes m 0 16, iv := Memory.readBytes m 0 12, aad := [], inp := []
            tin := Memory.readBytes m 0x300 16 } (Dp.zero.start (Memory.readBytes m 0 16)) := fun _ => rfl
    have hz : Memory.readBytes [] 0 16 = zeros 16 ∧ Memory.readBytes [] 0 12 = zeros 12 := by decide
    rw [h, mem16_same (length_bytesOf _) (by decide), mem16_low (length_bytesOf _) (by decide) (by decide),
      mem16_low (length_bytesOf _) (by decide) (by decide), hz.1, hz.2]
    exact wGcm_mismatch _
  have hv : ∀ m, validate (.gcmDec true false true) (wRun (.gcmDec true false true) 12 0 m).eng.cfg = none := by
    intro m
    show validate (.gcmDec true false true) (wCfg 12 0) = none
    decide
  refine ⟨_, exec_next (hv _) (by rw [hr]; decide +kernel), ?_⟩
  simp only [State.commit, hr]

/-- Two states that differ in a byte outside the buffers and in `eng.V`. -/
theorem witness_ResultDependsOnly :
    let s := wRun ctr 16 1 []
    let s' : State := { wRun ctr 16 1 [(0x900, 1)] with
      eng := { (wRun ctr 16 1 []).eng with dp := { Dp.zero with v := 3 } } }
    Memory.wf s.mem ∧ Memory.wf s'.mem ∧ s.eng.cfg = s'.eng.cfg ∧ validate ctr s.eng.cfg = none
    ∧ (∀ r ∈ readBufs ctr s.eng.cfg, r.fetch s.mem = r.fetch s'.mem)
    ∧ (∃ t, exec ctr s = .next t) ∧ ∃ t', exec ctr s' = .next t' :=
  ⟨wf_nil, by decide, rfl, by decide, by decide +kernel, wCtr_exec .run,
    ⟨_, exec_next (by decide) (by decide +kernel)⟩⟩

theorem witness_CommandsKeepDatapathRegisters :
    (validate ctr (wRun ctr 16 1 []).eng.cfg = none ∧ ∃ t, exec ctr (wRun ctr 16 1 []) = .next t)
    ∧ (let i := Instr.gcmEnc true false false
      i.mode = .gcm ∧ i.dir = .enc ∧ validate i (wRun i 12 1 []).eng.cfg = none ∧ ∃ t, exec i (wRun i 12 1 []) = .next t) :=
  ⟨⟨by decide, wCtr_exec .run⟩, rfl, rfl, by decide, _, exec_next (by decide) (by decide +kernel)⟩

theorem witness_ValidationAppliesTheTenTests :
    wFail.inbox = [] ∧ wFail.eng.phase = .check ∧ checkCommand wFail.eng.cmd wFail.eng.cfg = some .illegalCommand := by
  decide

theorem witness_OperationsReachIdle :
    let s := wOp .check ctr 16 1 []
    s.inbox = [] ∧ s.eng.phase = .check ∧ decode s.eng.cmd = .ok ctr ∧ validate ctr s.eng.cfg = none
    ∧ ∃ u, exec ctr s = .next u := ⟨rfl, rfl, by decide, by decide, wCtr_exec .check⟩

/-! ### Rules, for the test primitive -/

theorem witness_RoundTrips : d0.key = (Dp.zero.start key).key ∧ 16 ≤ (ops iv16 [] p20 []).inp.length := by decide

/-- An output for every clause: ECB encryption, its decryption, CFB, CTS, CCM and GCM. -/
theorem witness_OutputLengths :
    let isOk (i : Instr) (o : Operands) := (ruleOf toy i o d0).1.isOk
    isOk (.ecbEnc false false false) (ops [] [] p11 []) = true
    ∧ isOk (.ecbDec false false false) (ops [] [] (hex 16 0x1b797a478ea5c9d99b718d0cca4a3943) []) = true
    ∧ isOk (.cfbEnc true false false) (ops iv16 [] p20 []) = true
    ∧ isOk (.ctsEnc true false false) (ops iv16 [] p20 []) = true
    ∧ isOk (.ccmEnc true false false) (ops n12 [] p20 []) = true
    ∧ isOk (.gcmEnc true false false) (ops n12 [] p20 []) = true := by decide +kernel

theorem witness_KeystreamReuse :
    d0.key = d0.key ∧ (ops n12 [] p20 []).iv = (ops n12 aad8 (zeros 20) []).iv ∧ p20.length = (zeros 20).length
    ∧ ∀ r ∈ [ofbEncRule toy, ctrEncRule toy, gcmEncRule toy],
      (r (ops n12 [] p20 []) d0).1.isOk = true ∧ (r (ops n12 aad8 (zeros 20) []) d0).1.isOk = true := by
  refine ⟨rfl, rfl, by decide, fun r hr => ?_⟩
  simp only [List.mem_cons, List.not_mem_nil, or_false] at hr
  rcases hr with rfl | rfl | rfl <;> exact ⟨rfl, rfl⟩

/-- Success and failure of each command that can fail, on operands each clause allows. -/
theorem witness_PrimitiveInvocationCounts :
    let isOk (i : Instr) (o : Operands) := (ruleOf toy i o d0).1.isOk
    d0.work = [] ∧ 7 ≤ n12.length ∧ n12.length ≤ 13
    ∧ isOk (.ecbDec false false false) (ops [] [] (hex 16 0x1b797a478ea5c9d99b718d0cca4a3943) []) = true
    ∧ isOk (.ecbDec false false false) (ops [] [] (zeros 16) []) = false
    ∧ isOk (.cbcDec true false false) (ops (zeros 16) [] (hex 16 0x1b797a478ea5c9d99b718d0cca4a3943) []) = true
    ∧ isOk (.cbcDec true false false) (ops (zeros 16) [] (zeros 16) []) = false
    ∧ isOk (.ccmDec true false true) (ops (hex 7 0x10111213141516) [] [] (hex 16 0x38)) = true
    ∧ isOk (.ccmDec true false true) (ops n12 [] [] (zeros 16)) = false
    ∧ isOk (.gcmDec true false true) (ops n12 [] [] (hex 16 0x6f07053cbbc4b1b3ee0f9309cf4f3d3b)) = true
    ∧ isOk (.gcmDec true false true) (ops n12 [] [] (zeros 16)) = false := by decide +kernel

/-- Equal lengths, and the same outcome or one failure and one success. -/
theorem witness_WorkSequence :
    let o := ops [] [] (zeros 16) []
    let o' := ops [] [] (hex 16 0x1b797a478ea5c9d99b718d0cca4a3943) []
    let i := Instr.ecbDec false false false
    d0.work = [] ∧ o.key.length = o'.key.length ∧ o.iv.length = o'.iv.length ∧ o.aad.length = o'.aad.length
    ∧ o.inp.length = o'.inp.length ∧ o.tin.length = o'.tin.length
    ∧ (ruleOf toy i o d0).1.isOk = false ∧ (ruleOf toy i o' d0).1.isOk = true := by decide +kernel

theorem witness_Padding : (hex 32 0x10101010101010101010101010101010).length % 16 = 0
    ∧ padOk (hex 32 0x10101010101010101010101010101010) = true := by decide +kernel

/-- The shortest and the longest nonce, no AAD and some, the last counter block, the longest payload length of `q = 2`. -/
theorem witness_CcmBlocks : (zeros 7).length = 7 ∧ (zeros 13).length = 13 ∧ aad8.length < 2 ^ 32
    ∧ p20.length < 256 ^ (15 - (zeros 13).length) ∧ 65535 < 256 ^ (15 - (zeros 13).length)
    ∧ (0 < 65279 ∧ 65279 < 65280) ∧ 65280 ≤ 65280 ∧ 4294967295 < 2 ^ 32 ∧ 15 < 16 := by decide

theorem witness_TagComparison : (zeros 16).length = (hex 16 1).length ∧ cteq (zeros 16) (hex 16 1) = false := by
  decide +kernel

end Sys2Proof.Tests
end

section
/-! PROOF. Every step keeps the invariant of Safety.lean (O11). One lemma per transition of the sequencer
(41_sequencer.md R87 to R93) and one for the host's events, which leave the engine where it stands. -/

namespace Sys2Proof.Proofs

open Sys2Proof.Machine Sys2Proof.Laws

/-! ## What a transition must keep -/

/-- What every step but acceptance, completion and reset does to the registers the invariant relates: `DONE` may be
cleared (10_state.md R27), the parameter registers may change while `BUSY = 0` (R32), the others stay as they were. -/
structure PortKept (s t : State) : Prop where
  cmd : t.cmd = s.cmd
  busy : t.busy = s.busy
  done : t.done = true → s.done = true
  err : t.err = s.err
  outLen : t.outLen = s.outLen
  par : s.busy = true → t.par = s.par
  engCmd : t.eng.cmd = s.eng.cmd
  engCfg : t.eng.cfg = s.eng.cfg

/-- The part of the invariant that speaks of the register port alone. -/
theorem portKept_inv {s t : State} (h : s.Inv) (k : PortKept s t) :
    (t.busy = true → t.done = false) ∧ (t.busy = true → t.err = 0 ∧ t.outLen = 0) ∧ t.eng.cmd = t.cmd
      ∧ (t.busy = true → t.eng.cfg = t.par) := by
  rw [k.busy, k.err, k.outLen, k.engCmd, k.engCfg, k.cmd]
  refine ⟨fun hb => ?_, h.busyClear, h.cmdHeld, fun hb => (h.cfgHeld hb).trans (k.par hb).symm⟩
  exact Bool.eq_false_iff.mpr fun hd => by simpa [h.notBoth hb] using k.done hd

/-- A step that leaves the engine where it stands, but for its count of `RUN` steps, keeps the invariant. -/
theorem inv_of_engine_kept {s t : State} (h : s.Inv) (k : PortKept s t) (hmem : Memory.wf t.mem)
    (heng : t.eng = { s.eng with left := t.eng.left }) : t.Inv := by
  obtain ⟨hdone, hclear, hcmd, hcfg⟩ := portKept_inv h k
  have hspan : endSpan t = endSpan s := by unfold endSpan; rw [heng]
  refine ⟨hmem, ?_, hdone, hclear, hcmd, hcfg, ?_, ?_, ?_, ?_, ?_, ?_⟩
  · rw [k.busy, heng]; exact h.busyIff
  · rw [heng]; exact h.quietZero
  · rw [heng]; exact h.keyLen
  · rw [heng, k.err]; exact h.idleErr
  · rw [heng]; exact h.pending
  · rw [heng]; exact h.runValid
  · rw [hspan, heng]; exact h.finishRange

/-- A step of a busy engine into `FINISH` keeps the invariant, when `eng.K` still has at most 32 bytes and the output
buffers lie in the address space (R36, 20_memory.md R47). -/
theorem inv_of_enters_finish {s t : State} (h : s.Inv) (k : PortKept s t) (hmem : Memory.wf t.mem)
    (hs : s.eng.phase ≠ .idle) (ht : t.eng.phase = .finish) (hkey : t.eng.dp.key.length ≤ 32)
    (hrange : ∀ i, decode s.eng.cmd = .ok i → validate i s.eng.cfg = none →
      ∀ r ∈ writeBufs i s.eng.cfg (endSpan t), r.inRange = true) : t.Inv := by
  obtain ⟨hdone, hclear, hcmd, hcfg⟩ := portKept_inv h k
  refine ⟨hmem, ?_, hdone, hclear, hcmd, hcfg, ?_, hkey, ?_, ?_, ?_, fun _ => ?_⟩
  · simp [k.busy, ht, h.busyIff.mpr hs]
  · simp [ht]
  · simp [ht]
  · simp [ht]
  · simp [ht]
  · rw [k.engCmd, k.engCfg]; exact hrange

/-! ## The transitions of the engine -/

/-- On a word that decodes, what is left of R89 is its tests 2 to 10. -/
theorem checkCommand_of_decode {w : Word} {c : Params} {i : Instr} (hd : decode w = .ok i) :
    checkCommand w c = validate i c := by
  unfold checkCommand
  rw [hd]

/-- Acceptance in `IDLE` (R88). -/
theorem accept_inv {s : State} (h : s.Inv) (hp : s.eng.phase = .idle) (w : Word) : (s.accept w).Inv where
  memWf := h.memWf
  busyIff := by simp
  notBoth _ := rfl
  busyClear _ := ⟨rfl, rfl⟩
  cmdHeld := rfl
  cfgHeld _ := rfl
  quietZero _ := h.quietZero (by simp [hp])
  keyLen := h.keyLen
  idleErr := by simp
  pending _ := rfl
  runValid := by simp
  finishRange := by simp

/-- A validation error of R89 ends the operation. -/
theorem endWith_inv {s : State} (h : s.Inv) (hp : s.eng.phase ≠ .idle) {e : Err}
    (he : ∃ e', checkCommand s.eng.cmd s.eng.cfg = some e') : (s.endWith e).Inv := by
  refine inv_of_enters_finish h ⟨rfl, rfl, id, rfl, rfl, fun _ => rfl, rfl, rfl⟩ h.memWf hp rfl
    h.keyLen fun i hd hv => ?_
  obtain ⟨e', he⟩ := he
  rw [checkCommand_of_decode hd, hv] at he
  cases he

/-- `CHECK` passes and `RUN` is entered (R89). -/
theorem enterRun_inv {s : State} (h : s.Inv) (hp : s.eng.phase = .check) (k : Nat)
    (hv : checkCommand s.eng.cmd s.eng.cfg = none) :
    State.Inv { s with eng := { s.eng with phase := .run, left := k } } where
  memWf := h.memWf
  busyIff := by simp [h.busyIff, hp]
  notBoth := h.notBoth
  busyClear := h.busyClear
  cmdHeld := h.cmdHeld
  cfgHeld := h.cfgHeld
  quietZero _ := h.quietZero (by simp [hp])
  keyLen := h.keyLen
  idleErr := by simp
  pending _ := h.pending (.inl hp)
  runValid _ := hv
  finishRange := by simp

/-- The end of `RUN` leaves the register port alone (R91). -/
theorem commit_portKept (r : Result × Dp) (s : State) : PortKept s (s.commit r) := by
  obtain ⟨_ | _, d⟩ := r <;> exact ⟨rfl, rfl, id, rfl, rfl, fun _ => rfl, rfl, rfl⟩

theorem commit_phase (r : Result × Dp) (s : State) : (s.commit r).eng.phase = .finish := by
  obtain ⟨_ | _, d⟩ := r <;> rfl

/-- The datapath after `RUN` is what the rule left, with the output string beside it. -/
theorem commit_dp (r : Result × Dp) (s : State) : ∃ out, (s.commit r).eng.dp = { r.2 with out := out } := by
  obtain ⟨_ | _, d⟩ := r <;> exact ⟨_, rfl⟩

/-- After `RUN` of a validated command `eng.K` holds its key (R36, R65). -/
theorem commit_key (i : Instr) (s : State) :
    (s.commit (ruleResult i (ruleOf Config.prim i) s)).eng.dp.key = s.opKey := by
  obtain ⟨out, h⟩ := commit_dp (ruleResult i (ruleOf Config.prim i) s) s
  rw [h]
  exact ruleOf_key _ _ _ _

/-- The output buffers of a command that gives a next state lie in the address space (20_memory.md R47). -/
theorem exec_writeBufs_inRange {i : Instr} {s t : State} (hv : validate i s.eng.cfg = none) (hx : exec i s = .next t) :
    ∀ r ∈ writeBufs i t.eng.cfg (endSpan t), r.inRange = true := by
  obtain ⟨ho, rfl⟩ := exec_next_commit hx hv
  rw [endSpan_commit, commit_eng_cfg]
  exact fun r hr => (obligations_none.mp ho).1 r (List.mem_append_right _ hr)

/-- The last step of `RUN` of a validated command (R91). -/
theorem exec_inv {s t : State} {i : Instr} (h : s.Inv) (hp : s.eng.phase ≠ .idle) (hd : decode s.eng.cmd = .ok i)
    (hv : validate i s.eng.cfg = none) (hx : exec i s = .next t) : t.Inv := by
  have hmem := exec_wf h.memWf hx
  have hrange := exec_writeBufs_inRange hv hx
  obtain ⟨-, rfl⟩ := exec_next_commit hx hv
  refine inv_of_enters_finish h (commit_portKept _ _) hmem hp (commit_phase _ _) ?_ fun j hj _ => ?_
  · have hlen : s.opKey.length = s.eng.cfg.keyLen.toNat := length_fetch _ _
    have := validate_keyLen hv
    rw [commit_key, hlen]
    omega
  · obtain rfl : i = j := by rw [hd] at hj; cases hj; rfl
    rwa [commit_eng_cfg] at hrange

/-- `eng.K` in its reset value (R36). -/
theorem length_zero_key : Dp.zero.key.length ≤ 32 := by decide

/-- Completion (R93, R37). -/
theorem complete_inv {s : State} (h : s.Inv) : s.complete.Inv where
  memWf := h.memWf
  busyIff := by simp
  notBoth := by simp
  busyClear := by simp
  cmdHeld := h.cmdHeld
  cfgHeld := by simp
  quietZero _ := rfl
  keyLen := length_zero_key
  idleErr _ := rfl
  pending := by simp
  runValid := by simp
  finishRange := by simp

/-! ## One engine step -/

/-- The step of `CHECK` (R89). -/
theorem checkStep_inv {s t : State} (h : s.Inv) (hp : s.eng.phase = .check) (hx : checkStep s = .next t) : t.Inv := by
  rcases checkStep_cases s with ⟨e, he, hc⟩ | ⟨i, why, -, -, -, hc⟩ | ⟨i, u, hd, hv, -, hc⟩ <;>
    rw [hc] at hx <;> cases hx
  · exact endWith_inv h (by simp [hp]) ⟨e, he⟩
  · exact enterRun_inv h hp _ (by rw [checkCommand_of_decode hd, hv])

/-- The last step of `RUN` (R90, R91): the command has passed validation, so it decodes and its rule runs. -/
theorem runOutcome_inv {s t : State} (h : s.Inv) (hp : s.eng.phase = .run) (hx : runOutcome s = .next t) : t.Inv := by
  have hc := h.runValid hp
  rcases runOutcome_cases s with ⟨i, hd, hr⟩ | ⟨e, hd, -⟩
  · rw [checkCommand_of_decode hd] at hc
    exact exec_inv h (by simp [hp]) hd hc (hr ▸ hx)
  · rw [checkCommand, hd] at hc
    cases hc

/-- Every engine step keeps the invariant (R87). -/
theorem engineStep_inv {s t : State} (h : s.Inv) (hx : engineStep s = .next t) : t.Inv := by
  rcases engineStep_cases s with ⟨-, hc⟩ | ⟨hp, hc⟩ | ⟨-, k, -, hc⟩ | ⟨hp, -, hc⟩ | ⟨-, hc⟩ <;> rw [hc] at hx
  · cases hx
    exact h
  · exact checkStep_inv h hp hx
  · cases hx
    exact inv_of_engine_kept h ⟨rfl, rfl, id, rfl, rfl, fun _ => rfl, rfl, rfl⟩ h.memWf rfl
  · exact runOutcome_inv h hp hx
  · cases hx
    exact complete_inv h

/-! ## The events of the host -/

/-- A step that changes neither the engine nor a register, and keeps memory canonical, keeps the invariant. -/
theorem inv_of_registers_kept {s t : State} (h : s.Inv) (hmem : Memory.wf t.mem)
    (hreg : (t.cmd, t.busy, t.done, t.err, t.par, t.outLen, t.eng)
      = (s.cmd, s.busy, s.done, s.err, s.par, s.outLen, s.eng)) : t.Inv := by
  simp only [Prod.mk.injEq] at hreg
  obtain ⟨hcmd, hbusy, hdone, herr, hpar, hout, heng⟩ := hreg
  exact inv_of_engine_kept h ⟨hcmd, hbusy, (hdone ▸ ·), herr, hout, fun _ => hpar, by rw [heng], by rw [heng]⟩ hmem
    (by rw [heng])

/-- A register write (R25, R27, R28, R32): acceptance, or one that leaves the engine alone. -/
theorem writeReg_inv {s : State} (h : s.Inv) (off : Nat) (v : Word) : (s.writeReg off v).Inv := by
  rcases writeReg_cases off v s with
    ⟨-, hp, hw⟩ | ⟨-, -, hw⟩ | ⟨-, hw⟩ | ⟨-, hw⟩ | ⟨-, -, -, -, hw⟩ | ⟨-, -, -, hb, hw⟩ <;> rw [hw]
  · exact accept_inv h hp v
  · exact h
  · split
    · exact inv_of_engine_kept h ⟨rfl, rfl, by simp, rfl, rfl, fun _ => rfl, rfl, rfl⟩ h.memWf rfl
    · exact h
  · exact inv_of_registers_kept h h.memWf rfl
  · exact h
  · exact inv_of_engine_kept h ⟨rfl, rfl, id, rfl, rfl, by simp [hb], rfl, rfl⟩ h.memWf rfl

theorem hostRegWrite_inv {s t : State} (h : s.Inv) {width off : Nat} {v : Word}
    (hx : hostRegWrite width off v s = .next t) : t.Inv := by
  unfold hostRegWrite at hx
  split at hx <;> cases hx
  exact writeReg_inv h off v

/-- The bytes a reset leaves with any value lie in the address space (70_reset_and_hazards.md R140). -/
theorem abandoned_inRange {s : State} (h : s.Inv) {op : Option (Instr × State)} (hop : inFlight s = .ok op) :
    ∀ r ∈ abandoned s op, r.inRange = true := by
  cases op with
  | none => simp [abandoned]
  | some it =>
    obtain ⟨i, t⟩ := it
    have hbufs : ∀ r ∈ writeBufs i t.eng.cfg (endSpan t), r.inRange = true := by
      obtain ⟨hd, hv, ⟨hp, rfl⟩ | ⟨-, hx⟩⟩ := inFlight_some hop
      · exact h.finishRange hp i hd hv
      · exact exec_writeBufs_inRange hv hx
    intro r hr
    dsimp only [abandoned] at hr
    split at hr
    · simp at hr
    · exact hbufs r hr

/-- A reset event (R139, R140). -/
theorem hostReset_inv {s t : State} (h : s.Inv) (hx : hostReset s = .next t) : t.Inv := by
  obtain ⟨op, hop, rfl⟩ := hostReset_next hx
  exact {
    memWf := wf_scramble h.memWf (abandoned_inRange h hop)
    busyIff := iff_of_false Bool.false_ne_true (· rfl)
    notBoth := fun _ => rfl
    busyClear := fun _ => ⟨rfl, rfl⟩
    cmdHeld := rfl
    cfgHeld := fun _ => rfl
    quietZero := fun _ => rfl
    keyLen := length_zero_key
    idleErr := fun _ => rfl
    pending := fun _ => rfl
    runValid := fun hp => by cases hp
    finishRange := fun hp => by cases hp }

/-- One turn of `WAITDONE` (30_encoding.md R68): a read of `STATUS`, or an engine step. -/
theorem hostWaitDone_inv {s t : State} (h : s.Inv) (hx : hostWaitDone s = .next t) : t.Inv := by
  unfold hostWaitDone at hx
  split at hx
  · cases hx
    exact inv_of_registers_kept h (by simpa using h.memWf) (by simp)
  · refine engineStep_inv ?_ hx
    exact inv_of_registers_kept h h.memWf rfl

/-- Every event keeps the invariant. -/
theorem handle_inv {s t : State} (h : s.Inv) {e : Event} (hx : handle e s = .next t) : t.Inv := by
  cases e with
  | regWrite width off v => exact hostRegWrite_inv h hx
  | regRead width off =>
    obtain ⟨-, ⟨-, -, rfl⟩ | ⟨-, rfl⟩⟩ := hostRegRead_next hx
    · exact inv_of_registers_kept h h.memWf rfl
    · exact inv_of_registers_kept h h.memWf rfl
  | store a bs =>
    obtain ⟨hr, -, -, rfl⟩ := hostStore_next hx
    exact inv_of_registers_kept h (wf_writeBytes h.memWf hr) rfl
  | load a n =>
    obtain ⟨-, op, -, rfl⟩ := hostLoad_next hx
    exact inv_of_registers_kept h h.memWf rfl
  | maintain =>
    cases hx
    exact inv_of_registers_kept h h.memWf rfl
  | reset => exact hostReset_inv h hx
  | engine => exact engineStep_inv h hx
  | waitDone => exact hostWaitDone_inv h hx

/-- Settles O11: an engine step when nothing else is to come, else the event the inbox holds first. -/
theorem everyStepKeepsTheInvariant : Obligations.EveryStepKeepsTheInvariant := by
  intro s t h hx
  cases hi : s.inbox with
  | nil => exact engineStep_inv h (step_nil hi ▸ hx)
  | cons e rest =>
    rw [step_cons hi] at hx
    refine handle_inv ?_ hx
    exact inv_of_registers_kept h h.memWf rfl

end Sys2Proof.Proofs
end

section
/-! PROOF. The register port (10_state.md R22 to R32): what each register write and read does, and the statements
O13 to O19 about it. -/

namespace Sys2Proof.Proofs

open Sys2Proof.Machine Sys2Proof.Laws

/-! ## The words of the flags -/

/-- Settles O17: bit by bit, `BUSY` and `DONE` below the three bits of `ERR` shifted to 6..4. -/
theorem statusWordHoldsItsFieldsAndZeros : Obligations.StatusWordHoldsItsFieldsAndZeros := by
  intro s k
  have hbusy : (if s.busy then 1#32 else 0).getLsbD k = (decide (k = 0) && s.busy) := by
    cases s.busy <;> simp [BitVec.getLsbD_one]
  have hdone : (if s.done then 2#32 else 0).getLsbD k = (decide (k = 1) && s.done) := by
    cases s.done <;> simp [show 2#32 = BitVec.twoPow 32 1 by decide, BitVec.getLsbD_twoPow, eq_comm]
  have herr : (s.err.zeroExtend 32 <<< 4).getLsbD k = (decide (4 ≤ k ∧ k ≤ 6) && s.err.getLsbD (k - 4)) := by
    by_cases h : 4 ≤ k ∧ k ≤ 6
    · have : ¬k < 4 ∧ k < 32 := by omega
      simp [h, this]
    · by_cases h4 : k < 4
      · simp [h4, h]
      · have : 3 ≤ k - 4 := by omega
        simp [h, BitVec.getLsbD_of_ge s.err _ this]
  unfold State.statusWord
  rw [BitVec.getLsbD_or, BitVec.getLsbD_or, hbusy, hdone, herr]
  split
  · simp_all
  · split <;> simp_all

/-- `IRQ_EN` reads the bit written to it, with zeros above (R24, R28). -/
theorem irqEnWord_of_bit {s : State} {v : Word} (h : s.doneIe = v.getLsbD 0) : s.irqEnWord = v &&& 1#32 := by
  unfold State.irqEnWord
  rw [h, BitVec.and_one_eq_setWidth_ofBool_getLsbD]
  cases v.getLsbD 0 <;> rfl

/-! ## Accesses the port lets through, and those it refuses -/

theorem handle_regWrite_ok {off : Nat} (h : regAccessOk 32 off = true) (v : Word) (s : State) :
    handle (.regWrite 32 off v) s = .next (s.writeReg off v) := if_pos h

/-- A read answers the register's value, and changes the model's record of what the host has observed at most (R32). -/
theorem handle_regRead_ok {off : Nat} (h : regAccessOk 32 off = true) (s : State) :
    ∃ t, handle (.regRead 32 off) s = .next t ∧ t.regRead = s.readReg off
      ∧ t = { s with regRead := s.readReg off, unobserved := t.unobserved, engDirty := t.engDirty } := by
  by_cases ho : off = 0x04
  · subst ho
    refine ⟨s.readStatus, by simp only [handle, hostRegRead, h, if_true], rfl, ?_⟩
    unfold State.readStatus
    split <;> rfl
  · exact ⟨{ s with regRead := s.readReg off }, by simp only [handle, hostRegRead, h, if_true, if_neg ho], rfl, rfl⟩

theorem regAccessOk_false {width off : Nat} (h : width ≠ 32 ∨ off % 4 ≠ 0) : regAccessOk width off = false := by
  rcases h with h | h <;> simp [regAccessOk, h]

theorem handle_regWrite_refused {width off : Nat} (h : regAccessOk width off = false) (v : Word) (s : State) :
    handle (.regWrite width off v) s = .refused .registerAccess := by
  simp [handle, hostRegWrite, h]

theorem handle_regRead_refused {width off : Nat} (h : regAccessOk width off = false) (s : State) :
    handle (.regRead width off) s = .refused .registerAccess := by
  simp [handle, hostRegRead, h]

/-! ## What a write does -/

theorem writeReg_cmd_idle {s : State} (h : s.eng.phase = .idle) (w : Word) : s.writeReg 0x00 w = s.accept w := if_pos h

theorem writeReg_cmd_busy {s : State} (h : s.eng.phase ≠ .idle) (w : Word) : s.writeReg 0x00 w = s := if_neg h

theorem writeReg_status (v : Word) (s : State) :
    s.writeReg 0x04 v = { s with done := if v.getLsbD 1 then false else s.done } := by
  show (if v.getLsbD 1 then s.acknowledge else s) = _
  split <;> rfl

/-- At every other offset a write reaches the parameter registers, and those only while `BUSY = 0` (R32). -/
theorem writeReg_par {off : Nat} (h : off ∉ [0x00, 0x04, 0x08]) (v : Word) (s : State) :
    s.writeReg off v = if s.busy then s else { s with par := s.par.set off v } := by
  simp only [List.mem_cons, List.not_mem_nil, or_false, not_or] at h
  unfold State.writeReg
  split <;> simp_all

/-! ## What a write to a parameter register leaves and what it sets -/

/-- The offsets of the ten parameter registers (R23). -/
def parOffsets : List Nat := [0x0C, 0x10, 0x14, 0x18, 0x1C, 0x20, 0x24, 0x28, 0x2C, 0x30]

/-- Each parameter register after a write: the value at its own offset, else what it held. -/
theorem set_eq (off : Nat) (v : Word) (p : Params) :
    p.set off v =
      { keyAddr := if off = 0x0C then v else p.keyAddr, keyLen := if off = 0x10 then v else p.keyLen
        ivAddr := if off = 0x14 then v else p.ivAddr, ivLen := if off = 0x18 then v else p.ivLen
        aadAddr := if off = 0x1C then v else p.aadAddr, aadLen := if off = 0x20 then v else p.aadLen
        srcAddr := if off = 0x24 then v else p.srcAddr, srcLen := if off = 0x28 then v else p.srcLen
        dstAddr := if off = 0x2C then v else p.dstAddr, tagAddr := if off = 0x30 then v else p.tagAddr } := by
  unfold Params.set
  split <;> simp_all

/-- An offset that names no parameter register sets none. -/
theorem set_of_notMem {off : Nat} (h : off ∉ parOffsets) (v : Word) (p : Params) : p.set off v = p := by
  simp only [parOffsets, List.mem_cons, List.not_mem_nil, or_false, not_or] at h
  simp [set_eq, h]

/-- A parameter register reads back what was written to it (R29, R30). -/
theorem readReg_set_same {off : Nat} (h : off ∈ parOffsets) (v : Word) (s : State) :
    State.readReg off { s with par := s.par.set off v } = v := by
  simp only [parOffsets, List.mem_cons, List.not_mem_nil, or_false] at h
  rcases h with rfl | rfl | rfl | rfl | rfl | rfl | rfl | rfl | rfl | rfl <;> rfl

/-- A write to a parameter register changes what no other offset reads (R23). -/
theorem readReg_set_other {off off' : Nat} (h : off' ≠ off) (v : Word) (s : State) :
    State.readReg off' { s with par := s.par.set off v } = s.readReg off' := by
  rw [set_eq]
  unfold State.readReg
  split
  case h_1 | h_2 | h_3 | h_14 | h_15 => rfl
  all_goals exact if_neg h.symm

/-! ## The statements -/

/-- Settles O13: the write is let through, and in `IDLE` it is acceptance. -/
theorem commandWriteInIdleIsAccepted : Obligations.CommandWriteInIdleIsAccepted := by
  intro s w h
  rw [handle_regWrite_ok (by decide), writeReg_cmd_idle h]
  rfl

/-- Settles O14: a busy engine is not in `IDLE`, so `CMD` takes no write, and the parameter registers are locked; a read
answers what `readReg` gives. -/
theorem lockedRegistersIgnoreWritesWhileBusy : Obligations.LockedRegistersIgnoreWritesWhileBusy := by
  refine ⟨fun s v off h hb hoff => ?_, fun s p hp => ?_⟩
  · have hok : ∀ off ∈ [0x00, 0x0C, 0x10, 0x14, 0x18, 0x1C, 0x20, 0x24, 0x28, 0x2C, 0x30],
        regAccessOk 32 off = true ∧ (off = 0x00 ∨ off ∉ [0x00, 0x04, 0x08]) := by decide
    obtain ⟨hacc, rfl | hpar⟩ := hok off hoff
    · rw [handle_regWrite_ok hacc, writeReg_cmd_busy (h.busyIff.mp hb)]
    · rw [handle_regWrite_ok hacc, writeReg_par hpar, if_pos hb]
  · have hread : regAccessOk 32 p.1 = true ∧ s.readReg p.1 = p.2 := by
      simp only [List.mem_cons, List.not_mem_nil, or_false] at hp
      rcases hp with rfl | rfl | rfl | rfl | rfl | rfl | rfl | rfl | rfl | rfl | rfl | rfl | rfl | rfl <;>
        exact ⟨by simp [regAccessOk], rfl⟩
    obtain ⟨hacc, hval⟩ := hread
    rw [← hval]
    exact handle_regRead_ok hacc s

/-- Settles O15: the write sets the parameter register of its offset, which reads it back, and no other. -/
theorem parameterRegistersReadBackAsWritten : Obligations.ParameterRegistersReadBackAsWritten := by
  intro s v off hb hoff
  have hok : ∀ off ∈ parOffsets, regAccessOk 32 off = true ∧ off ∉ [0x00, 0x04, 0x08] := by decide
  obtain ⟨hacc, hpar⟩ := hok off hoff
  refine ⟨{ s with par := s.par.set off v }, ?_, readReg_set_same hoff v s,
    fun off' h => readReg_set_other h v s, rfl⟩
  rw [handle_regWrite_ok hacc, writeReg_par hpar, hb, if_neg Bool.false_ne_true]

/-- Settles O16: the port lets the write through, and `DONE` is the one register with a bit it clears. -/
theorem statusWriteClearsDoneAndNothingElse : Obligations.StatusWriteClearsDoneAndNothingElse := by
  intro s v
  rw [handle_regWrite_ok (by decide), writeReg_status]

/-- Settles O18: `irq` is `DONE` and `DONE_IE`, so clearing `DONE` takes it low whatever `DONE_IE` holds. -/
theorem interruptEnableIsWritableAnyTimeAndGatesIrq : Obligations.InterruptEnableIsWritableAnyTimeAndGatesIrq := by
  intro s v
  refine ⟨{ s with doneIe := v.getLsbD 0 }, handle_regWrite_ok (by decide) v s, rfl, irqEnWord_of_bit rfl, rfl,
    State.acknowledge { s with doneIe := v.getLsbD 0 }, ?_, rfl⟩
  rw [handle_regWrite_ok (by decide), writeReg_status]
  rfl

/-- Settles O19: the three offsets name no writable register, and the port refuses what R22 does not define. -/
theorem reservedOffsetsReadZeroAndUndefinedAccessesAreRefused :
    Obligations.ReservedOffsetsReadZeroAndUndefinedAccessesAreRefused := by
  refine fun s v => ⟨fun off hoff => ?_, fun off hoff => ?_, fun width off h => ?_⟩
  · simp only [List.mem_cons, List.not_mem_nil, or_false] at hoff
    rcases hoff with rfl | rfl <;> rfl
  · have hok : ∀ off ∈ [0x34, 0x38, 0x3C],
        regAccessOk 32 off = true ∧ off ∉ [0x00, 0x04, 0x08] ∧ off ∉ parOffsets := by decide
    obtain ⟨hacc, hpar, hset⟩ := hok off hoff
    rw [handle_regWrite_ok hacc, writeReg_par hpar, set_of_notMem hset, ite_self]
  · exact ⟨handle_regWrite_refused (regAccessOk_false h) v s, handle_regRead_refused (regAccessOk_false h) s⟩

end Sys2Proof.Proofs
end

section
/-! PROOF. What the sixteen rules leave of the datapath (10_state.md R36, 41_sequencer.md R90), and O46: with the
registers that the rule of a command names blanked out, the datapath is the same before and after the rule. -/

namespace Sys2Proof.Proofs

open Sys2Proof.Machine Sys2Proof.Laws

/-- The datapath with every register blanked that the rule of command `i` may write, and the trace of its work. -/
def unwritten (i : Instr) (d : Dp) : Dp :=
  { key := d.key
    v := if i.mode = .ecb then d.v else 0
    y := if i.mode = .ccm ∨ i.mode = .gcm then 0 else d.y
    h := if i.mode = .gcm then 0 else d.h
    j0 := if i.mode = .ccm ∨ i.mode = .gcm then 0 else d.j0
    i := if i.mode = .gcm then d.i else 0
    tmpX := if i.mode = .cts then 0 else d.tmpX
    tmpS := if i.mode = .cfb ∨ i.mode = .ctr then 0 else d.tmpS
    tmpT := if i.mode = .ccm ∨ (i.mode = .gcm ∧ i.dir = .dec) then 0 else d.tmpT
    tmpZ := if i.dir = .dec ∧ (i.mode = .ecb ∨ i.mode = .cbc ∨ i.mode = .cts) then 0 else d.tmpZ
    out := d.out
    work := [] }

/-! ## The block loop and the two outcomes of a check -/

theorem unwritten_forBlocks {i : Instr} {body : Nat → Bytes → Dp → Bytes × Dp}
    (hb : ∀ k b d, unwritten i (body k b d).2 = unwritten i d) (k : Nat) (bs : List Bytes) (d : Dp) :
    unwritten i (forBlocks body k bs d).2 = unwritten i d :=
  forBlocks_keeps (I := fun x => unwritten i x = unwritten i d) (fun k b x hx => (hb k b x).trans hx) bs k d rfl

theorem unwritten_ite {i : Instr} {d : Dp} {c : Prop} [Decidable c] {a b : Result × Dp}
    (ha : unwritten i a.2 = unwritten i d) (hb : unwritten i b.2 = unwritten i d) :
    unwritten i (if c then a else b).2 = unwritten i d := by
  split <;> assumption

/-- The primitive port writes no register of the datapath (R69). -/
theorem unwritten_enc (i : Instr) (P : Prim) (x : Block) (d : Dp) : unwritten i (d.enc P x).2 = unwritten i d := rfl

theorem unwritten_dec (i : Instr) (P : Prim) (x : Block) (d : Dp) : unwritten i (d.dec P x).2 = unwritten i d := rfl

/-! ## The units of GCM -/

section Gcm

variable {i : Instr} (hm : i.mode = .gcm)
include hm

theorem unwritten_ghashAbsorb (x : Block) (d : Dp) : unwritten i (d.ghashAbsorb x) = unwritten i d := by
  simp [unwritten, hm]

theorem unwritten_ghashInit (d : Dp) : unwritten i d.ghashInit = unwritten i d := by
  simp [unwritten, hm]

theorem unwritten_ghashBlocks (bs : List Bytes) (d : Dp) : unwritten i (Dp.ghashBlocks bs d) = unwritten i d := by
  induction bs generalizing d with
  | nil => rfl
  | cons b bs ih => rw [Dp.ghashBlocks, ih, unwritten_ghashAbsorb hm]

theorem unwritten_j0 (x : Block) (d : Dp) : unwritten i { d with j0 := x } = unwritten i d := by
  simp [unwritten, hm]

theorem unwritten_setJ0 (n : Bytes) (d : Dp) : unwritten i (Dp.setJ0 n d) = unwritten i d := by
  unfold Dp.setJ0
  split
  · exact unwritten_j0 hm _ _
  · exact (unwritten_j0 hm _ _).trans ((unwritten_ghashBlocks hm _ _).trans (unwritten_ghashInit hm d))

theorem unwritten_gcmSetup (P : Prim) (n : Bytes) (d : Dp) : unwritten i (gcmSetup P n d) = unwritten i d := by
  rw [gcmSetup, unwritten_setJ0 hm]
  simp [unwritten, hm]

theorem unwritten_gcmHash (a c : Bytes) (d : Dp) : unwritten i (gcmHash a c d) = unwritten i d := by
  rw [gcmHash, unwritten_ghashAbsorb hm, Dp.ghashAbsorbz, unwritten_ghashBlocks hm, Dp.ghashAbsorbz,
    unwritten_ghashBlocks hm, unwritten_ghashInit hm]

theorem unwritten_gctr (P : Prim) (icb : Block) (b : Bytes) (d : Dp) :
    unwritten i (gctr P icb b d).2 = unwritten i d := by
  rw [gctr, unwritten_forBlocks fun k b d => by simp [unwritten, gctrBody, hm]]
  simp [unwritten, hm]

end Gcm

/-- The verification of R120 may write `T`. -/
theorem unwritten_tmpT_gcmDec (ivp aadp tagp : Bool) (y : Block) (d : Dp) :
    unwritten (.gcmDec ivp aadp tagp) { d with tmpT := y } = unwritten (.gcmDec ivp aadp tagp) d := rfl

/-! ## The rules -/

/-- A rule writes no register but those `unwritten` blanks out: each round of its loops, and each line between them. -/
theorem ruleOf_unwritten (P : Prim) (i : Instr) (o : Operands) (d : Dp) :
    unwritten i (ruleOf P i o d).2 = unwritten i d := by
  cases i with
  | ecbDec =>
    dsimp only [ruleOf, ecbDecRule]
    exact unwritten_ite (unwritten_forBlocks (by intros; rfl) _ _ _) rfl
  | cbcDec =>
    dsimp only [ruleOf, cbcDecRule]
    exact unwritten_ite (unwritten_forBlocks (by intros; rfl) _ _ _) rfl
  | ctsEnc ivp aadp tagp =>
    have hx : ∀ x e, unwritten (.ctsEnc ivp aadp tagp) { e with tmpX := x } = unwritten (.ctsEnc ivp aadp tagp) e :=
      fun _ _ => rfl
    dsimp only [ruleOf, ctsEncRule]
    refine unwritten_ite rfl ?_
    rw [unwritten_enc, hx, unwritten_enc, unwritten_forBlocks (by intros; rfl)]
    rfl
  | ctsDec ivp aadp tagp =>
    have hzx : ∀ z x e, unwritten (.ctsDec ivp aadp tagp) { e with tmpZ := z, tmpX := x }
        = unwritten (.ctsDec ivp aadp tagp) e := fun _ _ _ => rfl
    dsimp only [ruleOf, ctsDecRule]
    refine unwritten_ite rfl ?_
    rw [unwritten_dec, hzx, unwritten_dec, unwritten_forBlocks (by intros; rfl)]
    rfl
  | ccmEnc =>
    exact (unwritten_forBlocks (by intros; rfl) _ _ _).trans (unwritten_forBlocks (by intros; rfl) _ _ _)
  | ccmDec ivp aadp tagp =>
    dsimp only [ruleOf, ccmDecRule]
    have pass1 : ∀ x k bs j cs, unwritten (.ccmDec ivp aadp tagp) (forBlocks (ccmPeekMacBody P) j cs
        (forBlocks (ccmPeekBody P x) k bs { d with j0 := ccmCtr x 0 }).2.macInit).2
          = unwritten (.ccmDec ivp aadp tagp) d := fun _ _ _ _ _ =>
      (unwritten_forBlocks (by intros; rfl) _ _ _).trans (unwritten_forBlocks (by intros; rfl) _ _ _)
    exact unwritten_ite ((unwritten_forBlocks (by intros; rfl) _ _ _).trans (pass1 _ _ _ _ _)) (pass1 _ _ _ _ _)
  | gcmEnc ivp aadp tagp =>
    have hm : (Instr.gcmEnc ivp aadp tagp).mode = .gcm := rfl
    dsimp only [ruleOf, gcmEncRule]
    rw [unwritten_enc, unwritten_gcmHash hm, unwritten_gctr hm, unwritten_gcmSetup hm]
  | gcmDec ivp aadp tagp =>
    dsimp only [ruleOf, gcmDecRule]
    have hm : (Instr.gcmDec ivp aadp tagp).mode = .gcm := rfl
    have pass1 : ∀ x y, unwritten (.gcmDec ivp aadp tagp)
        { ((gcmHash o.aad o.inp (gcmSetup P o.iv d)).enc P x).2 with tmpT := y }
          = unwritten (.gcmDec ivp aadp tagp) d := fun x y => by
      rw [unwritten_tmpT_gcmDec, unwritten_enc, unwritten_gcmHash hm, unwritten_gcmSetup hm]
    exact unwritten_ite ((unwritten_gctr hm _ _ _ _).trans (pass1 _ _)) (pass1 _ _)
  | _ => exact unwritten_forBlocks (by intros; rfl) _ _ _

/-- Settles O46: register by register, what `unwritten` does not blank out is as it was; the start of `RUN` and the
commit write `eng.K`, the output string and the trace alone. -/
theorem commandsKeepDatapathRegistersTheyDoNotUse : Obligations.CommandsKeepDatapathRegistersTheyDoNotUse := by
  intro s t i hv hx
  obtain ⟨-, rfl⟩ := exec_next_commit hx hv
  have hkey := commit_key i s
  obtain ⟨out, hdp⟩ := commit_dp (ruleResult i (ruleOf Config.prim i) s) s
  have hrule : unwritten i (ruleResult i (ruleOf Config.prim i) s).2 = unwritten i (s.eng.dp.start s.opKey) :=
    ruleOf_unwritten Config.prim i (operands i s.eng.cfg s.mem) _
  refine ⟨hkey, ?_⟩
  rw [hdp]
  refine ⟨fun hm => ?_, fun h1 h2 => ⟨?_, ?_, ?_⟩, fun h1 h2 => ?_, fun hm => ?_, fun hm => ?_, fun hm => ?_,
    fun h1 h2 => ?_, fun hm => ?_⟩
  · simpa [unwritten, hm] using congrArg Dp.v hrule
  · simpa [unwritten, h1, h2] using congrArg Dp.y hrule
  · simpa [unwritten, h1, h2] using congrArg Dp.j0 hrule
  · simpa [unwritten, h1, h2] using congrArg Dp.tmpT hrule
  · simpa [unwritten, h1, h2] using congrArg Dp.tmpT hrule
  · simpa [unwritten, hm] using congrArg Dp.h hrule
  · simpa [unwritten, hm] using congrArg Dp.i hrule
  · simpa [unwritten, hm] using congrArg Dp.tmpX hrule
  · simpa [unwritten, h1, h2] using congrArg Dp.tmpS hrule
  · have hz : ¬(i.dir = .dec ∧ (i.mode = .ecb ∨ i.mode = .cbc ∨ i.mode = .cts)) := by
      rcases hm with hm | hm
      · simp [hm]
      · exact fun h => hm h.2
    simpa only [unwritten, if_neg hz, start_tmpZ] using congrArg Dp.tmpZ hrule

end Sys2Proof.Proofs
end

section
/-! PROOF. Buffer memory as the host sees it (20_memory.md R40 to R57): the canonical form determines a memory by its
bytes (O20), and what a host store (O21, O22), a host read (O23) and the events around them (O24) do. -/

namespace Sys2Proof.Proofs

open Sys2Proof.Machine Sys2Proof.Laws

/-! ## The canonical form -/

/-- A canonical memory does not read as unlisted at its first entry. -/
theorem read_head_ne_unlisted {c : Host.Cell} {m : List Host.Cell} (h : Memory.wf (c :: m)) :
    Memory.read (c :: m) c.1 ≠ Memory.unlisted := by
  rw [read_cons, if_pos rfl]
  exact (h.2 c (by simp)).1

/-- Below its first entry a canonical memory reads as unlisted. -/
theorem read_below_head {c : Host.Cell} {m : List Host.Cell} (h : Memory.wf (c :: m)) {a : Nat} (ha : a < c.1) :
    Memory.read (c :: m) a = Memory.unlisted :=
  read_of_below fun d hd => by
    rcases List.mem_cons.mp hd with rfl | hd
    · exact ha
    · exact ha.trans ((List.pairwise_cons.mp h.1).1 d hd)

/-- The first address of a canonical memory is not listed again. -/
theorem read_tail_head {c : Host.Cell} {m : List Host.Cell} (h : Memory.wf (c :: m)) :
    Memory.read m c.1 = Memory.unlisted :=
  read_of_below (List.pairwise_cons.mp h.1).1

/-- Canonical memories that read alike begin at the same address: below the first entry of the one, the other is
unlisted as well. -/
theorem head_le_of_reads {c d : Host.Cell} {m m' : List Host.Cell} (h : Memory.wf (c :: m)) (h' : Memory.wf (d :: m'))
    (hr : ∀ a, Memory.read (c :: m) a = Memory.read (d :: m') a) : d.1 ≤ c.1 := by
  by_contra hlt
  exact read_head_ne_unlisted h ((hr c.1).trans (read_below_head h' (by omega)))

/-- Settles O20, by induction on both memories: equal reads force equal first entries, and then equal rests. -/
theorem equalReadsMeanEqualMemory : Obligations.EqualReadsMeanEqualMemory := by
  intro m
  induction m with
  | nil =>
    intro m' _ h' hr
    cases m' with
    | nil => rfl
    | cons d m' => exact absurd (hr d.1).symm (read_head_ne_unlisted h')
  | cons c m ih =>
    intro m' h h' hr
    cases m' with
    | nil => exact absurd (hr c.1) (read_head_ne_unlisted h)
    | cons d m' =>
      have haddr : c.1 = d.1 := le_antisymm (head_le_of_reads h' h fun a => (hr a).symm) (head_le_of_reads h h' hr)
      have hbyte : c.2 = d.2 := by simpa [read_cons, haddr] using hr d.1
      obtain rfl : c = d := Prod.ext haddr hbyte
      have hrest : m = m' := ih m' (wf_tail h) (wf_tail h') fun a => by
        by_cases ha : a = c.1
        · rw [ha, read_tail_head h, read_tail_head h']
        · simpa [read_cons, ha] using hr a
      rw [hrest]

/-! ## Host accesses that meet no operation's refusal -/

theorem mem_addrs (r : Region) (x : Nat) : x ∈ r.addrs ↔ r.has x = true := by
  simp only [Region.addrs, Region.has, List.mem_map, List.mem_range, Bool.and_eq_true, decide_eq_true_eq]
  constructor
  · rintro ⟨k, hk, rfl⟩
    omega
  · rintro ⟨h1, h2⟩
    exact ⟨x - r.base, by omega, by omega⟩

/-- With an operation in flight, its buffers are those R50 gives the accepted command. -/
theorem liveBufs_op {s u : State} {i : Instr} (h : OpInProgress s i u) :
    liveReads (some (i, u)) = readBufs i s.eng.cfg
      ∧ liveWrites (some (i, u)) = writeBufs i s.eng.cfg (endSpan u) := by
  rw [← opInProgress_cfg h]
  exact ⟨rfl, rfl⟩

section Access

variable {s : State} {op : Option (Instr × State)} {a : Word}

/-- A host store that no operation's buffers stand in the way of completes (R53). -/
theorem hostStore_completes {bs : Bytes} (hrange : a.toNat + bs.length ≤ 2 ^ 32)
    (hord : s.plat.ordinary { base := a.toNat, len := bs.length } = true) (hop : inFlight s = .ok op)
    (hfree : ∀ r ∈ liveReads op ++ liveWrites op, r.overlaps { base := a.toNat, len := bs.length } = false) :
    ∃ t, hostStore a bs s = .next t := by
  have hin : Region.inRange { base := a.toNat, len := bs.length } = true := (inRange_iff _).mpr hrange
  have hany : ((liveReads op ++ liveWrites op).any fun q => q.overlaps { base := a.toNat, len := bs.length }) = false :=
    List.any_eq_false.mpr fun r hr => by simp [hfree r hr]
  exact ⟨_, by simp [hostStore, hin, hord, hop, hany]; rfl⟩

/-- A host store that overlaps a buffer of the operation in flight is refused (R53). -/
theorem hostStore_refused {bs : Bytes} (hrange : a.toNat + bs.length ≤ 2 ^ 32)
    (hord : s.plat.ordinary { base := a.toNat, len := bs.length } = true) (hop : inFlight s = .ok op)
    (hlive : ∃ r ∈ liveReads op ++ liveWrites op, r.overlaps { base := a.toNat, len := bs.length } = true) :
    hostStore a bs s = .refused .liveBufferWrite := by
  have hin : Region.inRange { base := a.toNat, len := bs.length } = true := (inRange_iff _).mpr hrange
  have hany := List.any_eq_true.mpr hlive
  simp only [hostStore, hin, hord, hop, hany, Bool.not_true, Bool.false_eq_true, if_false, if_true]

/-- A host read of ordinary memory answers whenever it is known what is in flight (R53). -/
theorem hostLoad_answers {n : Nat} (hrange : a.toNat + n ≤ 2 ^ 32)
    (hord : s.plat.ordinary { base := a.toNat, len := n } = true) (hop : inFlight s = .ok op) :
    ∃ t, hostLoad a n s = .next t := by
  have hin : Region.inRange { base := a.toNat, len := n } = true := (inRange_iff _).mpr hrange
  exact ⟨_, by simp [hostLoad, hin, hord, hop]; rfl⟩

/-- Byte by byte, what a host read answers (R53). -/
theorem hostLoad_bytes {n : Nat} {t : State} (h : hostLoad a n s = .next t) (hop : inFlight s = .ok op) :
    t = { s with memRead := t.memRead, draws := t.draws } ∧ t.memRead.length = n ∧
      ∀ k, k < n →
        t.memRead[k]? = some (byteSeen s (liveReads op) (liveWrites op) (s.draws + k) (a.toNat + k)) := by
  obtain ⟨-, op', hop', rfl⟩ := hostLoad_next h
  obtain rfl : op = op' := by rw [hop] at hop'; cases hop'; rfl
  exact ⟨rfl, by simp, fun k hk => by simp [hk]⟩

end Access

/-- Nothing in flight, a host read answers, and with the bytes stored when the host may see every one of them. -/
theorem hostLoad_quiet {s : State} {a : Word} {n : Nat} (hq : NoOpInProgress s) (hrange : a.toNat + n ≤ 2 ^ 32)
    (hord : s.plat.ordinary { base := a.toNat, len := n } = true) :
    ∃ t, hostLoad a n s = .next t ∧
      ((∀ k, k < n → a.toNat + k ∉ s.unobserved ∧ (s.plat.dmaCoherent = true ∨ a.toNat + k ∉ s.engDirty)) →
        t.memRead = Memory.readBytes s.mem a.toNat n) := by
  obtain ⟨t, ht⟩ := hostLoad_answers hrange hord (inFlight_none hq)
  refine ⟨t, ht, fun hseen => ?_⟩
  obtain ⟨-, hlen, hbyte⟩ := hostLoad_bytes ht (inFlight_none hq)
  refine List.ext_getElem? fun k => ?_
  by_cases hk : k < n
  · rw [hbyte k hk, byteSeen_memory _ (by simp [liveWrites]) (.inr (hseen k hk))]
    simp [Memory.readBytes, hk]
  · rw [List.getElem?_eq_none (by omega), List.getElem?_eq_none (by rw [length_readBytes]; omega)]

/-! ## The statements -/

/-- Settles O21: the store finds no buffer in its way, and what it does is `hostStore_next`. -/
theorem hostStoreOutsideLiveBuffersWritesItsBytes : Obligations.HostStoreOutsideLiveBuffersWritesItsBytes := by
  rintro s a bs q hw rfl hrange hord hfree
  have hop : ∃ op, inFlight s = .ok op ∧ ∀ r ∈ liveReads op ++ liveWrites op,
      r.overlaps { base := a.toNat, len := bs.length } = false := by
    rcases hfree with hq | ⟨i, u, hiu, hno⟩
    · exact ⟨none, inFlight_none hq, by simp [liveReads, liveWrites]⟩
    · obtain ⟨hrd, hwr⟩ := liveBufs_op hiu
      exact ⟨some (i, u), inFlight_op hiu, by rwa [hrd, hwr]⟩
  obtain ⟨op, hop, hno⟩ := hop
  obtain ⟨t, ht⟩ := hostStore_completes hrange hord hop hno
  obtain ⟨-, -, -, rfl⟩ := hostStore_next ht
  refine ⟨_, ht, readBytes_writeBytes_same hw hrange, fun b hb => ?_, fun x => ?_, fun x => ?_, fun x => ?_, rfl⟩
  · rw [read_writeBytes hw hrange, if_neg (by omega)]
  · cases s.plat.dmaCoherent <;> simp [mem_addrs, or_comm]
  · simp
  · simp

/-- Settles O22: the buffer is among those the operation in flight uses. -/
theorem hostStoreToLiveBufferIsRefused : Obligations.HostStoreToLiveBufferIsRefused := by
  intro s a bs i t r hit hrange hord hr hov
  obtain ⟨hrd, hwr⟩ := liveBufs_op hit
  exact hostStore_refused hrange hord (inFlight_op hit) ⟨r, by rwa [hrd, hwr], hov⟩

/-- Settles O23: byte by byte by `byteSeen_memory`, for the operation in flight and for none. -/
theorem hostLoadReturnsMemoryWhereTheSpecDefinesIt : Obligations.HostLoadReturnsMemoryWhereTheSpecDefinesIt := by
  refine fun s a n => ⟨fun t ht => ?_, fun hrange hord => ⟨fun i u hiu => ?_, fun hq => ?_⟩⟩
  · obtain ⟨-, op, hop, -⟩ := hostLoad_next ht
    obtain ⟨hframe, hlen, hbyte⟩ := hostLoad_bytes ht hop
    exact ⟨hframe, hlen, op, hop, fun k hk hwr hdef => by rw [hbyte k hk, byteSeen_memory _ hwr hdef]⟩
  · obtain ⟨t, ht⟩ := hostLoad_answers hrange hord (inFlight_op hiu)
    obtain ⟨hrd, hwr⟩ := liveBufs_op hiu
    obtain ⟨-, -, hbyte⟩ := hostLoad_bytes ht (inFlight_op hiu)
    rw [hrd, hwr] at hbyte
    exact ⟨t, ht, fun k hk hin hout => by rw [hbyte k hk, byteSeen_memory _ hout (.inl hin)]⟩
  · exact hostLoad_quiet hq hrange hord

/-- A read of `STATUS` through the port (R26, R55). -/
theorem handle_regRead_status (s : State) : handle (.regRead 32 0x04) s = .next s.readStatus := rfl

theorem readStatus_done {s : State} (h : s.done = true) :
    s.readStatus = { s.observe with regRead := s.statusWord } := by
  simp [State.readStatus, h]

theorem readStatus_notDone {s : State} (h : s.done = false) : s.readStatus = { s with regRead := s.statusWord } := by
  simp [State.readStatus, h]

/-- Settles O24: the read of `STATUS` empties `unobserved`, so that on a coherent platform, and after maintenance on
any, every byte is one the host may see. -/
theorem observationAndMaintenanceMakeEngineStoresVisible :
    Obligations.ObservationAndMaintenanceMakeEngineStoresVisible := by
  refine fun s => ⟨rfl, fun hd => ?_, fun hd => ?_, fun w hp => ?_, fun a n hd hq hrange hord => ?_⟩
  · rw [handle_regRead_status, readStatus_done hd]
    rfl
  · rw [handle_regRead_status, readStatus_notDone hd]
  · exact ⟨s.accept w, by rw [handle_regWrite_ok (by decide), writeReg_cmd_idle hp], rfl⟩
  · refine ⟨_, handle_regRead_status s, ?_⟩
    rw [readStatus_done hd]
    refine ⟨fun hc => ?_, ?_⟩
    · obtain ⟨u, hu, hseen⟩ := hostLoad_quiet (s := { s.observe with regRead := s.statusWord }) hq hrange hord
      exact ⟨u, hu, hseen fun k _ => ⟨List.not_mem_nil, .inl hc⟩⟩
    · obtain ⟨v, hv, hseen⟩ := hostLoad_quiet
        (s := { s.observe with regRead := s.statusWord, hostDirty := [], engDirty := [] }) hq hrange hord
      exact ⟨_, v, rfl, hv, hseen fun k _ => ⟨List.not_mem_nil, .inr List.not_mem_nil⟩⟩

end Sys2Proof.Proofs
end

section
/-! PROOF. The result of a command's rule (41_sequencer.md R91): how long its output is where that does not depend on
the payload's bytes, which tag it has, and that it depends on the operands and `eng.K` alone (10_state.md R37). -/

namespace Sys2Proof.Proofs

open Sys2Proof.Machine Sys2Proof.Laws

/-! ## Lengths of the output -/

/-- A loop whose every round gives a whole block. -/
theorem length_forBlocks_whole {body : Nat → Bytes → Dp → Bytes × Dp} (h : ∀ k b d, (body k b d).1.length = 16)
    (k : Nat) (bs : List Bytes) (d : Dp) : (forBlocks body k bs d).1.length = 16 * bs.length := by
  induction bs generalizing k d with
  | nil => rfl
  | cons b bs ih =>
    rw [forBlocks_cons, List.length_append, h, ih, List.length_cons]
    omega

/-- A loop whose every round is a keystream block under `xorp` gives as many bytes as it takes (R70). -/
theorem length_forBlocks_xorp {body : Nat → Bytes → Dp → Bytes × Dp}
    (h : ∀ k b d, ∃ x, (body k b d).1 = xorp b x) (k : Nat) (b : Bytes) (d : Dp) :
    (forBlocks body k (blks b) d).1.length = b.length := by
  rw [length_forBlocks (fun k d x hx => ?_), flatten_blks]
  obtain ⟨y, hy⟩ := h k x d
  rw [hy, length_xorp (length_le_of_mem_blks hx)]

theorem length_pad (b : Bytes) : (pad b).length = 16 * (b.length / 16 + 1) := by
  simp only [pad, List.length_append, length_rep]
  omega

theorem length_blks_pad (b : Bytes) : (blks (pad b)).length = b.length / 16 + 1 := by
  rw [length_blks, numBlocks, length_pad]
  omega

/-- The layout of CTS (R108, R109): the blocks before the last two, a whole block, the last block's length. -/
theorem length_ctsLayout {b : Bytes} {ys y x : Bytes} (h16 : 16 ≤ b.length) (hm : numBlocks b ≠ 1)
    (hys : ys.length = 16 * ((blks b).take (numBlocks b - 2)).length) (hy : y.length = 16)
    (hx : x.length = lastLen b) : (ys ++ y ++ x).length = b.length := by
  rw [List.length_append, List.length_append, hys, hy, hx, List.length_take, length_blks, lastLen]
  unfold numBlocks at hm ⊢
  omega

theorem lastLen_le (b : Bytes) : lastLen b ≤ 16 := by
  unfold lastLen numBlocks
  omega

theorem length_last_blk (b : Bytes) : (blk (numBlocks b - 1) b).length = lastLen b := by
  have := lastLen_le b
  rw [length_blk]
  unfold lastLen at this ⊢
  omega

theorem length_eq_of_one_block {b : Bytes} (h16 : 16 ≤ b.length) (hm : numBlocks b = 1) : b.length = 16 := by
  unfold numBlocks at hm
  omega

theorem outSpan_ite {c : Params} {l : Nat} {p : Prop} [Decidable p] {a b : Result × Dp}
    (ha : p → outSpan c a.1 = l) (hb : ¬p → outSpan c b.1 = l) : outSpan c (if p then a else b).1 = l := by
  split
  · exact ha ‹_›
  · exact hb ‹_›

/-- `CTS.ENC` gives as many bytes as it takes (R108). -/
theorem outSpan_ctsEncRule {P : Prim} {c : Params} {o : Operands} {d : Dp} (h16 : 16 ≤ o.inp.length) :
    outSpan c (ctsEncRule P o d).1 = o.inp.length := by
  dsimp only [ctsEncRule]
  refine outSpan_ite (fun hm => ?_) fun hm => ?_ <;> dsimp only [outSpan]
  · rw [length_bytesOf, length_eq_of_one_block h16 hm]
  · refine length_ctsLayout h16 hm
      (length_forBlocks_whole (body := cbcEncBody P) (fun _ _ _ => length_bytesOf _) _ _ _) (length_bytesOf _) ?_
    rw [length_msb, length_bytesOf, min_eq_left (lastLen_le _)]

/-- `CTS.DEC` gives as many bytes as it takes (R109). -/
theorem outSpan_ctsDecRule {P : Prim} {c : Params} {o : Operands} {d : Dp} (h16 : 16 ≤ o.inp.length) :
    outSpan c (ctsDecRule P o d).1 = o.inp.length := by
  dsimp only [ctsDecRule]
  refine outSpan_ite (fun hm => ?_) fun hm => ?_ <;> dsimp only [outSpan]
  · rw [length_bytesOf, length_eq_of_one_block h16 hm]
  · refine length_ctsLayout h16 hm
      (length_forBlocks_whole (body := cbcDecBody P) (fun _ _ _ => length_bytesOf _) _ _ _) (length_bytesOf _) ?_
    rw [length_xorBytes, length_msb, length_bytesOf, length_last_blk, min_eq_left (lastLen_le _), min_self]

/-- Where R111 and R117 to R120 give the output's length by the payload's alone, the rule's output has it; an AEAD
decryption that fails has the buffer R50 gives it. -/
theorem outSpan_ruleOf {P : Prim} {i : Instr} {c : Params} {o : Operands} {d : Dp} {l : Nat}
    (hl : knownSpan i c = some l) (hn : o.inp.length = c.srcLen.toNat) (hcts : i.mode = .cts → 16 ≤ o.inp.length) :
    outSpan c (ruleOf P i o d).1 = l := by
  simp only [knownSpan, ← hn] at hl
  cases i with
  | ecbEnc =>
    obtain rfl : 16 * (o.inp.length / 16 + 1) = l := Option.some.inj hl
    dsimp only [ruleOf, ecbEncRule, outSpan]
    rw [length_forBlocks_whole (body := ecbEncBody P) (fun _ _ _ => length_bytesOf _), length_blks_pad]
  | cbcEnc =>
    obtain rfl : 16 * (o.inp.length / 16 + 1) = l := Option.some.inj hl
    dsimp only [ruleOf, cbcEncRule, outSpan]
    rw [length_forBlocks_whole (body := cbcEncBody P) (fun _ _ _ => length_bytesOf _), length_blks_pad]
  | ecbDec => cases hl
  | cbcDec => cases hl
  | ctsEnc =>
    obtain rfl : o.inp.length = l := Option.some.inj hl
    exact outSpan_ctsEncRule (hcts rfl)
  | ctsDec =>
    obtain rfl : o.inp.length = l := Option.some.inj hl
    exact outSpan_ctsDecRule (hcts rfl)
  | ccmDec =>
    obtain rfl : o.inp.length = l := Option.some.inj hl
    dsimp only [ruleOf, ccmDecRule]
    exact outSpan_ite (fun _ => length_forBlocks_xorp (fun _ _ _ => ⟨_, rfl⟩) _ _ _) fun _ => hn.symm
  | gcmDec =>
    obtain rfl : o.inp.length = l := Option.some.inj hl
    dsimp only [ruleOf, gcmDecRule]
    exact outSpan_ite (fun _ => length_forBlocks_xorp (fun _ _ _ => ⟨_, rfl⟩) _ _ _) fun _ => hn.symm
  | _ =>
    obtain rfl : o.inp.length = l := Option.some.inj hl
    exact length_forBlocks_xorp (fun _ _ _ => ⟨_, rfl⟩) _ _ _

/-! ## The tag -/

/-- A rule that ends in `ok` gives a tag of 16 bytes if the command writes one, and none otherwise (R91, R113). -/
theorem ruleOf_tout {P : Prim} {i : Instr} {o : Operands} {d : Dp} {out : Bytes} {tout : Option Bytes}
    (h : (ruleOf P i o d).1 = .ok out tout) :
    tout.map List.length = if writesTag i then some 16 else none := by
  by_cases hw : writesTag i = true
  · rw [if_pos hw]
    cases i with
    | ccmEnc =>
      injection h with _ h
      rw [← h, Option.map_some, length_xorBytes, length_msb, length_msb, length_bytesOf, length_bytesOf]
      rfl
    | gcmEnc =>
      injection h with _ h
      rw [← h, Option.map_some, length_msb, length_bytesOf]
      rfl
    | _ => cases hw
  · cases tout with
    | none => simp [hw]
    | some tag => exact absurd (ruleOf_tag h).2 hw

/-! ## What the result depends on -/

/-- The two datapaths hold the same key and the same of the registers `f` names. -/
structure AgreeOn (f : Dp → List Block) (d e : Dp) : Prop where
  key : d.key = e.key
  regs : f d = f e

/-- One round of a loop, from datapaths alike in the key and in `f`, gives the same bytes and datapaths alike again. -/
def RoundAgrees (f : Dp → List Block) (body : Nat → Bytes → Dp → Bytes × Dp) : Prop :=
  ∀ k b d e, AgreeOn f d e → (body k b d).1 = (body k b e).1 ∧ AgreeOn f (body k b d).2 (body k b e).2

theorem RoundAgrees.loop {f : Dp → List Block} {body : Nat → Bytes → Dp → Bytes × Dp} (h : RoundAgrees f body)
    {d e : Dp} (hde : AgreeOn f d e) (k : Nat) (bs : List Bytes) :
    (forBlocks body k bs d).1 = (forBlocks body k bs e).1
      ∧ AgreeOn f (forBlocks body k bs d).2 (forBlocks body k bs e).2 :=
  forBlocks_congr (fun k b _ d e => h k b d e) k hde

theorem ecb_rounds (P : Prim) :
    RoundAgrees (fun _ => []) (ecbEncBody P) ∧ RoundAgrees (fun _ => []) (ecbDecBody P) := by
  constructor <;>
    · rintro k b ⟨⟩ ⟨⟩ ⟨hkey, -⟩
      cases hkey
      exact ⟨rfl, rfl, rfl⟩

/-- The rounds that carry `eng.V` from block to block (R100 to R106, and R79). -/
def chainedBodies (P : Prim) : List (Nat → Bytes → Dp → Bytes × Dp) :=
  [cbcEncBody P, cbcDecBody P, cfbEncBody P, cfbDecBody P, ofbBody P, ctrBody P, gctrBody P]

theorem chained_rounds (P : Prim) : ∀ body ∈ chainedBodies P, RoundAgrees (fun d => [d.v]) body := by
  intro body hbody
  simp only [chainedBodies, List.mem_cons, List.not_mem_nil, or_false] at hbody
  rcases hbody with rfl | rfl | rfl | rfl | rfl | rfl | rfl <;>
    · rintro k b ⟨⟩ ⟨⟩ ⟨hkey, hv⟩
      cases hkey
      cases hv
      exact ⟨rfl, rfl, rfl⟩

/-- The rounds of CCM: the MAC carries `eng.Y`, and the loops around it keep what the tag is made of (R117, R118). -/
theorem ccm_rounds (P : Prim) (n : Bytes) :
    RoundAgrees (fun d => [d.y]) (ccmMacBody P) ∧ RoundAgrees (fun d => [d.j0, d.tmpT]) (ccmCtrBody P n)
      ∧ RoundAgrees (fun d => [d.j0]) (ccmPeekBody P n) ∧ RoundAgrees (fun d => [d.y, d.j0]) (ccmPeekMacBody P) := by
  refine ⟨?_, ?_, ?_, ?_⟩ <;>
    · rintro k b ⟨⟩ ⟨⟩ ⟨hkey, hregs⟩
      cases hkey
      cases hregs
      exact ⟨rfl, rfl, rfl⟩

/-! ### The units of GCM -/

/-- Absorbing blocks folds them into `eng.Y` (R76). -/
theorem ghashBlocks_y (bs : List Bytes) (d : Dp) :
    (Dp.ghashBlocks bs d).y = bs.foldl (fun y b => gfMul (y ^^^ blockOf b) d.h) d.y := by
  induction bs generalizing d with
  | nil => rfl
  | cons b bs ih => rw [Dp.ghashBlocks, ih, ghashAbsorb_h, ghashAbsorb_y, List.foldl_cons]

/-- The subkey and the first counter block are functions of the key and the nonce (R78, R119). -/
theorem gcmSetup_h (P : Prim) (n : Bytes) (d : Dp) : (gcmSetup P n d).h = P d.key 0 := by
  unfold gcmSetup Dp.setJ0
  split
  · rfl
  · simp

theorem gcmSetup_j0 (P : Prim) (n : Bytes) (d : Dp) : (gcmSetup P n d).j0 = gcmJ0 P d.key n := by
  unfold gcmSetup Dp.setJ0 gcmJ0
  split
  · rfl
  · simp [ghashBlocks_y, ghash]

theorem gcmHash_y (a c : Bytes) (d : Dp) :
    (gcmHash a c d).y = gfMul (ghash d.h (blks (padz a) ++ blks (padz c)) ^^^ lenblk a c) d.h := by
  simp [gcmHash, Dp.ghashAbsorbz, ghashBlocks_y, ghash]

theorem gcmHash_j0 (a c : Bytes) (d : Dp) : (gcmHash a c d).j0 = d.j0 := by
  simp [gcmHash, Dp.ghashAbsorbz]

theorem gctr_h (P : Prim) (icb : Block) (b : Bytes) (d : Dp) : (gctr P icb b d).2.h = d.h :=
  forBlocks_keeps (I := fun x => x.h = d.h) (fun _ _ _ hx => hx) _ _ _ rfl

theorem gctr_j0 (P : Prim) (icb : Block) (b : Bytes) (d : Dp) : (gctr P icb b d).2.j0 = d.j0 :=
  forBlocks_keeps (I := fun x => x.j0 = d.j0) (fun _ _ _ hx => hx) _ _ _ rfl

/-! ### The rules -/

/-- Two rules that test alike and end alike in each case. -/
theorem result_ite {p q : Prop} [Decidable p] [Decidable q] {a b a' b' : Result × Dp} (hpq : p ↔ q) (ha : a.1 = a'.1)
    (hb : b.1 = b'.1) : (if p then a else b).1 = (if q then a' else b').1 := by
  by_cases h : p
  · rw [if_pos h, if_pos (hpq.mp h), ha]
  · rw [if_neg h, if_neg (mt hpq.mpr h), hb]

theorem enc_congr (P : Prim) {d e : Dp} (h : d.key = e.key) (x : Block) : (d.enc P x).1 = (e.enc P x).1 := by
  rw [enc_fst, enc_fst, h]

theorem dec_congr (P : Prim) {d e : Dp} (h : d.key = e.key) (x : Block) : (d.dec P x).1 = (e.dec P x).1 := by
  rw [dec_fst, dec_fst, h]

/-- A loop of chained rounds, `eng.V` set to the same block before it. -/
theorem chained_loop {P : Prim} {body : Nat → Bytes → Dp → Bytes × Dp} (hb : body ∈ chainedBodies P) {d e : Dp}
    (h : d.key = e.key) (v : Block) (bs : List Bytes) :
    (forBlocks body 0 bs { d with v := v }).1 = (forBlocks body 0 bs { e with v := v }).1
      ∧ AgreeOn (fun d => [d.v]) (forBlocks body 0 bs { d with v := v }).2
        (forBlocks body 0 bs { e with v := v }).2 :=
  (chained_rounds P body hb).loop (d := { d with v := v }) (e := { e with v := v }) ⟨h, rfl⟩ 0 bs

section Congr

variable (P : Prim) (o : Operands) {d e : Dp} (h : d.key = e.key)
include h

theorem ecbDecRule_congr : (ecbDecRule P o d).1 = (ecbDecRule P o e).1 := by
  dsimp only [ecbDecRule]
  have hz := dec_congr P h
  exact result_ite (by rw [hz]) (congrArg₂ (fun x z => Result.ok (x ++ unpad (bytesOf z)) none)
    ((ecb_rounds P).2.loop (by exact ⟨h, rfl⟩) 0 _).1 (hz _)) rfl

theorem cbcDecRule_congr : (cbcDecRule P o d).1 = (cbcDecRule P o e).1 := by
  dsimp only [cbcDecRule]
  have hz := fun x y => congrArg (· ^^^ y) (dec_congr P h x)
  exact result_ite (by rw [hz]) (congrArg₂ (fun x z => Result.ok (x ++ unpad (bytesOf z)) none)
    ((chained_rounds P _ (by simp [chainedBodies])).loop (by exact ⟨h, rfl⟩) 0 _).1 (hz _ _)) rfl

theorem ctsEncRule_congr : (ctsEncRule P o d).1 = (ctsEncRule P o e).1 := by
  dsimp only [ctsEncRule]
  refine result_ite Iff.rfl (congrArg (fun x => Result.ok (bytesOf x) none) (enc_congr P h _)) ?_
  obtain ⟨hout, hkey, hv⟩ := chained_loop (P := P) (body := cbcEncBody P) (by simp [chainedBodies]) h (blockOf o.iv)
    ((blks o.inp).take (numBlocks o.inp - 2))
  simp only [enc_fst, enc_key, hout, hkey, (List.cons.inj hv).1]

theorem ctsDecRule_congr : (ctsDecRule P o d).1 = (ctsDecRule P o e).1 := by
  dsimp only [ctsDecRule]
  refine result_ite Iff.rfl (congrArg (fun x => Result.ok (bytesOf (x ^^^ _)) none) (dec_congr P h _)) ?_
  obtain ⟨hout, hkey, hv⟩ := chained_loop (P := P) (body := cbcDecBody P) (by simp [chainedBodies]) h (blockOf o.iv)
    ((blks o.inp).take (numBlocks o.inp - 2))
  simp only [dec_fst, dec_key, dec_v, hout, hkey, (List.cons.inj hv).1]

/-- The MAC starts from `eng.Y = 0`, and the counter loop keeps the MAC value in `T` and the first counter block. -/
theorem ccmEncRule_congr : (ccmEncRule P o d).1 = (ccmEncRule P o e).1 := by
  obtain ⟨mac, ctr, -, -⟩ := ccm_rounds P o.iv
  dsimp only [ccmEncRule]
  have hmac := mac.loop (d := d.macInit) (e := e.macInit) ⟨h, rfl⟩ 0 (blks (ccmFormat o.iv o.aad o.inp))
  generalize forBlocks (ccmMacBody P) 0 _ d.macInit = m at *
  generalize forBlocks (ccmMacBody P) 0 _ e.macInit = m' at *
  obtain ⟨-, hkey, hy⟩ := hmac
  obtain ⟨hout, hkey, hregs⟩ := ctr.loop (d := { m.2 with tmpT := m.2.y, j0 := ccmCtr o.iv 0 })
    (e := { m'.2 with tmpT := m'.2.y, j0 := ccmCtr o.iv 0 }) ⟨hkey, congrArg (ccmCtr o.iv 0 :: ·) hy⟩ 1
    (blks o.inp)
  obtain ⟨hj0, hT⟩ := List.cons.inj hregs
  simp only [enc_fst, hout, hkey, hj0, (List.cons.inj hT).1]

/-- Pass 1 verifies the same tag, so both runs reach pass 2 or neither. -/
theorem ccmDecRule_congr : (ccmDecRule P o d).1 = (ccmDecRule P o e).1 := by
  obtain ⟨-, ctr, peek, peekMac⟩ := ccm_rounds P o.iv
  dsimp only [ccmDecRule]
  have hpeek := peek.loop (d := { d with j0 := ccmCtr o.iv 0 }) (e := { e with j0 := ccmCtr o.iv 0 }) ⟨h, rfl⟩ 1
    (blks o.inp)
  generalize forBlocks (ccmPeekBody P o.iv) 1 _ { d with j0 := ccmCtr o.iv 0 } = q at *
  generalize forBlocks (ccmPeekBody P o.iv) 1 _ { e with j0 := ccmCtr o.iv 0 } = q' at *
  obtain ⟨hq, hkey, hj0⟩ := hpeek
  have hmac := peekMac.loop (d := q.2.macInit) (e := q'.2.macInit) ⟨hkey, congrArg (0 :: ·) hj0⟩ 0
    (blks (ccmFormat o.iv o.aad q.1))
  rw [← hq]
  generalize forBlocks (ccmPeekMacBody P) 0 _ q.2.macInit = m at *
  generalize forBlocks (ccmPeekMacBody P) 0 _ q'.2.macInit = m' at *
  obtain ⟨-, hkey, hregs⟩ := hmac
  obtain ⟨hy, hj0⟩ := List.cons.inj hregs
  have hT : m.2.y ^^^ (m.2.enc P m.2.j0).1 = m'.2.y ^^^ (m'.2.enc P m'.2.j0).1 := by
    rw [hy, (List.cons.inj hj0).1, enc_congr P hkey]
  have hregs := congrArg₂ (fun x y => [x, y]) (List.cons.inj hj0).1 hT
  exact result_ite (by simp only [enc_y, hT]) (congrArg (Result.ok · none)
    (ctr.loop (by exact ⟨hkey, hregs⟩) 1 _).1) rfl

theorem gctr_congr (icb : Block) (b : Bytes) : (gctr P icb b d).1 = (gctr P icb b e).1 :=
  (chained_loop (P := P) (body := gctrBody P) (by simp [chainedBodies]) h icb (blks b)).1

theorem gcmSetup_key_congr (n : Bytes) : (gcmSetup P n d).key = (gcmSetup P n e).key := by
  rw [gcmSetup_key, gcmSetup_key, h]

/-- The subkey, the first counter block and the hash are functions of the operands and the key. -/
theorem gcmEncRule_congr : (gcmEncRule P o d).1 = (gcmEncRule P o e).1 := by
  dsimp only [gcmEncRule]
  simp only [enc_fst, enc_y, gcmHash_y, gcmHash_key, gcmHash_j0, gctr_key, gctr_h, gctr_j0, gcmSetup_key, gcmSetup_h,
    gcmSetup_j0, h, gctr_congr P (gcmSetup_key_congr P h o.iv)]

theorem gcmDecRule_congr : (gcmDecRule P o d).1 = (gcmDecRule P o e).1 := by
  have hkey : (gcmHash o.aad o.inp (gcmSetup P o.iv d)).key = (gcmHash o.aad o.inp (gcmSetup P o.iv e)).key := by
    rw [gcmHash_key, gcmHash_key, gcmSetup_key_congr P h]
  dsimp only [gcmDecRule]
  refine result_ite ?_ (congrArg (Result.ok · none) ?_) rfl
  · simp only [enc_fst, enc_y, gcmHash_y, gcmHash_key, gcmHash_j0, gcmSetup_key, gcmSetup_h, gcmSetup_j0, h]
  · simp only [enc_j0, gcmHash_j0, gcmSetup_j0, h]
    exact gctr_congr P (by exact hkey) _ _

/-- What a rule answers is a function of the operands and `eng.K`: no rule reads a register it has not written (R37). -/
theorem ruleOf_result_congr (i : Instr) : (ruleOf P i o d).1 = (ruleOf P i o e).1 := by
  cases i <;> dsimp only [ruleOf]
  case ecbEnc => exact congrArg (Result.ok · none) ((ecb_rounds P).1.loop ⟨h, rfl⟩ 0 _).1
  case ecbDec => exact ecbDecRule_congr P o h
  case cbcDec => exact cbcDecRule_congr P o h
  case ctsEnc => exact ctsEncRule_congr P o h
  case ctsDec => exact ctsDecRule_congr P o h
  case ccmEnc => exact ccmEncRule_congr P o h
  case ccmDec => exact ccmDecRule_congr P o h
  case gcmEnc => exact gcmEncRule_congr P o h
  case gcmDec => exact gcmDecRule_congr P o h
  all_goals exact congrArg (Result.ok · none) (chained_loop (P := P) (by simp [chainedBodies]) h _ _).1

end Congr

end Sys2Proof.Proofs
end

section
/-! PROOF. The host obligations of an operation (20_memory.md R47 to R54) and the engine's stores (R50, R51): O25, O26,
O47 and O48. -/

namespace Sys2Proof.Proofs

open Sys2Proof.Machine Sys2Proof.Laws

/-! ## The obligations, one by one -/

/-- The host obligations of command `i` with an output of `l` bytes, as R47, R49, R52 and R54 state them. -/
structure Met (i : Instr) (l : Nat) (s : State) : Prop where
  inRange : ∀ r ∈ readBufs i s.eng.cfg ++ writeBufs i s.eng.cfg l, r.base + r.len ≤ 2 ^ 32
  ordinary : ∀ r ∈ readBufs i s.eng.cfg ++ writeBufs i s.eng.cfg l, s.plat.ordinary r = true
  side : ∀ r ∈ sideBufs i s.eng.cfg, r.overlaps (s.eng.cfg.dstBuf l) = false
  payload : s.eng.cfg.dstAddr = s.eng.cfg.srcAddr ∨ s.eng.cfg.srcBuf.overlaps (s.eng.cfg.dstBuf l) = false
  tag : writesTag i = true → (s.eng.cfg.dstBuf l).overlaps s.eng.cfg.tagBuf = false
    ∧ ∀ r ∈ readBufs i s.eng.cfg, r.overlaps s.eng.cfg.tagBuf = false
  visible : s.plat.dmaCoherent = false → ∀ a ∈ s.eng.stale,
    ∀ r ∈ readBufs i s.eng.cfg ++ writeBufs i s.eng.cfg l, r.has a = false

theorem visibleOk_iff {s : State} {bufs : List Region} :
    visibleOk s bufs = true ↔
      (s.plat.dmaCoherent = false → ∀ a ∈ s.eng.stale, ∀ r ∈ bufs, r.has a = false) := by
  cases h : s.plat.dmaCoherent <;> simp [visibleOk, h]

theorem overlapOk_iff {i : Instr} {c : Params} {l : Nat} :
    overlapOk i c l = true ↔
      (∀ r ∈ sideBufs i c, r.overlaps (c.dstBuf l) = false)
      ∧ (c.dstAddr = c.srcAddr ∨ c.srcBuf.overlaps (c.dstBuf l) = false)
      ∧ (writesTag i = true →
        (c.dstBuf l).overlaps c.tagBuf = false ∧ ∀ r ∈ readBufs i c, r.overlaps c.tagBuf = false) := by
  cases h : writesTag i with
  | false => simp [overlapOk, h]
  | true =>
    simp only [overlapOk, h, Bool.and_eq_true, Bool.or_eq_true, Bool.not_eq_true', List.any_eq_false, decide_eq_true_eq,
      Bool.not_eq_true, false_or, true_implies, Bool.not_true, Bool.false_eq_true]
    tauto

theorem obligations_none_iff_met {i : Instr} {l : Nat} {s : State} : obligations i l s = none ↔ Met i l s := by
  rw [obligations_none, overlapOk_iff, visibleOk_iff]
  constructor
  · rintro ⟨hrange, hord, ⟨hside, hpay, htag⟩, hvis⟩
    exact ⟨fun r hr => (inRange_iff r).mp (hrange r hr), hord, hside, hpay, htag, hvis⟩
  · rintro ⟨hrange, hord, hside, hpay, htag, hvis⟩
    exact ⟨fun r hr => (inRange_iff r).mpr (hrange r hr), hord, ⟨hside, hpay, htag⟩, hvis⟩

/-- A validated command runs only with its obligations met for the output its rule gives (log 16). -/
theorem exec_refused_or_met {i : Instr} {s : State} (hv : validate i s.eng.cfg = none) :
    (∃ why, exec i s = .refused why)
      ∨ Met i (outSpan s.eng.cfg (ruleResult i (ruleOf Config.prim i) s).1) s := by
  rw [exec_eq_ruleOf]
  rcases runRule_cases i (ruleOf Config.prim i) s with ⟨e, he, -⟩ | ⟨-, why, -, h⟩ | ⟨-, ho, -⟩
  · rw [hv] at he
    cases he
  · exact .inl ⟨why, h⟩
  · exact .inr (obligations_none_iff_met.mp ho)

/-- A validated CTS command has a payload of at least one block (R89 test 9). -/
theorem validate_cts {i : Instr} {c : Params} (hv : validate i c = none) (hm : i.mode = .cts) :
    16 ≤ c.srcLen.toNat := by
  by_contra hc
  revert hv
  unfold validate
  (repeat' split) <;> simp_all

/-- The output length R50 gives a validated command is the known one, whatever its operands hold. -/
theorem outSpan_ruleResult {i : Instr} {s : State} {l : Nat} (hv : validate i s.eng.cfg = none)
    (hl : knownSpan i s.eng.cfg = some l) :
    outSpan s.eng.cfg (ruleResult i (ruleOf Config.prim i) s).1 = l := by
  have hn : (operands i s.eng.cfg s.mem).inp.length = s.eng.cfg.srcLen.toNat := length_fetch _ _
  exact outSpan_ruleOf hl hn fun hm => hn ▸ validate_cts hv hm

/-- Settles O25: were the command not refused, `Met` would hold of the known length, against the hypothesis. -/
theorem unmetObligationIsRefused : Obligations.UnmetObligationIsRefused := by
  intro s i hv
  refine ⟨fun r hr hbad => ?_, fun l hl hbad => ?_⟩
  · refine (exec_refused_or_met hv).resolve_right fun hmet => ?_
    have hmem : r ∈ readBufs i s.eng.cfg
        ++ writeBufs i s.eng.cfg (outSpan s.eng.cfg (ruleResult i (ruleOf Config.prim i) s).1) := by
      rcases hr with hr | ⟨l, hl, hr⟩
      · exact List.mem_append_left _ hr
      · rw [outSpan_ruleResult hv hl]
        exact List.mem_append_right _ hr
    rcases hbad with hlen | hord | ⟨hc, a, ha, hhas⟩
    · exact absurd (hmet.inRange r hmem) (by omega)
    · simp [hmet.ordinary r hmem] at hord
    · simp [hmet.visible hc a ha r hmem] at hhas
  · refine (exec_refused_or_met hv).resolve_right fun hmet => ?_
    rw [outSpan_ruleResult hv hl] at hmet
    rcases hbad with ⟨r, hr, hov⟩ | ⟨hne, hov⟩ | ⟨hw, ⟨r, hr, hov⟩ | hov⟩
    · simp [hmet.side r hr] at hov
    · simp [hmet.payload.resolve_left hne] at hov
    · simp [(hmet.tag hw).2 r hr] at hov
    · simp [(hmet.tag hw).1] at hov

/-! ## The end of a successful command -/

/-- A validated command that ends in success met its obligations for its real output, which it stored with the tag its
rule gave (R91). -/
theorem exec_success {i : Instr} {s t : State} (hv : validate i s.eng.cfg = none) (hx : exec i s = .next t)
    (hres : t.eng.res = none) :
    obligations i t.eng.dp.out.length s = none ∧ ∃ tout,
      (ruleResult i (ruleOf Config.prim i) s).1 = .ok t.eng.dp.out tout
        ∧ t.mem = storeResult s.eng.cfg t.eng.dp.out tout s.mem := by
  obtain ⟨ho, rfl⟩ := exec_next_commit hx hv
  generalize ruleResult i (ruleOf Config.prim i) s = r at *
  obtain ⟨out, tout⟩ | e := r
  · exact ⟨ho, tout, rfl, rfl⟩
  · cases hres

/-- Settles O26: a success has run with `Met` for the length of its output string. -/
theorem successImpliesEveryHostObligation : Obligations.SuccessImpliesEveryHostObligation := by
  intro s t i hv hx hres
  have hmet := obligations_none_iff_met.mp (exec_success hv hx hres).1
  exact ⟨fun r hr => ⟨hmet.inRange r hr, hmet.ordinary r hr⟩, hmet.side, hmet.payload, hmet.tag, hmet.visible⟩

/-! ## What the stores of an operation reach -/

section Stores

variable {i : Instr} {c : Params} {out : Bytes} {tout : Option Bytes} {m : List Host.Cell}
  (hw : Memory.wf m) (htag : tout.map List.length = if writesTag i then some 16 else none)
  (hrange : ∀ r ∈ writeBufs i c out.length, r.base + r.len ≤ 2 ^ 32)
include hw htag hrange

/-- A byte after the stores of an operation: the tag's, the output's or the one that was there. -/
theorem read_storeResult (a : Nat) :
    Memory.read (storeResult c out tout m) a =
      if writesTag i = true ∧ c.tagBuf.has a = true then (tout.getD []).getD (a - c.tagAddr.toNat) 0
      else if (c.dstBuf out.length).has a = true then out.getD (a - c.dstAddr.toNat) 0
      else Memory.read m a := by
  have hdst : c.dstAddr.toNat + out.length ≤ Config.memorySize := hrange (c.dstBuf out.length) (by simp [writeBufs])
  have hhas : ∀ b l, Region.has { base := b, len := l } a = true ↔ b ≤ a ∧ a < b + l := by simp [Region.has]
  by_cases hwt : writesTag i = true
  · obtain ⟨tag, rfl, hlen⟩ : ∃ tag, tout = some tag ∧ tag.length = 16 := by simpa [hwt] using htag
    have htl : c.tagAddr.toNat + tag.length ≤ Config.memorySize := by
      rw [hlen]
      exact hrange c.tagBuf (by simp [writeBufs, hwt])
    rw [storeResult_some, read_writeBytes (wf_writeBytes hw hdst) htl, read_writeBytes hw hdst, hlen]
    simp only [Params.tagBuf, Params.dstBuf, hhas, hwt, true_and, Config.tagBytes, Option.getD_some]
  · obtain rfl : tout = none := by simpa [hwt] using htag
    rw [storeResult_none, read_writeBytes hw hdst,
      if_neg (show ¬(writesTag i = true ∧ c.tagBuf.has a = true) from fun h => hwt h.1)]
    simp only [Params.dstBuf, hhas]

/-- The stores of an operation leave every byte outside its output buffers as it was (R51). -/
theorem read_storeResult_outside {a : Nat} (ha : ∀ r ∈ writeBufs i c out.length, r.has a = false) :
    Memory.read (storeResult c out tout m) a = Memory.read m a := by
  rw [read_storeResult hw htag hrange, if_neg, if_neg]
  · simp [ha (c.dstBuf out.length) (by simp [writeBufs])]
  · rintro ⟨hwt, h⟩
    simp [ha c.tagBuf (by simp [writeBufs, hwt])] at h

/-- In its output buffers the stores of an operation leave no byte of what was there. -/
theorem read_storeResult_inside {m' : List Host.Cell} (hw' : Memory.wf m') {r : Region}
    (hr : r ∈ writeBufs i c out.length) {a : Nat} (ha : r.has a = true) :
    Memory.read (storeResult c out tout m) a = Memory.read (storeResult c out tout m') a := by
  rw [read_storeResult hw htag hrange, read_storeResult hw' htag hrange]
  by_cases htg : writesTag i = true ∧ c.tagBuf.has a = true
  · rw [if_pos htg, if_pos htg]
  · have hdst : (c.dstBuf out.length).has a = true := by
      by_cases hwt : writesTag i = true
      · simp only [writeBufs, hwt, if_true, List.mem_cons, List.not_mem_nil, or_false] at hr
        rcases hr with rfl | rfl
        · exact ha
        · exact absurd ⟨hwt, ha⟩ htg
      · simp only [writeBufs, hwt, if_false, List.mem_cons, List.not_mem_nil, or_false, Bool.false_eq_true] at hr
        exact hr ▸ ha
    rw [if_neg htg, if_neg htg, if_pos hdst, if_pos hdst]

end Stores

/-! ## Engine steps and memory -/

/-- An engine step leaves memory as it was, or is the last step of `RUN` of a command (R89, R91, R93). -/
theorem engineStep_mem {s t : State} (hx : engineStep s = .next t) :
    t.mem = s.mem ∨ ∃ i, decode s.eng.cmd = .ok i ∧ exec i s = .next t := by
  rcases engineStep_cases s with ⟨-, hc⟩ | ⟨-, hc⟩ | ⟨-, k, -, hc⟩ | ⟨-, -, hc⟩ | ⟨-, hc⟩ <;> rw [hc] at hx
  · cases hx
    exact .inl rfl
  · rcases checkStep_cases s with ⟨e, -, hc⟩ | ⟨i, why, -, -, -, hc⟩ | ⟨i, u, -, -, -, hc⟩ <;>
      rw [hc] at hx <;> cases hx <;> exact .inl rfl
  · cases hx
    exact .inl rfl
  · rcases runOutcome_cases s with ⟨i, hd, hr⟩ | ⟨e, -, hr⟩ <;> rw [hr] at hx
    · exact .inr ⟨i, hd, hx⟩
    · cases hx
      exact .inl rfl
  · cases hx
    exact .inl rfl

/-- A command that does not pass validation, or does not end in success, leaves memory as it was (R89, R92). -/
theorem exec_mem_or_success {i : Instr} {s t : State} (hx : exec i s = .next t) :
    t.mem = s.mem ∨ (validate i s.eng.cfg = none ∧ t.eng.res = none) := by
  cases hv : validate i s.eng.cfg with
  | some e =>
    rw [exec_eq_ruleOf, runRule_invalid hv] at hx
    cases hx
    exact .inl rfl
  | none =>
    obtain ⟨-, rfl⟩ := exec_next_commit hx hv
    generalize ruleResult i (ruleOf Config.prim i) s = r
    obtain ⟨_ | _, d⟩ := r
    · exact .inr ⟨rfl, rfl⟩
    · exact .inl rfl

/-- Settles O47: the one step that changes memory is that of a success, which stores to its output buffers alone. -/
theorem engineStoresStayInTheOutputBuffers : Obligations.EngineStoresStayInTheOutputBuffers := by
  intro s t hw hx a hne
  obtain ⟨i, hd, hx⟩ := (engineStep_mem hx).resolve_left fun h => hne (by rw [h])
  obtain ⟨hv, hres⟩ := (exec_mem_or_success hx).resolve_left fun h => hne (by rw [h])
  obtain ⟨ho, tout, hr, hmem⟩ := exec_success hv hx hres
  have hmet := obligations_none_iff_met.mp ho
  refine ⟨i, hd, ?_⟩
  by_contra hout
  refine hne ?_
  rw [hmem]
  exact read_storeResult_outside hw (ruleOf_tout hr) (fun r hr => hmet.inRange r (List.mem_append_right _ hr))
    fun r hr => by simpa using fun h => hout ⟨r, hr, h⟩

/-! ## Noninterference -/

/-- The operands of a command are what its input buffers hold (R65). -/
theorem operands_congr {i : Instr} {c : Params} {m m' : List Host.Cell}
    (h : ∀ r ∈ readBufs i c, r.fetch m = r.fetch m') : operands i c m = operands i c m' := by
  have hkey := h c.keyBuf (by simp [readBufs, sideBufs])
  have hsrc := h c.srcBuf (by simp [readBufs])
  have hiv : usesIv i = true → c.ivBuf.fetch m = c.ivBuf.fetch m' := fun hu =>
    h _ (by simp [readBufs, sideBufs, hu])
  have haad : usesAad i = true → c.aadBuf.fetch m = c.aadBuf.fetch m' := fun hu =>
    h _ (by simp [readBufs, sideBufs, hu])
  have htag : readsTag i = true → c.tagBuf.fetch m = c.tagBuf.fetch m' := fun hu =>
    h _ (by simp [readBufs, sideBufs, hu])
  simp only [operands, hkey, hsrc, Operands.mk.injEq, true_and]
  exact ⟨ite_congr rfl hiv fun _ => rfl, ite_congr rfl haad fun _ => rfl, ite_congr rfl htag fun _ => rfl⟩

/-- A command's result depends on its parameters and the bytes of its input buffers alone (R37, R65). -/
theorem ruleResult_congr {i : Instr} {s s' : State} (hc : s.eng.cfg = s'.eng.cfg)
    (h : ∀ r ∈ readBufs i s.eng.cfg, r.fetch s.mem = r.fetch s'.mem) :
    (ruleResult i (ruleOf Config.prim i) s).1 = (ruleResult i (ruleOf Config.prim i) s').1 := by
  unfold ruleResult
  rw [← hc, ← operands_congr h]
  exact ruleOf_result_congr _ _ (by rfl) i

/-- The pending result after `RUN` is that of the rule. -/
theorem commit_res_congr {r r' : Result × Dp} (h : r.1 = r'.1) (s s' : State) :
    (s.commit r).eng.res = (s'.commit r').eng.res := by
  obtain ⟨r, d⟩ := r
  obtain ⟨r', d'⟩ := r'
  obtain rfl : r = r' := h
  cases r <;> rfl

/-- Settles O48: the two runs have one result, and store the same bytes wherever they store. -/
theorem resultDependsOnlyOnCommandParametersAndSnapshot :
    Obligations.ResultDependsOnlyOnCommandParametersAndSnapshot := by
  intro i s s' t t' hw hw' hc hv hread hx hx'
  have hv' : validate i s'.eng.cfg = none := hc ▸ hv
  have hresult := ruleResult_congr hc hread
  have hres : t.eng.res = t'.eng.res := by
    rw [(exec_next_commit hx hv).2, (exec_next_commit hx' hv').2]
    exact commit_res_congr hresult s s'
  refine ⟨hres, fun hok => ?_⟩
  obtain ⟨ho, tout, hr, hmem⟩ := exec_success hv hx hok
  obtain ⟨-, tout', hr', hmem'⟩ := exec_success hv' hx' (hres ▸ hok)
  obtain ⟨hout, rfl⟩ := Result.ok.inj (hr.symm.trans (hresult.trans hr'))
  have hmet := obligations_none_iff_met.mp ho
  refine ⟨hout, fun r hr₁ => readBytes_congr fun b hlo hhi => ?_⟩
  rw [hmem, hmem', ← hc, ← hout]
  exact read_storeResult_inside hw (ruleOf_tout hr) (fun r hr => hmet.inRange r (List.mem_append_right _ hr)) hw' hr₁
    (by simp [Region.has, hlo, hhi])

end Sys2Proof.Proofs
end

section
/-! PROOF. The decoder and the encoder (30_encoding.md R61 to R67): a command word is its six fields, the encoder lays
them out and the decoder reads them back; the statements O1, O2 and O3. -/

namespace Sys2Proof.Proofs

open Sys2Proof.Machine Sys2Proof.Laws

/-! ## The fields of a word -/

/-- The fields R61 cuts from the word `w` are those of the command `i`. -/
structure HasFields (w : Word) (i : Instr) : Prop where
  reserved : cmdReserved w = 0
  mode : cmdMode w = modeCode i.mode
  dir : cmdDir w = decide (i.dir = .dec)
  ivp : cmdIvp w = i.ivp
  aadp : cmdAadp w = i.aadp
  tagp : cmdTagp w = i.tagp

/-- Bit by bit: `MODE` is bits 3..0, then come `DIR` and the three flags, and the reserved bits are all those above (R61). -/
theorem HasFields.unique {w w' : Word} {i : Instr} (h : HasFields w i) (h' : HasFields w' i) : w = w' := by
  have hmode : w.extractLsb' 0 4 = w'.extractLsb' 0 4 := BitVec.eq_of_toNat_eq (h.mode.trans h'.mode.symm)
  have hreserved : w.extractLsb' 8 24 = w'.extractLsb' 8 24 := h.reserved.trans h'.reserved.symm
  refine BitVec.eq_of_getLsbD_eq fun k hk => ?_
  have hcases : k < 4 ∨ k = 4 ∨ k = 5 ∨ k = 6 ∨ k = 7 ∨ (8 ≤ k ∧ k - 8 < 24) := by omega
  obtain hlow | rfl | rfl | rfl | rfl | ⟨h8, hhigh⟩ := hcases
  · simpa [BitVec.getLsbD_extractLsb', hlow] using congrArg (·.getLsbD k) hmode
  · exact h.dir.trans h'.dir.symm
  · exact h.ivp.trans h'.ivp.symm
  · exact h.aadp.trans h'.aadp.symm
  · exact h.tagp.trans h'.tagp.symm
  · simpa [BitVec.getLsbD_extractLsb', hhigh, Nat.add_sub_cancel' h8] using congrArg (·.getLsbD (k - 8)) hreserved

/-- The mask of R63 leaves out the three flag bits and no other, so a word is what the mask keeps of it and its flags. -/
theorem eq_of_masked_of_flags {w w' : Word} (hmask : w &&& opcodeMask = w' &&& opcodeMask) (hivp : cmdIvp w = cmdIvp w')
    (haadp : cmdAadp w = cmdAadp w') (htagp : cmdTagp w = cmdTagp w') : w = w' := by
  have hbits : ∀ k < 32, k = 5 ∨ k = 6 ∨ k = 7 ∨ opcodeMask.getLsbD k = true := by decide
  refine BitVec.eq_of_getLsbD_eq fun k hk => ?_
  obtain rfl | rfl | rfl | hkept := hbits k hk
  · exact hivp
  · exact haadp
  · exact htagp
  · simpa [hkept] using congrArg (·.getLsbD k) hmask

/-- `MODE` lies under the mask of R63. -/
theorem cmdMode_and_mask (w : Word) : cmdMode (w &&& opcodeMask) = cmdMode w := by
  have hones : opcodeMask.extractLsb' 0 4 = BitVec.allOnes 4 := by decide
  unfold cmdMode
  rw [BitVec.extractLsb'_and, hones, BitVec.and_allOnes]

/-- `DIR` lies under the mask of R63. -/
theorem cmdDir_and_mask (w : Word) : cmdDir (w &&& opcodeMask) = cmdDir w := by
  have hone : opcodeMask.getLsbD 4 = true := by decide
  unfold cmdDir
  rw [BitVec.getLsbD_and, hone, Bool.and_true]

/-- The row of the opcode map of every command, from the lemmas that give it for each. -/
theorem opcodeRow (i : Instr) : OpcodeRow.Statement i := by
  cases i with
  | ecbEnc ivp aadp tagp => exact OpcodeRow.ecbEnc ivp aadp tagp
  | ecbDec ivp aadp tagp => exact OpcodeRow.ecbDec ivp aadp tagp
  | cbcEnc ivp aadp tagp => exact OpcodeRow.cbcEnc ivp aadp tagp
  | cbcDec ivp aadp tagp => exact OpcodeRow.cbcDec ivp aadp tagp
  | cfbEnc ivp aadp tagp => exact OpcodeRow.cfbEnc ivp aadp tagp
  | cfbDec ivp aadp tagp => exact OpcodeRow.cfbDec ivp aadp tagp
  | ofbEnc ivp aadp tagp => exact OpcodeRow.ofbEnc ivp aadp tagp
  | ofbDec ivp aadp tagp => exact OpcodeRow.ofbDec ivp aadp tagp
  | ctrEnc ivp aadp tagp => exact OpcodeRow.ctrEnc ivp aadp tagp
  | ctrDec ivp aadp tagp => exact OpcodeRow.ctrDec ivp aadp tagp
  | ctsEnc ivp aadp tagp => exact OpcodeRow.ctsEnc ivp aadp tagp
  | ctsDec ivp aadp tagp => exact OpcodeRow.ctsDec ivp aadp tagp
  | ccmEnc ivp aadp tagp => exact OpcodeRow.ccmEnc ivp aadp tagp
  | ccmDec ivp aadp tagp => exact OpcodeRow.ccmDec ivp aadp tagp
  | gcmEnc ivp aadp tagp => exact OpcodeRow.gcmEnc ivp aadp tagp
  | gcmDec ivp aadp tagp => exact OpcodeRow.gcmDec ivp aadp tagp

/-- `MODE` and `DIR` of the match column of R63. -/
theorem opcodeMatch_fields (i : Instr) :
    cmdMode (opcodeMatch i) = modeCode i.mode ∧ cmdDir (opcodeMatch i) = decide (i.dir = .dec) := by
  cases i <;> decide +revert

/-- The encoder lays out the command's own fields (R61, R67). -/
theorem encode_hasFields (i : Instr) : HasFields (encode i) i := by
  obtain ⟨hmatch, hreserved, hivp, haadp, htagp⟩ := opcodeRow i
  obtain ⟨hmode, hdir⟩ := opcodeMatch_fields i
  rw [← hmatch, cmdMode_and_mask] at hmode
  rw [← hmatch, cmdDir_and_mask] at hdir
  exact ⟨hreserved, hmode, hdir, hivp, haadp, htagp⟩

/-! ## What the decoder answers -/

/-- The opcode map gives a command exactly on its own code, direction and flags (R63). -/
theorem opcodeMap_eq_some_iff {m : Nat} {d ivp aadp tagp : Bool} {i : Instr} :
    opcodeMap m d ivp aadp tagp = some i ↔
      m = modeCode i.mode ∧ d = decide (i.dir = .dec) ∧ ivp = i.ivp ∧ aadp = i.aadp ∧ tagp = i.tagp := by
  constructor
  · intro h
    unfold opcodeMap at h
    split at h <;> cases h <;> exact ⟨rfl, rfl, rfl, rfl, rfl⟩
  · rintro ⟨rfl, rfl, rfl, rfl, rfl⟩
    cases i <;> rfl

/-- The opcode map has no row for the modes 8..15 and one for each below (R66). -/
theorem opcodeMap_eq_none_iff {m : Nat} {d ivp aadp tagp : Bool} : opcodeMap m d ivp aadp tagp = none ↔ 8 ≤ m := by
  constructor
  · intro h
    by_contra hm
    have hlt : m < 8 := by omega
    interval_cases m <;> cases d <;> cases h
  · intro hm
    unfold opcodeMap
    split
    case h_17 => rfl
    all_goals omega

/-- The decoder answers a command exactly on the words with its fields. -/
theorem decode_eq_ok_iff {w : Word} {i : Instr} : decode w = .ok i ↔ HasFields w i := by
  constructor
  · intro h
    unfold decode at h
    split at h
    case isTrue => cases h
    case isFalse hreserved =>
      split at h <;> cases h
      rename_i hmap
      obtain ⟨hmode, hdir, hivp, haadp, htagp⟩ := opcodeMap_eq_some_iff.mp hmap
      exact ⟨not_not.mp hreserved, hmode, hdir, hivp, haadp, htagp⟩
  · rintro ⟨hreserved, hmode, hdir, hivp, haadp, htagp⟩
    unfold decode
    rw [if_neg (not_not.mpr hreserved), opcodeMap_eq_some_iff.mpr ⟨hmode, hdir, hivp, haadp, htagp⟩]

/-- The decoder refuses exactly the words with a reserved bit or a reserved mode (R66). -/
theorem decode_eq_error_iff {w : Word} : (∃ e, decode w = .error e) ↔ cmdReserved w ≠ 0 ∨ 8 ≤ cmdMode w := by
  rw [← opcodeMap_eq_none_iff (d := cmdDir w) (ivp := cmdIvp w) (aadp := cmdAadp w) (tagp := cmdTagp w)]
  unfold decode
  by_cases hreserved : cmdReserved w = 0
  · rw [if_neg (not_not.mpr hreserved)]
    cases opcodeMap (cmdMode w) (cmdDir w) (cmdIvp w) (cmdAadp w) (cmdTagp w) <;> simp [hreserved]
  · rw [if_pos hreserved]
    exact iff_of_true ⟨_, rfl⟩ (.inl hreserved)

/-- Some reserved bit is set when the word, read as a number, has a digit above its lowest byte (R61). -/
theorem cmdReserved_ne_zero_iff (w : Word) : cmdReserved w ≠ 0 ↔ w.toNat / 256 ≠ 0 := by
  have hval : (cmdReserved w).toNat = w.toNat / 256 := by
    have := w.isLt
    simp only [cmdReserved, BitVec.extractLsb'_toNat, Nat.shiftRight_eq_div_pow]
    omega
  rw [← hval, ne_eq, ← BitVec.toNat_inj]
  rfl

/-- `MODE` is the lowest hexadecimal digit of the word (R61). -/
theorem cmdMode_eq (w : Word) : cmdMode w = w.toNat % 16 := by
  simp [cmdMode, BitVec.extractLsb'_toNat]

/-- A word is no command exactly when it is reserved. -/
theorem decode_eq_error_iff_reserved (w : Word) :
    (∃ e, decode w = .error e) ↔ (w.toNat / 256 ≠ 0 ∨ 8 ≤ w.toNat % 16) := by
  rw [decode_eq_error_iff, cmdReserved_ne_zero_iff, cmdMode_eq]

/-! ## The statements -/

/-- Settles O1: the command's word has its fields, and no other word has. -/
theorem wordDecodesToCommandIffItsEncoding : Obligations.WordDecodesToCommandIffItsEncoding := by
  intro w i
  rw [decode_eq_ok_iff]
  constructor
  · exact fun h => h.unique (encode_hasFields i)
  · rintro rfl
    exact encode_hasFields i

/-- Settles O2: by O1 the words of a command are its encoding alone, whose row and flags `OpcodeRow` gives. -/
theorem opcodeMapDecodesAndReservedWordsAreRefused : Obligations.OpcodeMapDecodesAndReservedWordsAreRefused := by
  refine fun w => ⟨fun i => ?_, decode_eq_error_iff_reserved w⟩
  obtain ⟨hmatch, -, hivp, haadp, htagp⟩ := opcodeRow i
  rw [wordDecodesToCommandIffItsEncoding w i]
  constructor
  · rintro rfl
    exact ⟨hmatch, hivp, haadp, htagp⟩
  · rintro ⟨hm, hi, ha, ht⟩
    exact eq_of_masked_of_flags (hm.trans hmatch.symm) (hi.trans hivp.symm) (ha.trans haadp.symm) (ht.trans htagp.symm)

/-- Settles O3: each word is the encoding of its command. -/
theorem exampleWordsOfTheSpecDecode : Obligations.ExampleWordsOfTheSpecDecode := by
  unfold Obligations.ExampleWordsOfTheSpecDecode
  simp only [wordDecodesToCommandIffItsEncoding _ _]
  decide

end Sys2Proof.Proofs
end

section
/-! PROOF. A reserved encoding from its acceptance to its completion (30_encoding.md R66, 41_sequencer.md R88, R89, R93):
the statement O43. -/

namespace Sys2Proof.Proofs

open Sys2Proof.Machine Sys2Proof.Laws

/-- A run takes its first step, then the others. -/
theorem run_succ {s t : State} (h : step s = .next t) (k : Nat) :
    Sys2Proof.core.run (k + 1) s = Sys2Proof.core.run k t := by
  have hcore : Sys2Proof.core.step s = .next t := h
  simp only [Host.Core.run, hcore]

/-- The step of `CHECK` on a command that does not pass validation (R89). -/
theorem step_check_error {s : State} {e : Err} (hi : s.inbox = []) (hp : s.eng.phase = .check)
    (he : checkCommand s.eng.cmd s.eng.cfg = some e) : step s = .next (s.endWith e) := by
  have hstep : step s = checkStep s := by
    rw [step_nil hi]
    simp only [engineStep, hp]
  rw [hstep]
  rcases checkStep_cases s with ⟨e', he', hc⟩ | ⟨i, _, hd, hv, -, -⟩ | ⟨i, _, hd, hv, -, -⟩
  · rwa [Option.some.inj (he.symm.trans he')]
  all_goals
    rw [checkCommand_of_decode hd, hv] at he
    cases he

/-- The step of `FINISH` is completion (R93). -/
theorem step_finish {s : State} (hi : s.inbox = []) (hp : s.eng.phase = .finish) : step s = .next s.complete := by
  rw [step_nil hi]
  simp only [engineStep, hp]

/-- A validation error takes two steps from `CHECK` to `IDLE` (R89, R93). -/
theorem run_check_error {s : State} {e : Err} (hi : s.inbox = []) (hp : s.eng.phase = .check)
    (he : checkCommand s.eng.cmd s.eng.cfg = some e) : Sys2Proof.core.run 2 s = .next (s.endWith e).complete :=
  calc Sys2Proof.core.run 2 s
    _ = Sys2Proof.core.run 1 (s.endWith e) := run_succ (step_check_error hi hp he) 1
    _ = Sys2Proof.core.run 0 (s.endWith e).complete := run_succ (step_finish (s := s.endWith e) hi rfl) 0

/-- A word that is no command fails test 1 of R89, whatever the parameters. -/
theorem checkCommand_of_decode_error {w : Word} (h : ∃ e, decode w = .error e) (c : Params) :
    checkCommand w c = some .illegalCommand := by
  obtain ⟨e, he⟩ := h
  simp only [checkCommand, he]

/-- Settles O43: acceptance, then the two steps of a validation error, whose code is 7. -/
theorem illegalCommandEndsWithCodeSeven : Obligations.IllegalCommandEndsWithCodeSeven := by
  intro s w hinbox hidle hreserved
  have haccept : step s = .next (State.accept w { s with inbox := [] }) := by
    rw [step_cons hinbox, handle_regWrite_ok (by decide), writeReg_cmd_idle (s := { s with inbox := [] }) hidle]
  have hillegal := checkCommand_of_decode_error ((decode_eq_error_iff_reserved w).mpr hreserved) s.par
  refine ⟨_, (run_succ haccept 2).trans (run_check_error rfl rfl hillegal), ?_, rfl, rfl, rfl, rfl⟩
  simp [State.statusWord, resCode, errCode]

end Sys2Proof.Proofs
end

section
/-! PROOF. The byte-level meaning of the two counters and of the CCM blocks (40_datapath.md R72 to R74, R81 to R83): the
statements O56 and O57. Both rest on how `be_n` (00_scope.md R11) splits into its high and its low bytes. -/

namespace Sys2Proof.Proofs

open Sys2Proof.Machine Sys2Proof.Laws

/-! ## The big-endian encoding -/

/-- The high bytes of an encoding are that of the quotient, the low bytes that of the number. -/
theorem be_add (m n x : Nat) : be (m + n) x = be m (x / 256 ^ n) ++ be n x := by
  induction n generalizing x with
  | zero => simp [be]
  | succ n ih =>
    rw [← Nat.add_assoc, be, be, ih, Nat.div_div_eq_div_mul, ← pow_succ', List.append_assoc]

/-- An encoding of `n` bytes is of the number modulo `256^n`. -/
theorem be_mod (n x : Nat) : be n (x % 256 ^ n) = be n x :=
  calc be n (x % 256 ^ n)
    _ = be (be n x).length (beInt (be n x)) := by rw [length_be, beInt_be]
    _ = be n x := be_beInt _

theorem be_one (x : Nat) : be 1 x = [BitVec.ofNat 8 x] := rfl

theorem getElem?_be {n k : Nat} (x : Nat) (h : k < n) :
    (be n x)[k]? = some (BitVec.ofNat 8 (x / 256 ^ (n - 1 - k))) := by
  obtain ⟨r, rfl⟩ : ∃ r, n = k + 1 + r := ⟨n - (k + 1), by omega⟩
  have hr : k + 1 + r - 1 - k = r := by omega
  rw [be_add, be, hr, List.append_assoc, List.getElem?_append_right (by simp)]
  simp

@[simp] theorem beInt_bytesOf (x : Block) : beInt (bytesOf x) = x.toNat := by
  rw [bytesOf, beInt_be]
  exact Nat.mod_eq_of_lt x.isLt

/-- The first 12 bytes of a block encode its high 96 bits. -/
theorem msb_bytesOf (x : Block) : msb 12 (bytesOf x) = be 12 (x.toNat / 2 ^ 32) := by
  rw [bytesOf, be_add 12 4]
  exact List.take_left' (length_be 12 _)

/-- The last four bytes of a block encode its low 32 bits. -/
theorem lsb_bytesOf (x : Block) : lsb 4 (bytesOf x) = be 4 x.toNat := by
  rw [lsb, length_bytesOf, bytesOf, be_add 12 4]
  exact List.drop_left' (length_be 12 _)

/-! ## The counters -/

theorem toNat_inc128 (x : Block) : (inc128 x).toNat = (x.toNat + 1) % 2 ^ 128 := BitVec.toNat_add x 1

/-- `inc32` as a number: the high 96 bits stay, the low 32 wrap around. -/
theorem toNat_inc32 (x : Block) :
    (inc32 x).toNat = x.toNat / 2 ^ 32 * 2 ^ 32 + (x.toNat + 1) % 2 ^ 32 := by
  have hx : x.toNat < 2 ^ 128 := x.isLt
  have hlow : (x.extractLsb' 0 32 + 1).toNat = (x.toNat + 1) % 2 ^ 32 := by
    simp [BitVec.toNat_add]
  have hhigh : (x.extractLsb' 32 96).toNat = x.toNat / 2 ^ 32 := by
    rw [BitVec.extractLsb'_toNat, Nat.shiftRight_eq_div_pow]
    omega
  rw [inc32, BitVec.toNat_append, hlow, hhigh, ← Nat.shiftLeft_add_eq_or_of_lt (Nat.mod_lt _ (by norm_num)),
    Nat.shiftLeft_eq]

/-- Settles O56: `inc128` on the whole number, `inc32` on its low four bytes, the high twelve kept. -/
theorem counterIncrementsAreBigEndian : Obligations.CounterIncrementsAreBigEndian := by
  intro x
  constructor
  · rw [beInt_bytesOf, ← toNat_inc128]
    rfl
  · have hint : beInt (be 4 x.toNat) = x.toNat % 2 ^ 32 := beInt_be 4 _
    have hhigh : (inc32 x).toNat / 256 ^ 4 = x.toNat / 2 ^ 32 := by
      rw [toNat_inc32]; omega
    have hlow : (inc32 x).toNat % 256 ^ 4 = (x.toNat % 2 ^ 32 + 1) % 2 ^ 32 := by
      rw [toNat_inc32]; omega
    rw [msb_bytesOf, lsb_bytesOf, hint, bytesOf, be_add 12 4, hhigh, ← be_mod 4 (inc32 x).toNat, hlow]

/-! ## The CCM blocks -/

theorem length_ccmNonceBlock {n : Bytes} (h : n.length ≤ 13) (f j : Nat) :
    (be 1 f ++ n ++ be (15 - n.length) j).length = 16 := by
  simp only [List.length_append, length_be]
  omega

theorem bytesOf_ccmCtr {n : Bytes} (h : n.length ≤ 13) (j : Nat) :
    bytesOf (ccmCtr n j) = BitVec.ofNat 8 (14 - n.length) :: (n ++ be (15 - n.length) j) := by
  have hq : 15 - n.length - 1 = 14 - n.length := by omega
  rw [ccmCtr, bytesOf_blockOf (length_ccmNonceBlock h _ j), hq]
  rfl

theorem length_ccmB0 {n : Bytes} (h : n.length ≤ 13) (a : Bytes) (p : Nat) : (ccmB0 n a p).length = 16 :=
  length_ccmNonceBlock h _ p

/-- The flags byte of `B0` (R81) with a 16-byte tag: bit 6 for AAD, `7` in bits 5:3, `q - 1` below. -/
theorem ccmB0_eq (n a : Bytes) (p : Nat) :
    ccmB0 n a p = BitVec.ofNat 8 ((if a = [] then 0x38 else 0x78) + (14 - n.length)) ::
      (n ++ be (15 - n.length) p) := by
  have hflags : 64 * (if a.length > 0 then 1 else 0) + 8 * ((Config.tagBytes - 2) / 2) + (15 - n.length - 1)
      = (if a = [] then 0x38 else 0x78) + (14 - n.length) := by
    have hq : 15 - n.length - 1 = 14 - n.length := by omega
    rw [hq]
    cases a <;> rfl
  rw [ccmB0, hflags]
  rfl

/-- The two encodings of a nonzero AAD length that a 32-bit length can have (R82). -/
theorem alen_of_lt {x : Nat} (h0 : 0 < x) (h : x < 65280) : alen x = [BitVec.ofNat 8 (x / 256), BitVec.ofNat 8 x] := by
  rw [alen, if_neg (by omega), if_pos h]
  rfl

theorem alen_of_ge {x : Nat} (h : 65280 ≤ x) (hlt : x < 2 ^ 32) :
    alen x = [0xFF, 0xFE, BitVec.ofNat 8 (x / 2 ^ 24), BitVec.ofNat 8 (x / 2 ^ 16), BitVec.ofNat 8 (x / 2 ^ 8),
      BitVec.ofNat 8 x] := by
  have h16 : x / 256 / 256 = x / 2 ^ 16 := Nat.div_div_eq_div_mul ..
  have h24 : x / 2 ^ 16 / 256 = x / 2 ^ 24 := Nat.div_div_eq_div_mul ..
  rw [alen, if_neg (by omega), if_neg (by omega), if_pos hlt, be, be, be, be_one, h16, h24]
  rfl

theorem ccmFormat_eq (n a p : Bytes) :
    ccmFormat n a p =
      ccmB0 n a p.length ++ (if a = [] then [] else padz (alen a.length ++ a)) ++ padz p := by
  cases a <;> rfl

theorem length_ccmFormat {n : Bytes} (h : n.length ≤ 13) (a p : Bytes) :
    (ccmFormat n a p).length % 16 = 0 ∧ 0 < (ccmFormat n a p).length := by
  have hp := length_padz_mod p
  have ha : (if a = [] then [] else padz (alen a.length ++ a)).length % 16 = 0 := by
    split
    · rfl
    · exact length_padz_mod _
  rw [ccmFormat_eq, List.length_append, List.length_append, length_ccmB0 h]
  omega

/-- Zero-extension to whole blocks adds fewer than 16 zero bytes (R71). -/
theorem padz_eq_append_zeros (b : Bytes) :
    ∃ z, padz b = b ++ List.replicate z 0x00 ∧ z < 16 ∧ (b.length + z) % 16 = 0 :=
  ⟨(16 - b.length % 16) % 16, rfl, by omega, by omega⟩

/-- Settles O57, from the equation of each CCM unit; the written-out lengths of the AAD are computed. -/
theorem ccmBlocksHaveTheirBytes : Obligations.CcmBlocksHaveTheirBytes := by
  refine ⟨fun q x k => ⟨length_be q x, getElem?_be x⟩, fun x => ⟨alen_of_lt, alen_of_ge⟩, by decide,
    padz_eq_append_zeros, fun n a p _ hn _ _ => ?_⟩
  exact ⟨fun j _ => bytesOf_ccmCtr hn j, ccmB0_eq n a _, ccmFormat_eq n a p, length_ccmFormat hn a p⟩

end Sys2Proof.Proofs
end

section
/-! PROOF. Multiplication in GF(2^128) (40_datapath.md R75): the statement O58. A round of the loop multiplies `W` by the
field's `x`, a linear map `mulX`; a product `X • Y` is a sum of powers of `mulX` applied to `Y`, so `X •` is linear and
commutes with `mulX`, and any two of these maps commute with each other. With the unit on the right, both laws follow. -/

namespace Sys2Proof.Proofs

open Sys2Proof.Machine

/-- What a round of R75 does to `W`: shift right, and reduce when the bit shifted out is 1. -/
def mulX (w : Block) : Block := if w.getLsbD 0 then (w >>> 1) ^^^ gfR else w >>> 1

theorem gfLoop_zero (x z w : Block) : gfLoop x 0 z w = z := rfl

theorem gfLoop_succ (x : Block) (k : Nat) (z w : Block) :
    gfLoop x (k + 1) z w = gfLoop x k (if x.getLsbD k then z ^^^ w else z) (mulX w) := rfl

theorem mulX_zero : mulX 0 = 0 := by decide

theorem xor_xor_xor_comm (a b c d : Block) : (a ^^^ b) ^^^ (c ^^^ d) = (a ^^^ c) ^^^ (b ^^^ d) := by
  ac_rfl

theorem mulX_xor (a b : Block) : mulX (a ^^^ b) = mulX a ^^^ mulX b := by
  rw [mulX, mulX, mulX, BitVec.getLsbD_xor, BitVec.ushiftRight_xor_distrib]
  cases a.getLsbD 0 <;> cases b.getLsbD 0
  case false.false => rfl
  case false.true => exact BitVec.xor_assoc ..
  case true.false =>
    change (a >>> 1 ^^^ b >>> 1) ^^^ gfR = (a >>> 1 ^^^ gfR) ^^^ b >>> 1
    ac_rfl
  case true.true =>
    change a >>> 1 ^^^ b >>> 1 = (a >>> 1 ^^^ gfR) ^^^ (b >>> 1 ^^^ gfR)
    rw [xor_xor_xor_comm, BitVec.xor_self, BitVec.xor_zero]

/-- The loop is linear in its two running values together. -/
theorem gfLoop_xor (x : Block) (k : Nat) (z z' w w' : Block) :
    gfLoop x k (z ^^^ z') (w ^^^ w') = gfLoop x k z w ^^^ gfLoop x k z' w' := by
  induction k generalizing z z' w w' with
  | zero => rfl
  | succ k ih =>
    rw [gfLoop_succ, gfLoop_succ, gfLoop_succ, mulX_xor, ← ih]
    split
    · rw [xor_xor_xor_comm]
    · rfl

/-- A linear map that commutes with `mulX` commutes with the loop. -/
theorem map_gfLoop {f : Block → Block} (hxor : ∀ a b, f (a ^^^ b) = f a ^^^ f b)
    (hmulX : ∀ a, f (mulX a) = mulX (f a)) (x : Block) (k : Nat) (z w : Block) :
    f (gfLoop x k z w) = gfLoop x k (f z) (f w) := by
  induction k generalizing z w with
  | zero => rfl
  | succ k ih => rw [gfLoop_succ, gfLoop_succ, ih, hmulX, apply_ite f, hxor]

/-- The constant 0 is a linear map that commutes with `mulX`. -/
theorem gfMul_zero (x : Block) : gfMul x 0 = 0 :=
  (map_gfLoop (f := fun _ => 0) (fun _ _ => rfl) (fun _ => mulX_zero.symm) x 128 0 0).symm

theorem gfMul_xor (x a b : Block) : gfMul x (a ^^^ b) = gfMul x a ^^^ gfMul x b :=
  gfLoop_xor x 128 0 0 a b

theorem gfMul_mulX (x a : Block) : gfMul x (mulX a) = mulX (gfMul x a) := by
  rw [gfMul, gfMul, map_gfLoop mulX_xor (fun _ => rfl), mulX_zero]

/-- `X •` is itself a linear map that commutes with `mulX`, so the loop of `Y •` lets it through. -/
theorem gfMul_left_comm (x y z : Block) : gfMul x (gfMul y z) = gfMul y (gfMul x z) :=
  calc gfMul x (gfMul y z)
    _ = gfLoop y 128 (gfMul x 0) (gfMul x z) := map_gfLoop (gfMul_xor x) (gfMul_mulX x) y 128 0 z
    _ = gfMul y (gfMul x z) := by rw [gfMul_zero]; rfl

/-! ## The unit -/

/-- Below the degree there is nothing to reduce. -/
theorem mulX_twoPow_succ {k : Nat} (h : k + 1 < 128) : mulX (BitVec.twoPow 128 (k + 1)) = BitVec.twoPow 128 k := by
  have hbit : (BitVec.twoPow 128 (k + 1)).getLsbD 0 = false := by simp
  rw [mulX, hbit]
  apply BitVec.eq_of_getLsbD_eq
  intro j hj
  simp [BitVec.getLsbD_twoPow, h, Nat.lt_of_succ_lt h, Nat.add_comm 1 j]

/-- A round with the power of `x` that stands for bit `k` copies bit `k` of `X`. -/
theorem getLsbD_ite_xor_twoPow (x : Block) {k : Nat} (hk : k < 128) (z : Block) (j : Nat) :
    (if x.getLsbD k then z ^^^ BitVec.twoPow 128 k else z).getLsbD j
      = (z.getLsbD j ^^ (decide (j = k) && x.getLsbD j)) := by
  by_cases hj : j = k
  · subst hj
    cases hx : x.getLsbD j <;> simp [hk]
  · cases x.getLsbD k <;> simp [BitVec.getLsbD_twoPow, hj, Ne.symm hj]

/-- The loop on the powers of `x` copies the bits of `X` that are still to be looked at. -/
theorem getLsbD_gfLoop_twoPow (x : Block) {k : Nat} (hk : k < 128) (z : Block) (j : Nat) :
    (gfLoop x (k + 1) z (BitVec.twoPow 128 k)).getLsbD j = (z.getLsbD j ^^ (decide (j ≤ k) && x.getLsbD j)) := by
  induction k generalizing z with
  | zero => simp only [gfLoop_succ, gfLoop_zero, getLsbD_ite_xor_twoPow x hk, Nat.le_zero]
  | succ k ih =>
    rw [gfLoop_succ, mulX_twoPow_succ hk, ih (by omega), getLsbD_ite_xor_twoPow x hk]
    by_cases hj : j = k + 1
    · simp [hj]
    · simp [hj, Nat.le_succ_iff]

/-- The unit of R75, `0x80` followed by fifteen zero bytes, is the power 0 of the field's `x`. -/
theorem gfMul_one (x : Block) : gfMul x 0x80000000000000000000000000000000#128 = x := by
  apply BitVec.eq_of_getLsbD_eq
  intro j hj
  have h := getLsbD_gfLoop_twoPow x (k := 127) (by omega) 0#128 j
  rw [decide_eq_true (show j ≤ 127 by omega), Bool.true_and, BitVec.getLsbD_zero, Bool.false_xor] at h
  rw [gfMul, show 0x80000000000000000000000000000000#128 = BitVec.twoPow 128 127 by decide]
  exact h

theorem gfMul_comm (x y : Block) : gfMul x y = gfMul y x :=
  calc gfMul x y
    _ = gfMul x (gfMul y 0x80000000000000000000000000000000#128) := by rw [gfMul_one]
    _ = gfMul y (gfMul x 0x80000000000000000000000000000000#128) := gfMul_left_comm ..
    _ = gfMul y x := by rw [gfMul_one]

theorem gfMul_assoc (x y z : Block) : gfMul (gfMul x y) z = gfMul x (gfMul y z) :=
  calc gfMul (gfMul x y) z
    _ = gfMul z (gfMul x y) := gfMul_comm ..
    _ = gfMul x (gfMul z y) := gfMul_left_comm ..
    _ = gfMul x (gfMul y z) := by rw [gfMul_comm z y]

/-- Settles O58: `X • (Y • Z) = Y • (X • Z)` and the unit on the right give both laws. -/
theorem fieldMultiplicationIsCommutativeAndAssociative : Obligations.FieldMultiplicationIsCommutativeAndAssociative :=
  ⟨gfMul_comm, gfMul_assoc, gfMul_zero, gfMul_one⟩

end Sys2Proof.Proofs
end

section
/-! PROOF. The padding unit and the tag comparator (40_datapath.md R84 to R86): the statements O59 and O60. -/

namespace Sys2Proof.Proofs

open Sys2Proof.Machine Sys2Proof.Laws

/-! ## Padding -/

theorem msb_append_lsb (c : Nat) (q : Bytes) : msb (q.length - c) q ++ lsb c q = q :=
  List.take_append_drop (q.length - c) q

theorem lsb_append {c : Nat} (p : Bytes) {r : Bytes} (h : r.length = c) : lsb c (p ++ r) = r := by
  have hlen : (p ++ r).length - c = p.length := by rw [List.length_append]; omega
  rw [lsb, hlen]
  exact List.drop_left

theorem padCount_append_singleton (p : Bytes) (v : Byte) : padCount (p ++ [v]) = v.toNat := by
  rw [padCount, lsb_append (c := 1) p rfl]
  rfl

/-- `c` bytes of value `c` at the end are read back as the pad count. -/
theorem padCount_append_rep (p : Bytes) {c : Nat} (h0 : 1 ≤ c) (h : c ≤ 16) :
    padCount (p ++ rep (BitVec.ofNat 8 c) c) = c := by
  obtain ⟨m, rfl⟩ : ∃ m, c = m + 1 := ⟨c - 1, by omega⟩
  rw [rep, List.replicate_succ', ← List.append_assoc, padCount_append_singleton, BitVec.toNat_ofNat]
  omega

theorem padOk_iff (q : Bytes) : padOk q = true ↔ 1 ≤ padCount q ∧ padCount q ≤ 16 ∧ padCount q ≤ q.length ∧
    lsb (padCount q) q = rep (BitVec.ofNat 8 (padCount q)) (padCount q) := by
  simp [padOk, and_assoc]

theorem padCount_pad (p : Bytes) : padCount (pad p) = 16 - p.length % 16 :=
  padCount_append_rep p (by omega) (by omega)

theorem padOk_pad (p : Bytes) : padOk (pad p) = true := by
  rw [padOk_iff, padCount_pad, length_pad]
  exact ⟨by omega, by omega, by omega, lsb_append p (length_rep _ _)⟩

theorem unpad_pad (p : Bytes) : unpad (pad p) = p := by
  rw [unpad, padCount_pad, length_pad]
  exact List.take_left' (by omega)

/-- Of a string of whole blocks, the pad count is what the string without its padding lacks to whole blocks. -/
theorem pad_unpad {q : Bytes} (hq : q.length % 16 = 0) (h : padOk q = true) : pad (unpad q) = q := by
  obtain ⟨h1, h16, hlen, htail⟩ := (padOk_iff q).mp h
  have hcount : 16 - (unpad q).length % 16 = padCount q := by
    rw [unpad, length_msb]
    omega
  rw [pad, hcount, ← htail]
  exact msb_append_lsb (padCount q) q

/-- Settles O59: the pad count read back is the one written, in either order. -/
theorem paddingIsRemovedExactly : Obligations.PaddingIsRemovedExactly :=
  ⟨fun p => ⟨length_pad p, padOk_pad p, unpad_pad p⟩, fun _ => pad_unpad⟩

/-! ## The comparator -/

/-- The accumulator of R86 is zero exactly when it began so and every byte was. -/
theorem foldl_or_eq_zero_iff (b : Bytes) (acc : Byte) :
    b.foldl (· ||| ·) acc = 0 ↔ acc = 0 ∧ ∀ x ∈ b, x = 0 := by
  induction b generalizing acc with
  | nil => simp
  | cons x xs ih =>
    have hor : acc ||| x = 0 ↔ acc = 0 ∧ x = 0 := BitVec.or_eq_zero_iff
    rw [List.foldl_cons, ih, hor, List.forall_mem_cons, and_assoc]

/-- Two strings of equal length differ in no byte exactly when they are equal. -/
theorem xorBytes_all_zero_iff {t u : Bytes} (h : t.length = u.length) : (∀ x ∈ xorBytes t u, x = 0) ↔ t = u := by
  induction t generalizing u with
  | nil => simp [xorBytes, List.length_eq_zero_iff.mp h.symm]
  | cons x xs ih =>
    obtain ⟨y, ys, rfl⟩ := List.exists_cons_of_length_eq_add_one h.symm
    have hxs := ih (u := ys) (by simpa using h)
    rw [xorBytes] at hxs ⊢
    rw [List.zipWith_cons_cons, List.forall_mem_cons, hxs, List.cons.injEq]
    exact and_congr_left' BitVec.xor_eq_zero_iff

/-- Settles O60: the accumulator is zero exactly when no byte differs. -/
theorem tagComparisonDecidesEquality : Obligations.TagComparisonDecidesEquality := by
  intro t u h
  rw [cteq, decide_eq_true_iff, foldl_or_eq_zero_iff, xorBytes_all_zero_iff h]
  exact and_iff_right rfl

end Sys2Proof.Proofs
end

section
/-! PROOF. The sequencer (41_sequencer.md R87 to R95): what the step of each phase gives, the ten tests of R89, and a run
from `CHECK` to `IDLE`; the statements O4 to O8, O41, O42, O45 and O49. -/

namespace Sys2Proof.Proofs

open Sys2Proof.Machine Sys2Proof.Laws

/-! ## The step of each phase -/

/-- In `IDLE` the engine takes no step (R138). -/
theorem engineStep_idle {s : State} (hp : s.eng.phase = .idle) : engineStep s = .next s := by
  simp only [engineStep, hp]

/-- A step of `RUN` before the last one counts down and does nothing else (R91; log 4). -/
theorem engineStep_run_succ {s : State} {k : Nat} (hp : s.eng.phase = .run) (hl : s.eng.left = k + 1) :
    engineStep s = .next { s with eng := { s.eng with left := k } } := by
  simp only [engineStep, runStep, hp, hl]

/-- The last step of `RUN` is the meaning of the accepted command (R90, R91). -/
theorem engineStep_run_last {s : State} {i : Instr} (hp : s.eng.phase = .run) (hl : s.eng.left = 0)
    (hd : decode s.eng.cmd = .ok i) : engineStep s = exec i s := by
  simp only [engineStep, runStep, runOutcome, hp, hl, hd]

/-- The state in `RUN` with `k` steps before the last one to come. -/
def enterRun (k : Nat) (s : State) : State := { s with eng := { s.eng with phase := .run, left := k } }

/-- The step of `CHECK` on a command that passes validation and whose obligations hold enters `RUN` (R89; log 16). -/
theorem step_check_passes {s u : State} {i : Instr} (hi : s.inbox = []) (hp : s.eng.phase = .check)
    (hd : decode s.eng.cmd = .ok i) (hv : validate i s.eng.cfg = none) (hx : exec i s = .next u) :
    step s = .next (enterRun (runLength i s.eng.cmd s.eng.cfg u.eng.res) s) := by
  rw [step_nil hi]
  simp only [engineStep, checkStep, hp, hd, hv, hx, enterRun]

/-- Settles O4: the engine's turn is the same step, whether the inbox is empty or holds it. -/
theorem stepRunsDecodedCommand : Obligations.StepRunsDecodedCommand := by
  refine fun s i rest hp hl hd => ⟨fun hi => ?_, fun hi => ?_⟩
  · rw [step_nil hi, engineStep_run_last hp hl hd]
  · rw [step_cons hi]
    exact engineStep_run_last (s := { s with inbox := rest }) hp hl hd

/-- The encoding of a command, read as a number and put back in a word, decodes to it (O1). -/
theorem decode_ofNat_encode (i : Instr) : decode (BitVec.ofNat 32 ((encode i).toNat % 2 ^ 32)) = .ok i := by
  rw [Nat.mod_eq_of_lt (encode i).isLt, BitVec.ofNat_toNat, BitVec.setWidth_eq]
  exact (wordDecodesToCommandIffItsEncoding _ i).mpr rfl

/-- Settles O5: the placed word stands in the last step of `RUN` and decodes to its command. -/
theorem placedCommandRunsOnTheNextStep : Obligations.PlacedCommandRunsOnTheNextStep := by
  refine fun s i => ⟨?_, rfl, rfl⟩
  rw [step_nil rfl]
  exact engineStep_run_last rfl rfl (decode_ofNat_encode i)

/-- Settles O6: the two ways out of `CHECK`. -/
theorem checkStepValidatesTheCommand : Obligations.CheckStepValidatesTheCommand :=
  fun _ hi hp => ⟨fun _ he => step_check_error hi hp he,
    fun _ _ hd hv hx => ⟨_, step_check_passes hi hp hd hv hx⟩⟩

/-- Settles O7: the step is completion, read off for each result. -/
theorem finishStepCompletesTheOperation : Obligations.FinishStepCompletesTheOperation := by
  refine fun s hi hp => ⟨fun hr => ?_, fun e hr => ?_, by decide, by decide⟩ <;>
    rw [step_finish hi hp, State.complete, hr] <;> rfl

/-- Settles O8: no step in `IDLE`, and the countdown in `RUN`. -/
theorem idleAndEarlierRunStepsChangeNothingVisible : Obligations.IdleAndEarlierRunStepsChangeNothingVisible := by
  refine fun s hi => ⟨fun hp => ?_, fun k hp hl => ?_⟩
  · rw [step_nil hi, engineStep_idle hp]
  · rw [step_nil hi, engineStep_run_succ hp hl]

/-- Settles O42: the guard of `runRule` turns the operands away before the rule. -/
theorem execOnUnvalidatedOperandsEndsInTheValidationError :
    Obligations.ExecOnUnvalidatedOperandsEndsInTheValidationError := by
  intro s i e hv
  rw [exec_eq_ruleOf, runRule_invalid hv]
  rfl

/-! ## Validation -/

/-- Two modes are the same exactly when their codes are (R67). -/
theorem mode_eq_iff (x y : Mode) : x = y ↔ modeCode x = modeCode y := by
  cases x <;> cases y <;> decide

theorem modeCode_lt (x : Mode) : modeCode x < 8 := by
  cases x <;> decide

/-- Tests 2 to 10 of R89 on the number of the mode: the chain of `validate`, one test at a time. -/
theorem validate_eq_tests (i : Instr) (c : Params) (m k v n : Nat) (hm : m = modeCode i.mode) (hk : k = c.keyLen.toNat)
    (hv : v = c.ivLen.toNat) (hn : n = c.srcLen.toNat) :
    validate i c =
      if m ≠ 0 ∧ i.ivp = false then some .missingRequiredParameter
      else if (m = 6 ∨ m = 7) ∧ i.dir = .dec ∧ i.tagp = false then some .missingRequiredParameter
      else if k ≠ 16 ∧ k ≠ 24 ∧ k ≠ 32 then some .invalidKeyLength
      else if (1 ≤ m ∧ m ≤ 5) ∧ v ≠ 16 then some .invalidIVLength
      else if m = 7 ∧ v = 0 then some .invalidIVLength
      else if m = 6 ∧ (v < 7 ∨ 13 < v) then some .invalidIVLength
      else if m = 6 ∧ 256 ^ (15 - v) ≤ n then some .invalidIVLength
      else if m = 5 ∧ n < 16 then some .shortInputForCTS
      else if (m = 0 ∨ m = 1) ∧ i.dir = .dec ∧ (n = 0 ∨ n % 16 ≠ 0) then some .invalidPadding
      else none := by
  have hpow : 2 ^ (8 * (15 - v)) = 256 ^ (15 - v) := pow_mul 2 8 (15 - v)
  have h8 : m < 8 := hm ▸ modeCode_lt i.mode
  have hmode : ∀ y, i.mode = y ↔ m = modeCode y := fun y => hm ▸ mode_eq_iff i.mode y
  unfold validate
  simp only [hmode, modeCode, ne_eq, ← hk, ← hv, ← hn, hpow]
  refine if_congr Iff.rfl rfl <| if_congr Iff.rfl rfl <| if_congr ?_ rfl <| if_congr ?_ rfl <|
    if_congr Iff.rfl rfl <| if_congr ?_ rfl rfl <;> omega

/-- Settles O41: test 1 is the decoder's, the others are `validate_eq_tests` on the fields of the word; the boundary
values are computed, and a validation error completes with its code. -/
theorem validationAppliesTheTenTestsInOrder : Obligations.ValidationAppliesTheTenTestsInOrder := by
  refine ⟨fun w c m k v n hm hk hv hn => ?_, by decide, fun s e hi hp he => ?_⟩
  · have hreserved := decode_eq_error_iff_reserved w
    rw [← hm] at hreserved
    cases hd : decode w with
    | error e =>
      rw [if_pos (hreserved.mp ⟨e, hd⟩)]
      exact checkCommand_of_decode_error ⟨e, hd⟩ c
    | ok i =>
      obtain ⟨-, hmode, hdir, hivp, -, htagp⟩ := decode_eq_ok_iff.mp hd
      have hcode : m = modeCode i.mode := hm.trans ((cmdMode_eq w).symm.trans hmode)
      have hdec : w.getLsbD 4 = true ↔ i.dir = .dec := by
        rw [← decide_eq_true_iff (p := i.dir = .dec)]
        exact Eq.congr_left hdir
      rw [if_neg (fun h => by simpa [hd] using hreserved.mpr h), checkCommand_of_decode hd,
        validate_eq_tests i c m k v n hcode hk hv hn, ← hivp, ← htagp]
      simp only [hdec]
      rfl
  · exact ⟨_, run_check_error hi hp he, rfl, rfl, rfl, rfl, rfl, rfl, rfl, rfl, Bool.true_and _⟩

/-! ## Which step writes memory -/

/-- `CHECK` accesses no memory (R89). -/
theorem checkStep_mem {s t : State} (hx : checkStep s = .next t) : t.mem = s.mem := by
  rcases checkStep_cases s with ⟨e, -, hc⟩ | ⟨i, why, -, -, -, hc⟩ | ⟨i, u, -, -, -, hc⟩ <;>
    rw [hc] at hx <;> cases hx <;> rfl

/-- Every command that gives a next state leaves `RUN` for `FINISH` (R91). -/
theorem exec_phase {i : Instr} {s t : State} (hx : exec i s = .next t) : t.eng.phase = .finish := by
  rcases exec_cases i s with ⟨e, -, hc⟩ | ⟨-, l, why, -, hc⟩ | ⟨-, r, -, hc⟩ <;> rw [hc] at hx <;> cases hx
  · rfl
  · exact commit_phase r s

/-- The last step of `RUN` writes memory only in a success (R92). -/
theorem runOutcome_mem_or_success {s t : State} (hx : runOutcome s = .next t) :
    t.mem = s.mem ∨ (t.eng.phase = .finish ∧ t.eng.res = none) := by
  rcases runOutcome_cases s with ⟨i, -, hc⟩ | ⟨e, -, hc⟩ <;> rw [hc] at hx
  · exact (exec_mem_or_success hx).imp_right fun ⟨_, hres⟩ => ⟨exec_phase hx, hres⟩
  · cases hx
    exact .inl rfl

/-- Settles O45: of the five kinds of engine step four leave memory alone, and completion sets no result. -/
theorem onlySuccessfulOperationsWriteMemory : Obligations.OnlySuccessfulOperationsWriteMemory := by
  refine fun s t hx => ⟨fun hne => ?_, fun hp => ?_⟩
  · rcases engineStep_cases s with ⟨-, hc⟩ | ⟨-, hc⟩ | ⟨-, k, -, hc⟩ | ⟨hp, hl, hc⟩ | ⟨-, hc⟩ <;> rw [hc] at hx
    · cases hx
      exact absurd rfl hne
    · exact absurd (checkStep_mem hx) hne
    · cases hx
      exact absurd rfl hne
    · exact ⟨hp, hl, (runOutcome_mem_or_success hx).resolve_left hne⟩
    · cases hx
      exact absurd rfl hne
  · simp only [engineStep, hp] at hx
    cases hx
    exact ⟨rfl, rfl, rfl⟩

/-! ## From CHECK to IDLE -/

/-- The steps of `RUN` before the last one only count down, so a run passes them (R91; log 4). -/
theorem run_countdown {s : State} (hi : s.inbox = []) (k n : Nat) :
    Sys2Proof.core.run (k + n) (enterRun k s) = Sys2Proof.core.run n (enterRun 0 s) := by
  induction k with
  | zero => rw [Nat.zero_add]
  | succ k ih =>
    have hstep : step (enterRun (k + 1) s) = .next (enterRun k s) :=
      (step_nil (s := enterRun (k + 1) s) hi).trans (engineStep_run_succ rfl rfl)
    rw [Nat.add_right_comm, run_succ hstep, ih]

/-- The meaning of a validated command does not look at the phase or the count of `RUN` steps; it sets the one and keeps
the other. -/
theorem exec_enterRun {i : Instr} {s u : State} (hv : validate i s.eng.cfg = none) (hx : exec i s = .next u) (k : Nat) :
    exec i (enterRun k s) = .next { u with eng := { u.eng with left := k } } := by
  obtain ⟨ho, rfl⟩ := exec_next_commit hx hv
  have hr : ruleResult i (ruleOf Config.prim i) (enterRun k s) = ruleResult i (ruleOf Config.prim i) s := rfl
  rw [exec_next (s := enterRun k s) hv ho, hr]
  obtain ⟨_ | _, d⟩ := ruleResult i (ruleOf Config.prim i) s <;> rfl

/-- The end of `RUN` and `FINISH`: two steps take the engine to completion (R91, R93). -/
theorem run_last_finish {s u : State} {i : Instr} (hi : s.inbox = []) (hp : s.eng.phase = .run) (hl : s.eng.left = 0)
    (hd : decode s.eng.cmd = .ok i) (hx : exec i s = .next u) (hu : u.inbox = []) :
    Sys2Proof.core.run 2 s = .next u.complete :=
  calc Sys2Proof.core.run 2 s
    _ = Sys2Proof.core.run 1 u := run_succ (by rw [step_nil hi, engineStep_run_last hp hl hd, hx]) 1
    _ = Sys2Proof.core.run 0 u.complete := run_succ (step_finish hu (exec_phase hx)) 0

/-- A command that gives a next state leaves the parameter registers and the events to come as they were (R32, R91). -/
theorem exec_par_inbox {i : Instr} {s t : State} (hx : exec i s = .next t) : t.par = s.par ∧ t.inbox = s.inbox := by
  rcases exec_cases i s with ⟨e, -, hc⟩ | ⟨-, l, why, -, hc⟩ | ⟨-, ⟨_ | _, d⟩, -, hc⟩ <;> rw [hc] at hx <;> cases hx <;>
    exact ⟨rfl, rfl⟩

/-- A validated command runs from `CHECK` to completion: one step of `CHECK`, the countdown, and the last two. -/
theorem run_operation {s u : State} {i : Instr} (hi : s.inbox = []) (hp : s.eng.phase = .check)
    (hd : decode s.eng.cmd = .ok i) (hv : validate i s.eng.cfg = none) (hx : exec i s = .next u) :
    Sys2Proof.core.run (runLength i s.eng.cmd s.eng.cfg u.eng.res + 3) s
      = .next (State.complete { u with eng := { u.eng with left := 0 } }) := by
  obtain ⟨-, hinbox⟩ := exec_par_inbox hx
  generalize hk : runLength i s.eng.cmd s.eng.cfg u.eng.res = k
  have hcheck : step s = .next (enterRun k s) := hk ▸ step_check_passes hi hp hd hv hx
  calc Sys2Proof.core.run (k + 3) s
    _ = Sys2Proof.core.run (k + 2) (enterRun k s) := run_succ hcheck _
    _ = Sys2Proof.core.run 2 (enterRun 0 s) := run_countdown hi k 2
    _ = _ := run_last_finish hi rfl rfl hd (exec_enterRun hv hx 0) (hinbox.trans hi)

/-- Settles O49: the run ends in completion of what `exec` gives, and its fields are those R93 sets. -/
theorem operationsReachIdleAfterFinitelyManySteps : Obligations.OperationsReachIdleAfterFinitelyManySteps := by
  intro s u i hi hp hd hv hx
  obtain ⟨hpar, -⟩ := exec_par_inbox hx
  refine ⟨_, run_operation hi hp hd hv hx, rfl, rfl, rfl, rfl, rfl, ?_, rfl, hpar⟩
  cases hr : u.eng.res <;> simp [State.complete, hr]

end Sys2Proof.Proofs
end

section
/-! PROOF. The sequence of primitive invocations of each rule (41_sequencer.md R96, 70_reset_and_hazards.md R149), written
out from the command and the lengths of its operands alone, and O55, which follows from it. -/

namespace Sys2Proof.Proofs

open Sys2Proof.Machine Sys2Proof.Laws

/-! ## The sequence -/

/-- How many blocks a string of `n` bytes has (40_datapath.md R71). -/
def blocksIn (n : Nat) : Nat := (n + 15) / 16

/-- How many blocks the MAC of CCM takes in, for a nonce, associated data and a payload of these lengths (R83). -/
def macBlocks (nonce aad inp : Nat) : Nat :=
  blocksIn (1 + nonce + (15 - nonce) + (if aad > 0 then 16 * blocksIn ((alen aad).length + aad) else 0)
    + 16 * blocksIn inp)

/-- How many blocks GHASH takes in for the first counter block (R78). -/
def j0Blocks (nonce : Nat) : Nat := if nonce = 12 then 0 else blocksIn nonce + 1

/-- The GHASH of the associated data, the ciphertext and the length block, then the encrypted first counter block: how
GCM makes its tag (R119, R120). -/
def gcmTagWork (aad inp : Nat) : List PrimOp :=
  List.replicate (blocksIn aad + blocksIn inp + 1) PrimOp.gfMul ++ [PrimOp.enc]

/-- The invocations up to the check of the padding or the tag, or all of them where nothing is checked. -/
def workToCheck (i : Instr) (iv aad inp : Nat) : List PrimOp :=
  match i with
  | .ecbEnc _ _ _ | .cbcEnc _ _ _ => List.replicate (inp / 16 + 1) .enc
  | .ecbDec _ _ _ | .cbcDec _ _ _ => [.dec]
  | .cfbEnc _ _ _ | .cfbDec _ _ _ | .ofbEnc _ _ _ | .ofbDec _ _ _ | .ctrEnc _ _ _ | .ctrDec _ _ _ =>
    List.replicate (blocksIn inp) .enc
  | .ctsEnc _ _ _ => List.replicate (if blocksIn inp = 1 then 1 else blocksIn inp - 2 + 2) .enc
  | .ctsDec _ _ _ => List.replicate (if blocksIn inp = 1 then 1 else blocksIn inp - 2 + 2) .dec
  | .ccmEnc _ _ _ | .ccmDec _ _ _ => List.replicate (macBlocks iv aad inp + blocksIn inp + 1) .enc
  | .gcmEnc _ _ _ =>
    PrimOp.enc :: (List.replicate (j0Blocks iv) PrimOp.gfMul ++ List.replicate (blocksIn inp) .enc ++ gcmTagWork aad inp)
  | .gcmDec _ _ _ => PrimOp.enc :: (List.replicate (j0Blocks iv) PrimOp.gfMul ++ gcmTagWork aad inp)

/-- The invocations that follow the check when it succeeds (R99, R115). -/
def workAfterCheck (i : Instr) (inp : Nat) : List PrimOp :=
  match i with
  | .ecbDec _ _ _ | .cbcDec _ _ _ => List.replicate (inp / 16 - 1) .dec
  | .ccmDec _ _ _ | .gcmDec _ _ _ => List.replicate (blocksIn inp) .enc
  | _ => []

/-! ## The units -/

/-- A loop whose every round does the one invocation `op`. -/
theorem forBlocks_work {body : Nat → Bytes → Dp → Bytes × Dp} {op : PrimOp}
    (h : ∀ k b d, (body k b d).2.work = d.work ++ [op]) (k : Nat) (bs : List Bytes) (d : Dp) :
    (forBlocks body k bs d).2.work = d.work ++ List.replicate bs.length op := by
  induction bs generalizing k d with
  | nil => simp
  | cons b bs ih => simp [forBlocks_cons, ih, h, List.replicate_succ]

/-- A loop over the blocks of `b`. -/
theorem work_loop {body : Nat → Bytes → Dp → Bytes × Dp} {op : PrimOp}
    (h : ∀ k b d, (body k b d).2.work = d.work ++ [op]) (k : Nat) (b : Bytes) (d : Dp) :
    (forBlocks body k (blks b) d).2.work = d.work ++ List.replicate (blocksIn b.length) op := by
  rw [forBlocks_work h, length_blks]
  rfl

theorem length_take_blks (b : Bytes) {k : Nat} (h : k ≤ numBlocks b) : ((blks b).take k).length = k := by
  rw [List.length_take, length_blks]
  exact min_eq_left h

/-- A loop over the blocks of a string of whole blocks, but the last (R98, R101). -/
theorem work_loop_but_last {body : Nat → Bytes → Dp → Bytes × Dp} {op : PrimOp}
    (h : ∀ k b d, (body k b d).2.work = d.work ++ [op]) (b : Bytes) (d : Dp) :
    (forBlocks body 0 ((blks b).take (b.length / 16 - 1)) d).2.work
      = d.work ++ List.replicate (b.length / 16 - 1) op := by
  have hle : b.length / 16 - 1 ≤ numBlocks b := by
    unfold numBlocks
    omega
  rw [forBlocks_work h, length_take_blks b hle]

theorem length_padz (b : Bytes) : (padz b).length = 16 * blocksIn b.length := by
  simp only [padz, List.length_append, length_zeros, blocksIn]
  omega

theorem length_blks_padz (b : Bytes) : (blks (padz b)).length = blocksIn b.length := by
  rw [length_blks, numBlocks, length_padz]
  omega

theorem length_blks_ccmFormat (n a p : Bytes) :
    (blks (ccmFormat n a p)).length = macBlocks n.length a.length p.length := by
  have hb0 : (ccmB0 n a p.length).length = 1 + n.length + (15 - n.length) := by
    simp only [ccmB0, List.length_append, length_be]
  rw [length_blks, ccmFormat, numBlocks, List.length_append, List.length_append, hb0, length_padz,
    apply_ite List.length, length_padz, List.length_append]
  rfl

theorem setJ0_work (n : Bytes) (d : Dp) :
    (Dp.setJ0 n d).work = d.work ++ List.replicate (j0Blocks n.length) PrimOp.gfMul := by
  have hlen : (blks (padz n ++ zeros 8 ++ be 8 (8 * n.length))).length = blocksIn n.length + 1 := by
    simp only [length_blks, numBlocks, List.length_append, length_padz, length_zeros, length_be]
    omega
  unfold Dp.setJ0 j0Blocks
  split
  · simp
  · rw [← hlen]
    exact ghashBlocks_work _ _

theorem gcmSetup_work (P : Prim) (n : Bytes) (d : Dp) :
    (gcmSetup P n d).work = d.work ++ PrimOp.enc :: List.replicate (j0Blocks n.length) PrimOp.gfMul := by
  simp [gcmSetup, setJ0_work]

theorem gcmHash_work (a c : Bytes) (d : Dp) :
    (gcmHash a c d).work = d.work ++ List.replicate (blocksIn a.length + blocksIn c.length + 1) PrimOp.gfMul := by
  simp [gcmHash, Dp.ghashAbsorbz, ghashBlocks_work, length_blks_padz, List.replicate_succ']

theorem gcmHash_work_enc (a c : Bytes) (d : Dp) :
    (gcmHash a c d).work ++ [PrimOp.enc] = d.work ++ gcmTagWork a.length c.length := by
  rw [gcmHash_work, gcmTagWork, List.append_assoc]

theorem gctr_work (P : Prim) (icb : Block) (b : Bytes) (d : Dp) :
    (gctr P icb b d).2.work = d.work ++ List.replicate (blocksIn b.length) .enc := by
  rw [gctr, work_loop (by intros; rfl)]

theorem length_gctr (P : Prim) (icb : Block) (b : Bytes) (d : Dp) : (gctr P icb b d).1.length = b.length :=
  length_forBlocks_xorp (fun _ _ _ => ⟨_, rfl⟩) _ _ _

/-- A rule that ends in a check does the work after it exactly when it ends in `ok`. -/
theorem work_check {c : Prop} [Decidable c] {out : Bytes} {tout : Option Bytes} {e : Err} {d d' : Dp}
    {before after : List PrimOp} (hd : d.work = before) (hd' : d'.work = d.work ++ after) :
    (if c then (Result.ok out tout, d') else (.fail e, d)).2.work =
      before ++ if (if c then (Result.ok out tout, d') else (.fail e, d)).1.isOk then after else [] := by
  split
  · exact hd'.trans (congrArg (· ++ after) hd)
  · exact hd.trans (List.append_nil before).symm

/-- A rule that ends in no check. -/
theorem work_no_check {r : Result × Dp} {w : List PrimOp} (h : r.2.work = w) :
    r.2.work = w ++ if r.1.isOk then [] else [] := by
  rw [h, ite_self, List.append_nil]

/-- Two stretches of one kind of work are one. -/
theorem append_replicate_replicate (w : List PrimOp) (m n : Nat) (op : PrimOp) :
    w ++ List.replicate m op ++ List.replicate n op = w ++ List.replicate (m + n) op := by
  rw [List.append_assoc, List.replicate_append_replicate]

theorem append_replicate_succ (w : List PrimOp) (n : Nat) (op : PrimOp) :
    w ++ List.replicate n op ++ [op] = w ++ List.replicate (n + 1) op :=
  append_replicate_replicate w n 1 op

/-! ## The rules that are more than one loop -/

/-- The two shapes of CTS (R108, R109): one block, or the blocks before the last two and then those two. -/
theorem work_cts {m : Nat} {r r' : Result} {d e e' : Dp} {op : PrimOp} (h1 : e.work = d.work ++ [op])
    (h2 : e'.work = d.work ++ List.replicate (m - 2) op ++ [op] ++ [op]) :
    (if m = 1 then (r, e) else (r', e')).2.work = d.work ++ List.replicate (if m = 1 then 1 else m - 2 + 2) op := by
  split
  · exact h1
  · rw [h2, append_replicate_succ, append_replicate_succ]

theorem ctsEncRule_work (P : Prim) (o : Operands) (d : Dp) :
    (ctsEncRule P o d).2.work = d.work ++ List.replicate
      (if blocksIn o.inp.length = 1 then 1 else blocksIn o.inp.length - 2 + 2) .enc := by
  dsimp only [ctsEncRule]
  refine work_cts rfl ?_
  rw [enc_work]
  dsimp only
  rw [enc_work, forBlocks_work (by intros; rfl), length_take_blks _ (Nat.sub_le _ _)]

theorem ctsDecRule_work (P : Prim) (o : Operands) (d : Dp) :
    (ctsDecRule P o d).2.work = d.work ++ List.replicate
      (if blocksIn o.inp.length = 1 then 1 else blocksIn o.inp.length - 2 + 2) .dec := by
  dsimp only [ctsDecRule]
  refine work_cts rfl ?_
  rw [dec_work]
  dsimp only
  rw [dec_work, forBlocks_work (by intros; rfl), length_take_blks _ (Nat.sub_le _ _)]

theorem ccmEncRule_work (P : Prim) (o : Operands) (d : Dp) :
    (ccmEncRule P o d).2.work = d.work ++ List.replicate
      (macBlocks o.iv.length o.aad.length o.inp.length + blocksIn o.inp.length + 1) .enc := by
  dsimp only [ccmEncRule]
  rw [enc_work, work_loop (by intros; rfl)]
  dsimp only
  rw [forBlocks_work (by intros; rfl), length_blks_ccmFormat, append_replicate_replicate, append_replicate_succ]
  rfl

/-- Pass 1 of R118: the candidate plaintext, which is as long as the ciphertext, and its MAC; then the tag's block. -/
theorem ccmPass1_work (P : Prim) (o : Operands) (d : Dp) :
    (forBlocks (ccmPeekMacBody P) 0
      (blks (ccmFormat o.iv o.aad (forBlocks (ccmPeekBody P o.iv) 1 (blks o.inp) d).1))
      (forBlocks (ccmPeekBody P o.iv) 1 (blks o.inp) d).2.macInit).2.work ++ [PrimOp.enc] =
      d.work ++ List.replicate (macBlocks o.iv.length o.aad.length o.inp.length + blocksIn o.inp.length + 1) .enc := by
  have hlen : (forBlocks (ccmPeekBody P o.iv) 1 (blks o.inp) d).1.length = o.inp.length :=
    length_forBlocks_xorp (fun _ _ _ => ⟨_, rfl⟩) _ _ _
  rw [forBlocks_work (by intros; rfl), macInit_work, work_loop (by intros; rfl), length_blks_ccmFormat, hlen,
    append_replicate_replicate, append_replicate_succ, Nat.add_comm (blocksIn o.inp.length)]

theorem gcmEncRule_work (P : Prim) (o : Operands) (d : Dp) :
    (gcmEncRule P o d).2.work = d.work ++ (PrimOp.enc :: (List.replicate (j0Blocks o.iv.length) PrimOp.gfMul
      ++ List.replicate (blocksIn o.inp.length) .enc ++ gcmTagWork o.aad.length o.inp.length)) := by
  dsimp only [gcmEncRule]
  rw [enc_work, gcmHash_work_enc, gctr_work, gcmSetup_work, length_gctr]
  simp only [List.append_assoc, List.cons_append]

/-- Pass 1 of R120: the hash, then the tag's block. -/
theorem gcmPass1_work (P : Prim) (o : Operands) (d : Dp) :
    (gcmHash o.aad o.inp (gcmSetup P o.iv d)).work ++ [PrimOp.enc] =
      d.work ++ (PrimOp.enc :: (List.replicate (j0Blocks o.iv.length) PrimOp.gfMul
        ++ gcmTagWork o.aad.length o.inp.length)) := by
  rw [gcmHash_work_enc, gcmSetup_work, List.append_assoc, List.cons_append]

/-! ## The rules -/

/-- The work of a rule: the invocations up to its check, and after a success those that follow. -/
theorem ruleOf_work (P : Prim) (i : Instr) (o : Operands) (d : Dp) :
    (ruleOf P i o d).2.work =
      (d.work ++ workToCheck i o.iv.length o.aad.length o.inp.length)
        ++ if (ruleOf P i o d).1.isOk then workAfterCheck i o.inp.length else [] := by
  cases i with
  | ecbEnc | cbcEnc =>
    refine work_no_check ((forBlocks_work (op := .enc) (by intros; rfl) _ _ _).trans ?_)
    rw [length_blks_pad]
    rfl
  | ecbDec =>
    dsimp only [ruleOf, ecbDecRule]
    exact work_check rfl (work_loop_but_last (by intros; rfl) _ _)
  | cbcDec =>
    dsimp only [ruleOf, cbcDecRule]
    exact work_check rfl (work_loop_but_last (by intros; rfl) _ _)
  | ctsEnc => exact work_no_check (ctsEncRule_work P o d)
  | ctsDec => exact work_no_check (ctsDecRule_work P o d)
  | ccmEnc => exact work_no_check (ccmEncRule_work P o d)
  | gcmEnc => exact work_no_check (gcmEncRule_work P o d)
  | ccmDec =>
    dsimp only [ruleOf, ccmDecRule]
    exact work_check (ccmPass1_work P o { d with j0 := ccmCtr o.iv 0 }) (work_loop (by intros; rfl) _ _ _)
  | gcmDec =>
    dsimp only [ruleOf, gcmDecRule]
    exact work_check (gcmPass1_work P o d) (gctr_work _ _ _ _)
  | _ => exact work_no_check (work_loop (by intros; rfl) _ _ _)

/-- Settles O55: `ruleOf_work` names no operand but by its length. -/
theorem workSequenceIndependentOfData : Obligations.WorkSequenceIndependentOfData := by
  intro P P' i o o' d d' hd hd' _ hiv haad hinp _
  rw [ruleOf_work P i o d, ruleOf_work P' i o' d', hd, hd', hiv, haad, hinp]
  refine ⟨fun hok => by rw [hok], fun hfail _ => ?_⟩
  rw [hfail, if_neg Bool.false_ne_true, List.append_nil]
  exact List.prefix_append _ _

end Sys2Proof.Proofs
end

section
/-! PROOF. Strings put together block by block (40_datapath.md R70, R71): the blocks of such a string, the exclusive or
with a keystream, and the padding of a string by that of its last block (R85). -/

namespace Sys2Proof.Proofs

open Sys2Proof.Machine Sys2Proof.Laws

/-! ## Blocks put together -/

@[simp] theorem joinBlocks_zero (f : Nat → Bytes) : joinBlocks 0 f = [] := rfl

theorem joinBlocks_succ (m : Nat) (f : Nat → Bytes) : joinBlocks (m + 1) f = joinBlocks m f ++ f m := by
  simp [joinBlocks, List.range_succ]

theorem joinBlocks_add (m n : Nat) (f : Nat → Bytes) :
    joinBlocks (m + n) f = joinBlocks m f ++ joinBlocks n fun i => f (m + i) := by
  induction n with
  | zero => simp
  | succ n ih => rw [← Nat.add_assoc, joinBlocks_succ, ih, joinBlocks_succ, List.append_assoc]

theorem joinBlocks_congr {m : Nat} {f g : Nat → Bytes} (h : ∀ i < m, f i = g i) : joinBlocks m f = joinBlocks m g :=
  List.flatMap_congr fun i hi => h i (List.mem_range.mp hi)

/-- The first `k` blocks of a string put together (R71). -/
theorem joinBlocks_blk (k : Nat) (b : Bytes) : (joinBlocks k fun i => blk i b) = b.take (16 * k) := by
  rw [← flatten_map_blk_range, joinBlocks, List.flatMap_def]

theorem joinBlocks_numBlocks_blk (b : Bytes) : (joinBlocks (numBlocks b) fun i => blk i b) = b := by
  rw [joinBlocks_blk]
  exact List.take_of_length_le (by unfold numBlocks; omega)

theorem flatMap_blks (b : Bytes) (g : Bytes → Bytes) :
    (blks b).flatMap g = joinBlocks (numBlocks b) fun i => g (blk i b) := by
  rw [blks, List.flatMap_map, joinBlocks]

theorem length_blk_le (i : Nat) (b : Bytes) : (blk i b).length ≤ 16 := by
  rw [length_blk]
  omega

/-- Every block but the last has 16 bytes (R71). -/
theorem length_blk_of_succ_lt {i : Nat} {b : Bytes} (h : i + 1 < numBlocks b) : (blk i b).length = 16 := by
  unfold numBlocks at h
  rw [length_blk]
  omega

/-- Every block of a string of whole blocks has 16 bytes. -/
theorem length_blk_of_whole {i : Nat} {b : Bytes} (hb : b.length % 16 = 0) (h : i < numBlocks b) :
    (blk i b).length = 16 := by
  unfold numBlocks at h
  rw [length_blk]
  omega

theorem numBlocks_of_whole {b : Bytes} (hb : b.length % 16 = 0) : numBlocks b = b.length / 16 := by
  unfold numBlocks
  omega

theorem numBlocks_congr {a b : Bytes} (h : a.length = b.length) : numBlocks a = numBlocks b := by
  rw [numBlocks, numBlocks, h]

/-- `f` gives, block by block, as many bytes as `b` has. -/
def FitsBlocks (b : Bytes) (f : Nat → Bytes) : Prop := ∀ i < numBlocks b, (f i).length = (blk i b).length

theorem fitsBlocks_whole {b : Bytes} (hb : b.length % 16 = 0) {f : Nat → Bytes} (hf : ∀ i, (f i).length = 16) :
    FitsBlocks b f := fun i hi => by rw [hf, length_blk_of_whole hb hi]

theorem fitsBlocks_xorp (b : Bytes) (s : Nat → Block) : FitsBlocks b fun i => xorp (blk i b) (s i) :=
  fun i _ => length_xorp (length_blk_le i b) (s i)

theorem FitsBlocks.length_take {b : Bytes} {f : Nat → Bytes} (h : FitsBlocks b f) {k : Nat} (hk : k ≤ numBlocks b) :
    (joinBlocks k f).length = min (16 * k) b.length := by
  rw [← List.length_take, ← joinBlocks_blk, joinBlocks, joinBlocks, List.length_flatMap, List.length_flatMap]
  exact congrArg List.sum (List.map_congr_left fun i hi => h i (lt_of_lt_of_le (List.mem_range.mp hi) hk))

theorem FitsBlocks.length {b : Bytes} {f : Nat → Bytes} (h : FitsBlocks b f) :
    (joinBlocks (numBlocks b) f).length = b.length := by
  rw [h.length_take le_rfl]
  exact min_eq_right (by unfold numBlocks; omega)

/-- The blocks before block `k` are the first `16 k` bytes. -/
theorem FitsBlocks.take_joinBlocks {b : Bytes} {f : Nat → Bytes} (h : FitsBlocks b f) {k : Nat}
    (hk : k < numBlocks b) : (joinBlocks (numBlocks b) f).take (16 * k) = joinBlocks k f := by
  have hlen : (joinBlocks k f).length = 16 * k := by
    rw [h.length_take hk.le]
    unfold numBlocks at hk
    omega
  rw [← Nat.add_sub_cancel' hk.le, joinBlocks_add]
  exact List.take_left' hlen

/-- Block `i` of the blocks put together is the `i`-th of them. -/
theorem FitsBlocks.blk_joinBlocks {b : Bytes} {f : Nat → Bytes} (h : FitsBlocks b f) {i : Nat}
    (hi : i < numBlocks b) : blk i (joinBlocks (numBlocks b) f) = f i := by
  have hlen : (joinBlocks i f).length = 16 * i := by
    rw [h.length_take hi.le]
    unfold numBlocks at hi
    omega
  obtain ⟨r, hr⟩ : ∃ r, numBlocks b = i + 1 + r := Nat.exists_eq_add_of_lt hi |>.imp fun r hr => by omega
  have hfi := h i hi
  rw [blk, slice, hr, joinBlocks_add, joinBlocks_succ, List.append_assoc, List.drop_left' hlen, Nat.add_sub_cancel_left]
  cases r with
  | zero => rw [joinBlocks_zero, List.append_nil, List.take_of_length_le (hfi ▸ length_blk_le i b)]
  | succ r => exact List.take_left' (by rw [hfi, length_blk_of_succ_lt (by omega)])

/-! ## The exclusive or with a keystream -/

/-- `xorBytes` itself cuts the keystream block to the segment (R70). -/
theorem xorp_eq (a : Bytes) (s : Block) : xorp a s = xorBytes a (bytesOf s) := by
  refine List.ext_getElem (by simp [xorp, msb]) fun k _ _ => ?_
  simp [xorp, xorBytes, msb]

theorem xorBytes_append {a c b d : Bytes} (h : a.length = c.length) :
    xorBytes (a ++ b) (c ++ d) = xorBytes a c ++ xorBytes b d := List.zipWith_append h

/-- Each block of `b` xored with its keystream block. -/
def xorStream (ks : Nat → Block) (b : Bytes) : Bytes := joinBlocks (numBlocks b) fun i => xorp (blk i b) (ks i)

theorem length_xorStream (ks : Nat → Block) (b : Bytes) : (xorStream ks b).length = b.length :=
  (fitsBlocks_xorp b ks).length

theorem length_keystream (ks : Nat → Block) (m : Nat) : (joinBlocks m fun i => bytesOf (ks i)).length = 16 * m := by
  induction m with
  | zero => rfl
  | succ m ih =>
    rw [joinBlocks_succ, List.length_append, ih, length_bytesOf]
    omega

/-- A stream is the exclusive or with the keystream as one string. -/
theorem xorStream_eq (ks : Nat → Block) (b : Bytes) :
    xorStream ks b = xorBytes b (joinBlocks (numBlocks b) fun i => bytesOf (ks i)) := by
  have hfirst : ∀ k ≤ numBlocks b, (joinBlocks k fun i => xorp (blk i b) (ks i))
      = xorBytes (joinBlocks k fun i => blk i b) (joinBlocks k fun i => bytesOf (ks i)) := by
    intro k hk
    induction k with
    | zero => rfl
    | succ k ih =>
      have hlen : (joinBlocks k fun i => blk i b).length = (joinBlocks k fun i => bytesOf (ks i)).length := by
        rw [joinBlocks_blk, length_keystream, List.length_take]
        unfold numBlocks at hk
        omega
      rw [joinBlocks_succ, joinBlocks_succ, joinBlocks_succ, ih (by omega), xorBytes_append hlen, xorp_eq]
  rw [xorStream, hfirst _ le_rfl, joinBlocks_numBlocks_blk]

theorem length_le_keystream (ks : Nat → Block) (b : Bytes) :
    b.length ≤ (joinBlocks (numBlocks b) fun i => bytesOf (ks i)).length := by
  rw [length_keystream]
  unfold numBlocks
  omega

theorem xorStream_congr {ks ks' : Nat → Block} {b : Bytes} (h : ∀ i < numBlocks b, ks i = ks' i) :
    xorStream ks b = xorStream ks' b := joinBlocks_congr fun i hi => by rw [h i hi]

/-- A stream under the same keystream twice gives the payload back. -/
theorem xorStream_xorStream (ks : Nat → Block) (b : Bytes) : xorStream ks (xorStream ks b) = b := by
  rw [xorStream_eq ks (xorStream ks b), numBlocks_congr (length_xorStream ks b), xorStream_eq]
  exact xorBytes_xorBytes (length_le_keystream ks b)

/-- Two strings under one keystream differ as the strings do. -/
theorem xorBytes_xorBytes_right {a b k : Bytes} (hab : a.length = b.length) (hk : a.length ≤ k.length) :
    xorBytes (xorBytes a k) (xorBytes b k) = xorBytes a b := by
  induction a generalizing b k with
  | nil => rfl
  | cons x xs ih =>
    obtain ⟨y, ys, rfl⟩ := List.exists_cons_of_length_eq_add_one hab.symm
    obtain ⟨z, zs, rfl⟩ := List.exists_cons_of_length_pos (lt_of_lt_of_le (Nat.succ_pos _) hk)
    have htail := ih (b := ys) (k := zs) (by simpa using hab) (by simpa using hk)
    simp only [xorBytes, List.zipWith_cons_cons, List.cons.injEq] at htail ⊢
    refine ⟨?_, htail⟩
    rw [BitVec.xor_comm y z, BitVec.xor_assoc, ← BitVec.xor_assoc z, BitVec.xor_self, BitVec.zero_xor]

theorem xorBytes_xorStream (ks : Nat → Block) {a b : Bytes} (h : a.length = b.length) :
    xorBytes (xorStream ks a) (xorStream ks b) = xorBytes a b := by
  rw [xorStream_eq, xorStream_eq, ← numBlocks_congr h]
  exact xorBytes_xorBytes_right h (length_le_keystream ks a)

/-! ## The padding of the last block -/

theorem lsb_append_of_le {c : Nat} (a : Bytes) {z : Bytes} (h : c ≤ z.length) : lsb c (a ++ z) = lsb c z := by
  rw [lsb, lsb, List.length_append, show a.length + z.length - c = a.length + (z.length - c) by omega]
  exact List.drop_length_add_append _

theorem padCount_append (a : Bytes) {z : Bytes} (h : 1 ≤ z.length) : padCount (a ++ z) = padCount z := by
  rw [padCount, lsb_append_of_le a h, padCount]

/-- The padding of a string is that of its last block (R85, 42_confidentiality_modes.md R99). -/
theorem padOk_append (a : Bytes) {z : Bytes} (h : z.length = 16) : padOk (a ++ z) = padOk z := by
  rw [Bool.eq_iff_iff, padOk_iff, padOk_iff, padCount_append a (by omega), List.length_append, h]
  refine and_congr_right fun _ => and_congr_right fun h16 => ?_
  rw [lsb_append_of_le a (by omega)]
  exact and_congr_left fun _ => ⟨fun _ => h16, fun _ => by omega⟩

theorem unpad_append (a : Bytes) {z : Bytes} (h : z.length = 16) (hok : padOk z = true) :
    unpad (a ++ z) = a ++ unpad z := by
  obtain ⟨-, h16, -, -⟩ := (padOk_iff z).mp hok
  rw [unpad, unpad, padCount_append a (by omega), List.length_append, msb, msb, Nat.add_sub_assoc (by omega)]
  exact List.take_length_add_append _

end Sys2Proof.Proofs
end

section
/-! PROOF. What the rules of the confidentiality modes compute, in closed form (42_confidentiality_modes.md R97 to R109):
the block loop gives its rounds' outputs put together, and the chained modes are sequences of blocks over the payload. -/

namespace Sys2Proof.Proofs

open Sys2Proof.Machine Sys2Proof.Laws

/-! ## The block loop -/

theorem forBlocks_append (body : Nat → Bytes → Dp → Bytes × Dp) (k : Nat) (xs ys : List Bytes) (d : Dp) :
    forBlocks body k (xs ++ ys) d =
      ((forBlocks body k xs d).1 ++ (forBlocks body (k + xs.length) ys (forBlocks body k xs d).2).1,
        (forBlocks body (k + xs.length) ys (forBlocks body k xs d).2).2) := by
  induction xs generalizing k d with
  | nil => rfl
  | cons x xs ih =>
    rw [List.cons_append, forBlocks_cons, forBlocks_cons, ih, List.length_cons, Nat.add_right_comm k 1, Nat.add_assoc k,
      List.append_assoc]

theorem take_succ_blks {b : Bytes} {n : Nat} (h : n < numBlocks b) :
    (blks b).take (n + 1) = (blks b).take n ++ [blk n b] := by
  rw [List.take_succ_eq_append_getElem (by rwa [length_blks])]
  simp [blks]

theorem take_numBlocks_blks (b : Bytes) : (blks b).take (numBlocks b) = blks b :=
  List.take_of_length_le (length_blks b).le

/-- A loop over the first `n` blocks of `b` whose round `i`, from a datapath with `I i`, answers `f i` and gives one with
`I (i + 1)`. -/
theorem forBlocks_take_blks {body : Nat → Bytes → Dp → Bytes × Dp} {I : Nat → Dp → Prop} {f : Nat → Bytes} {b : Bytes}
    {k n : Nat} (hn : n ≤ numBlocks b)
    (round : ∀ i < n, ∀ d, I i d → (body (k + i) (blk i b) d).1 = f i ∧ I (i + 1) (body (k + i) (blk i b) d).2)
    {d : Dp} (h0 : I 0 d) :
    (forBlocks body k ((blks b).take n) d).1 = joinBlocks n f ∧ I n (forBlocks body k ((blks b).take n) d).2 := by
  induction n with
  | zero => exact ⟨rfl, h0⟩
  | succ n ih =>
    obtain ⟨hout, hI⟩ := ih (by omega) fun i hi => round i (by omega)
    obtain ⟨hf, hI'⟩ := round n (by omega) _ hI
    have hlen : ((blks b).take n).length = n := length_take_blks b (by omega)
    rw [take_succ_blks hn, forBlocks_append, joinBlocks_succ, hlen, hout, ← hf]
    exact ⟨by simp [forBlocks_cons], hI'⟩

/-- The datapath holds the key and the chaining value of round `i`. -/
def ChainAt (key : Bytes) (v : Nat → Block) (i : Nat) (d : Dp) : Prop := d.key = key ∧ d.v = v i

/-- The round of a chained mode: with `v i` in `eng.V` it answers `f i` on block `i` of `b` and leaves `v (i + 1)`. -/
def ChainRound (body : Nat → Bytes → Dp → Bytes × Dp) (key b : Bytes) (v : Nat → Block) (f : Nat → Bytes)
    (i : Nat) : Prop :=
  ∀ j d, ChainAt key v i d → (body j (blk i b) d).1 = f i ∧ ChainAt key v (i + 1) (body j (blk i b) d).2

section Chained

variable {body : Nat → Bytes → Dp → Bytes × Dp} {key b : Bytes} {v : Nat → Block} {f : Nat → Bytes} {n : Nat} {d : Dp}

theorem chained_take (hn : n ≤ numBlocks b) (round : ∀ i < n, ChainRound body key b v f i) (hd : ChainAt key v 0 d) :
    (forBlocks body 0 ((blks b).take n) d).1 = joinBlocks n f
      ∧ ChainAt key v n (forBlocks body 0 ((blks b).take n) d).2 :=
  forBlocks_take_blks hn (fun i hi d => round i hi (0 + i) d) hd

theorem chained_blks (round : ∀ i < numBlocks b, ChainRound body key b v f i) (hd : ChainAt key v 0 d) :
    (forBlocks body 0 (blks b) d).1 = joinBlocks (numBlocks b) f := by
  rw [← (chained_take le_rfl round hd).1, take_numBlocks_blks]

end Chained

/-! ## ECB -/

/-- Each block of `b` through the permutation `f` (R97, R98). -/
def ecbMap (f : Block → Block) (b : Bytes) : Bytes := (blks b).flatMap fun x => bytesOf (f (blockOf x))

theorem ecbMap_eq (f : Block → Block) (b : Bytes) :
    ecbMap f b = joinBlocks (numBlocks b) fun i => bytesOf (f (blockOf (blk i b))) := flatMap_blks b _

theorem ecbEncRule_result (P : Prim) (o : Operands) (d : Dp) :
    (ecbEncRule P o d).1 = .ok (ecbMap (P d.key) (pad o.inp)) none := by
  rw [ecbMap_eq]
  refine congrArg (Result.ok · none) (chained_blks (key := d.key) (v := fun _ => d.v) ?_ ⟨rfl, rfl⟩)
  rintro i - j e ⟨hkey, hv⟩
  exact ⟨congrArg (fun k => bytesOf (P k _)) hkey, hkey, hv⟩

/-- The result of a decryption that removes padding from the string `q` (R98, R99, R101). -/
def unpadded (q : Bytes) : Result := if padOk q then .ok (unpad q) none else .fail .invalidPadding

/-- The check of the last block alone decides for the whole string (R99). -/
theorem unpadded_of_last {a z q : Bytes} {d d' : Dp} (hz : z.length = 16) (hq : a ++ z = q) :
    (if padOk z then (Result.ok (a ++ unpad z) none, d) else (.fail .invalidPadding, d')).1 = unpadded q := by
  rw [unpadded, ← hq, padOk_append a hz]
  by_cases h : padOk z = true
  · rw [if_pos h, if_pos h, unpad_append a hz h]
  · rw [if_neg h, if_neg h]

theorem joinBlocks_last {m : Nat} (hm : 0 < m) (f : Nat → Bytes) :
    joinBlocks m f = joinBlocks (m - 1) f ++ f (m - 1) := by
  rw [← joinBlocks_succ, Nat.sub_add_cancel hm]

theorem numBlocks_pos {b : Bytes} (h : 0 < b.length) : 0 < numBlocks b := by
  unfold numBlocks
  omega

theorem ecbDecRule_result (P : Prim) {o : Operands} (d : Dp) (h0 : 0 < o.inp.length) (hw : o.inp.length % 16 = 0) :
    (ecbDecRule P o d).1 = unpadded (ecbMap (P d.key).symm o.inp) := by
  dsimp only [ecbDecRule]
  refine unpadded_of_last (length_bytesOf _) ?_
  rw [ecbMap_eq, joinBlocks_last (numBlocks_pos h0), ← numBlocks_of_whole hw]
  refine congrArg (· ++ _) (chained_take (key := d.key) (v := fun _ => d.v) (Nat.sub_le _ 1) ?_ ?_).1
  · rintro i - j e ⟨hkey, hv⟩
    exact ⟨congrArg (fun k => bytesOf ((P k).symm _)) hkey, hkey, hv⟩
  · exact ⟨rfl, rfl⟩

/-! ## CBC -/

/-- The chaining values of the CBC encryption of `b`: `eng.V` before round `i` (R100). -/
def cbcChain (f : Block → Block) (iv b : Bytes) : Nat → Block
  | 0 => blockOf iv
  | i + 1 => f (blockOf (blk i b) ^^^ cbcChain f iv b i)

/-- The CBC encryption of `b` (R100). -/
def cbcEncrypt (f : Block → Block) (iv b : Bytes) : Bytes :=
  joinBlocks (numBlocks b) fun i => bytesOf (cbcChain f iv b (i + 1))

/-- The CBC decryption of `b` (R101). -/
def cbcDecrypt (g : Block → Block) (iv b : Bytes) : Bytes :=
  joinBlocks (numBlocks b) fun i => bytesOf (g (blockOf (blk i b)) ^^^ prevBlock iv b i)

/-- CBC rounds on blocks of `b` that are those of `c`. -/
theorem cbcEnc_round (P : Prim) (key iv : Bytes) {b c : Bytes} {i : Nat} (hx : blk i b = blk i c) :
    ChainRound (cbcEncBody P) key b (cbcChain (P key) iv c) (fun i => bytesOf (cbcChain (P key) iv c (i + 1))) i := by
  rintro j d ⟨rfl, hv⟩
  have hnext : P d.key (blockOf (blk i b) ^^^ d.v) = cbcChain (P d.key) iv c (i + 1) := by rw [hv, hx, cbcChain]
  exact ⟨congrArg bytesOf hnext, rfl, hnext⟩

theorem cbcDec_round (P : Prim) (key iv b : Bytes) (i : Nat) :
    ChainRound (cbcDecBody P) key b (prevBlock iv b)
      (fun i => bytesOf ((P key).symm (blockOf (blk i b)) ^^^ prevBlock iv b i)) i := by
  rintro j d ⟨rfl, hv⟩
  exact ⟨congrArg (fun x => bytesOf ((P d.key).symm (blockOf (blk i b)) ^^^ x)) hv, rfl, rfl⟩

theorem cbcEncRule_result (P : Prim) (o : Operands) (d : Dp) :
    (cbcEncRule P o d).1 = .ok (cbcEncrypt (P d.key) o.iv (pad o.inp)) none :=
  congrArg (Result.ok · none) (chained_blks (fun _ _ => cbcEnc_round P d.key o.iv rfl) ⟨rfl, rfl⟩)

theorem prevBlock_last (iv : Bytes) {b : Bytes} (h : 0 < numBlocks b) :
    prevBlock iv b (numBlocks b - 1) = blockOf (if numBlocks b = 1 then iv else blk (numBlocks b - 2) b) := by
  rw [prevBlock, apply_ite blockOf, Nat.sub_sub]
  exact if_congr (by omega) rfl rfl

theorem cbcDecRule_result (P : Prim) {o : Operands} (d : Dp) (h0 : 0 < o.inp.length) (hw : o.inp.length % 16 = 0) :
    (cbcDecRule P o d).1 = unpadded (cbcDecrypt (P d.key).symm o.iv o.inp) := by
  dsimp only [cbcDecRule]
  refine unpadded_of_last (length_bytesOf _) ?_
  rw [cbcDecrypt, joinBlocks_last (numBlocks_pos h0), ← numBlocks_of_whole hw, prevBlock_last _ (numBlocks_pos h0)]
  refine congrArg (· ++ _) (chained_take (Nat.sub_le _ 1) (fun i _ => cbcDec_round P d.key o.iv o.inp i) ?_).1
  exact ⟨rfl, rfl⟩

/-- A CBC encryption of whole blocks is chained through its own blocks (R100: `C[i] = ENC(K, P[i] xor C[i-1])`). -/
theorem prevBlock_cbcEncrypt (f : Block → Block) (iv : Bytes) {b : Bytes} (hw : b.length % 16 = 0) {i : Nat}
    (hi : i < numBlocks b) : prevBlock iv (cbcEncrypt f iv b) i = cbcChain f iv b i := by
  cases i with
  | zero => rfl
  | succ i =>
    rw [prevBlock, if_neg (Nat.succ_ne_zero i), Nat.add_sub_cancel, cbcEncrypt,
      (fitsBlocks_whole hw fun _ => length_bytesOf _).blk_joinBlocks (by omega), blockOf_bytesOf]

theorem cbcEncrypt_fixed (f : Block → Block) (iv : Bytes) {b : Bytes} (hw : b.length % 16 = 0) :
    cbcEncrypt f iv b = joinBlocks (numBlocks b) fun i =>
      bytesOf (f (blockOf (blk i b) ^^^ prevBlock iv (cbcEncrypt f iv b) i)) :=
  joinBlocks_congr fun i hi => by rw [prevBlock_cbcEncrypt f iv hw hi, cbcChain]

/-! ## The keystream modes: CFB, OFB, CTR and the counter mode of GCM -/

/-- The chaining values of the CFB encryption of `b` (R102). -/
def cfbChain (f : Block → Block) (iv b : Bytes) : Nat → Block
  | 0 => blockOf iv
  | i + 1 => segment (xorp (blk i b) (f (cfbChain f iv b i)))

/-- The CFB encryption of `b` (R102). -/
def cfbEncrypt (f : Block → Block) (iv b : Bytes) : Bytes := xorStream (fun i => f (cfbChain f iv b i)) b

/-- The CFB decryption of `b` (R103). -/
def cfbDecrypt (f : Block → Block) (iv b : Bytes) : Bytes := xorStream (fun i => f (prevBlock iv b i)) b

/-- A rule whose rounds xor each block with a keystream block answers the stream. -/
theorem stream_blks {body : Nat → Bytes → Dp → Bytes × Dp} {key b : Bytes} {v ks : Nat → Block} {d : Dp}
    (round : ∀ i < numBlocks b, ChainRound body key b v (fun i => xorp (blk i b) (ks i)) i) (hd : ChainAt key v 0 d) :
    (forBlocks body 0 (blks b) d).1 = xorStream ks b := chained_blks round hd

theorem cfbEncRule_result (P : Prim) (o : Operands) (d : Dp) :
    (cfbEncRule P o d).1 = .ok (cfbEncrypt (P d.key) o.iv o.inp) none := by
  refine congrArg (Result.ok · none) (stream_blks (key := d.key) (v := cfbChain (P d.key) o.iv o.inp) ?_ ⟨rfl, rfl⟩)
  rintro i - j e ⟨hkey, hv⟩
  have hks : xorp (blk i o.inp) (P e.key e.v) = xorp (blk i o.inp) (P d.key (cfbChain (P d.key) o.iv o.inp i)) := by
    rw [hkey, hv]
  exact ⟨hks, hkey, congrArg segment hks⟩

/-- What `eng.V` holds before round `i` of the CFB decryption of `b` (R103). -/
def segmentBefore (iv b : Bytes) : Nat → Block
  | 0 => blockOf iv
  | i + 1 => segment (blk i b)

/-- A partial segment is the last one: no round uses it (R102, R103). -/
theorem segmentBefore_eq (iv : Bytes) {b : Bytes} {i : Nat} (h : i < numBlocks b) :
    segmentBefore iv b i = prevBlock iv b i := by
  cases i with
  | zero => rfl
  | succ i => exact if_pos (length_blk_of_succ_lt h)

theorem cfbDecRule_result (P : Prim) (o : Operands) (d : Dp) :
    (cfbDecRule P o d).1 = .ok (cfbDecrypt (P d.key) o.iv o.inp) none := by
  have hks : cfbDecrypt (P d.key) o.iv o.inp = xorStream (fun i => P d.key (segmentBefore o.iv o.inp i)) o.inp :=
    xorStream_congr fun i hi => by rw [segmentBefore_eq o.iv hi]
  rw [hks]
  refine congrArg (Result.ok · none) (stream_blks (key := d.key) (v := segmentBefore o.iv o.inp) ?_ ⟨rfl, rfl⟩)
  rintro i - j e ⟨hkey, hv⟩
  exact ⟨congrArg (xorp _) (congrArg₂ (fun k x => P k x) hkey hv), hkey, rfl⟩

/-- A CFB encryption is chained through its own segments (R102: `C[i] = P[i] xor ENC(K, C[i-1])`). -/
theorem prevBlock_cfbEncrypt (f : Block → Block) (iv : Bytes) {b : Bytes} {i : Nat} (hi : i < numBlocks b) :
    prevBlock iv (cfbEncrypt f iv b) i = cfbChain f iv b i := by
  cases i with
  | zero => rfl
  | succ i =>
    have hlen : (xorp (blk i b) (f (cfbChain f iv b i))).length = 16 := by
      rw [length_xorp (length_blk_le i b), length_blk_of_succ_lt hi]
    rw [prevBlock, if_neg (Nat.succ_ne_zero i), Nat.add_sub_cancel, cfbEncrypt, xorStream,
      (fitsBlocks_xorp b _).blk_joinBlocks (by omega), cfbChain, Machine.segment, if_pos hlen]

theorem cfbEncrypt_fixed (f : Block → Block) (iv b : Bytes) :
    cfbEncrypt f iv b = xorStream (fun i => f (prevBlock iv (cfbEncrypt f iv b) i)) b :=
  xorStream_congr fun i hi => by rw [prevBlock_cfbEncrypt f iv hi]

theorem ofb_blks (P : Prim) (iv b : Bytes) (d : Dp) :
    (forBlocks (ofbBody P) 0 (blks b) { d with v := blockOf iv }).1
      = xorStream (fun i => (P d.key)^[i + 1] (blockOf iv)) b := by
  refine stream_blks (key := d.key) (v := fun i => (P d.key)^[i] (blockOf iv)) ?_ ⟨rfl, rfl⟩
  rintro i - j e ⟨hkey, hv⟩
  have hnext : P e.key e.v = (P d.key)^[i + 1] (blockOf iv) := by rw [hkey, hv, Function.iterate_succ_apply']
  exact ⟨congrArg (xorp _) hnext, hkey, hnext⟩

theorem ctr_blks (P : Prim) (iv b : Bytes) (d : Dp) :
    (forBlocks (ctrBody P) 0 (blks b) { d with v := blockOf iv }).1
      = xorStream (fun i => P d.key (blockOf iv + BitVec.ofNat 128 i)) b := by
  refine stream_blks (key := d.key) (v := fun i => blockOf iv + BitVec.ofNat 128 i) ?_ ⟨rfl, (BitVec.add_zero _).symm⟩
  rintro i - j e ⟨hkey, hv⟩
  refine ⟨congrArg (xorp _) (congrArg₂ (fun k x => P k x) hkey hv), hkey, ?_⟩
  calc e.v + 1 = blockOf iv + (BitVec.ofNat 128 i + BitVec.ofNat 128 1) := by rw [hv]; exact BitVec.add_assoc _ _ _
    _ = blockOf iv + BitVec.ofNat 128 (i + 1) := by rw [BitVec.ofNat_add]

/-- `GCTR` is the stream of the counter blocks from `ICB` on (40_datapath.md R79). -/
theorem gctr_result (P : Prim) (icb : Block) (b : Bytes) (d : Dp) :
    (gctr P icb b d).1 = xorStream (fun i => P d.key (inc32^[i] icb)) b := by
  refine stream_blks (key := d.key) (v := fun i => inc32^[i] icb) ?_ ⟨rfl, rfl⟩
  rintro i - j e ⟨hkey, hv⟩
  exact ⟨congrArg (xorp _) (congrArg₂ (fun k x => P k x) hkey hv), hkey,
    (congrArg inc32 hv).trans (Function.iterate_succ_apply' inc32 i icb).symm⟩

/-! ## CTS -/

/-- `B` with its last two blocks swapped and the one before the last cut to `d` bytes (R108). -/
def ctsSwap (m d : Nat) (b : Bytes) : Bytes :=
  if m = 1 then b else msb (16 * (m - 2)) b ++ blk (m - 1) b ++ msb d (blk (m - 2) b)

/-- `Z`, the decryption of the block before the last (R109). -/
def ctsZ (g : Block → Block) (b : Bytes) : Bytes := bytesOf (g (blockOf (blk (numBlocks b - 2) b)))

/-- The CTS decryption of `b` (R109). -/
def ctsDecrypt (g : Block → Block) (iv b : Bytes) : Bytes :=
  if numBlocks b = 1 then bytesOf (g (blockOf b) ^^^ blockOf iv)
  else (joinBlocks (numBlocks b - 2) fun i => bytesOf (g (blockOf (blk i b)) ^^^ prevBlock iv b i))
    ++ bytesOf (g (blockOf (blk (numBlocks b - 1) b ++ slice (lastLen b) 16 (ctsZ g b)))
      ^^^ prevBlock iv b (numBlocks b - 2))
    ++ xorBytes (msb (lastLen b) (ctsZ g b)) (blk (numBlocks b - 1) b)

theorem numBlocks_padz (b : Bytes) : numBlocks (padz b) = numBlocks b := by
  rw [numBlocks, length_padz, numBlocks, blocksIn]
  omega

/-- The blocks of a string with more bytes behind it. -/
theorem blk_append {i : Nat} {b : Bytes} (w : Bytes) (h : 16 * i ≤ b.length) :
    blk i (b ++ w) = blk i b ++ w.take (16 - (b.length - 16 * i)) := by
  rw [blk, slice, blk, slice, List.drop_append_of_le_length h, List.take_append, List.length_drop,
    Nat.add_sub_cancel_left]

theorem blk_padz_of_succ_lt {i : Nat} {b : Bytes} (h : i + 1 < numBlocks b) : blk i (padz b) = blk i b := by
  unfold numBlocks at h
  rw [padz, blk_append _ (by omega), show 16 - (b.length - 16 * i) = 0 by omega, List.take_zero, List.append_nil]

theorem blk_padz_last {b : Bytes} (h : 0 < numBlocks b) :
    blk (numBlocks b - 1) (padz b) = blk (numBlocks b - 1) b ++ zeros (16 - lastLen b) := by
  have hz : 16 - lastLen b = (16 - b.length % 16) % 16 := by
    unfold lastLen numBlocks at *
    omega
  rw [padz, blk_append _ (by unfold numBlocks at *; omega), hz]
  refine congrArg (_ ++ ·) (List.take_of_length_le ?_)
  rw [length_zeros, ← hz, lastLen]

theorem blk_zero_of_one {b : Bytes} (h : b.length ≤ 16) : blk 0 b = b := List.take_of_length_le h

theorem blk_cbcEncrypt (f : Block → Block) (iv : Bytes) {b : Bytes} (hw : b.length % 16 = 0) {i : Nat}
    (hi : i < numBlocks b) : blk i (cbcEncrypt f iv b) = bytesOf (cbcChain f iv b (i + 1)) :=
  (fitsBlocks_whole hw fun _ => length_bytesOf _).blk_joinBlocks hi

/-- A string of more than one block has two last ones. -/
theorem numBlocks_eq_add_two {b : Bytes} (h0 : 0 < b.length) (hm : numBlocks b ≠ 1) : ∃ k, numBlocks b = k + 2 :=
  ⟨numBlocks b - 2, by unfold numBlocks at *; omega⟩

/-- The layout of R108 on the chaining values of the zero-extended payload. -/
theorem ctsSwap_cbcEncrypt (f : Block → Block) (iv : Bytes) {b : Bytes} {k : Nat} (hk : numBlocks b = k + 2) (d : Nat) :
    ctsSwap (k + 2) d (cbcEncrypt f iv (padz b)) =
      (joinBlocks k fun i => bytesOf (cbcChain f iv (padz b) (i + 1))) ++ bytesOf (cbcChain f iv (padz b) (k + 2))
        ++ msb d (bytesOf (cbcChain f iv (padz b) (k + 1))) := by
  have hw := length_padz_mod b
  have hkz : numBlocks (padz b) = k + 2 := (numBlocks_padz b).trans hk
  have htake : msb (16 * k) (cbcEncrypt f iv (padz b)) = joinBlocks k fun i => bytesOf (cbcChain f iv (padz b) (i + 1)) :=
    (fitsBlocks_whole hw fun _ => length_bytesOf _).take_joinBlocks (by omega)
  rw [ctsSwap, if_neg (by omega), Nat.add_sub_cancel, Nat.add_succ_sub_one, htake, blk_cbcEncrypt _ _ hw (by omega),
    blk_cbcEncrypt _ _ hw (by omega)]

theorem cbcEncrypt_of_one (f : Block → Block) (iv : Bytes) {b : Bytes} (h : b.length = 16) :
    cbcEncrypt f iv b = bytesOf (f (blockOf b ^^^ blockOf iv)) := by
  have hm : numBlocks b = 1 := by rw [numBlocks, h]
  rw [cbcEncrypt, hm, joinBlocks_succ, joinBlocks_zero, List.nil_append, cbcChain, cbcChain, blk_zero_of_one h.le]

/-- The two last rounds of R108 are those of the CBC encryption, written out in the other order. -/
theorem ctsEncRule_result (P : Prim) {o : Operands} (d : Dp) (h16 : 16 ≤ o.inp.length) :
    (ctsEncRule P o d).1 =
      .ok (ctsSwap (numBlocks o.inp) (lastLen o.inp) (cbcEncrypt (P d.key) o.iv (padz o.inp))) none := by
  dsimp only [ctsEncRule]
  by_cases hm : numBlocks o.inp = 1
  · have hlen := length_eq_of_one_block h16 hm
    rw [if_pos hm, ctsSwap, if_pos hm, padz_of_whole (by omega), cbcEncrypt_of_one _ _ hlen, enc_fst]
  · obtain ⟨k, hk⟩ := numBlocks_eq_add_two (by omega) hm
    have hprev : blk k (padz o.inp) = blk k o.inp := blk_padz_of_succ_lt (by omega)
    have hlast : blk (k + 1) (padz o.inp) = blk (k + 1) o.inp ++ zeros (16 - lastLen o.inp) := by
      simpa [hk] using blk_padz_last (b := o.inp) (by omega)
    obtain ⟨hout, hkey, hv⟩ := chained_take (body := cbcEncBody P) (b := o.inp) (n := k) (key := d.key)
      (v := cbcChain (P d.key) o.iv (padz o.inp)) (d := { d with v := blockOf o.iv }) (by omega)
      (fun i hi => cbcEnc_round P d.key o.iv (blk_padz_of_succ_lt (by omega)).symm) ⟨rfl, rfl⟩
    rw [if_neg hm, hk, ctsSwap_cbcEncrypt _ _ hk, Nat.add_sub_cancel, Nat.add_succ_sub_one]
    simp only [enc_fst, enc_key, hout, hkey, hv, cbcChain, hlast, hprev]

theorem ctsDecRule_result (P : Prim) (o : Operands) (d : Dp) :
    (ctsDecRule P o d).1 = .ok (ctsDecrypt (P d.key).symm o.iv o.inp) none := by
  dsimp only [ctsDecRule]
  by_cases hm : numBlocks o.inp = 1
  · rw [if_pos hm, ctsDecrypt, if_pos hm, dec_fst]
  · obtain ⟨hout, hkey, hv⟩ := chained_take (body := cbcDecBody P) (b := o.inp) (n := numBlocks o.inp - 2)
      (d := { d with v := blockOf o.iv }) (Nat.sub_le _ 2) (fun i _ => cbcDec_round P d.key o.iv o.inp i) ⟨rfl, rfl⟩
    rw [if_neg hm, ctsDecrypt, if_neg hm]
    simp only [dec_fst, dec_key, dec_v, hout, hkey, hv, ctsZ]

end Sys2Proof.Proofs
end

section
/-! PROOF. The end of phase RUN (41_sequencer.md R91, R92): a ready command ends in `RunEnds` or `RunFails` by what its rule
answers; and from the closed forms of the rules, O27 to O36. -/

namespace Sys2Proof.Proofs

open Sys2Proof.Machine Sys2Proof.Laws

/-! ## The end of RUN -/

theorem commit_runFrame (r : Result × Dp) (s : State) : RunFrame s (s.commit r) := by
  obtain ⟨_ | _, _⟩ := r <;>
    exact ⟨rfl, rfl, rfl, rfl, rfl, rfl, rfl, rfl, rfl, rfl, rfl, rfl, rfl, rfl, rfl, rfl, rfl, rfl⟩

/-- A buffer holds `v` when each of its bytes reads as that of `v`. -/
theorem fetch_eq_of_read {m : List Host.Cell} {r : Region} {v : Bytes} (hlen : v.length = r.len)
    (h : ∀ a, r.has a = true → Memory.read m a = v.getD (a - r.base) 0) : r.fetch m = v := by
  refine List.ext_getElem (by rw [length_fetch, hlen]) fun k hk _ => ?_
  rw [length_fetch] at hk
  simp only [Region.fetch, Memory.readBytes, List.getElem_map, List.getElem_range]
  rw [h _ (by simp [Region.has, hk]), Nat.add_sub_cancel_left]
  simp [hlen, hk]

theorem has_eq_false_of_overlaps {r q : Region} (h : r.overlaps q = false) {a : Nat} (ha : r.has a = true) :
    q.has a = false := by
  by_contra hq
  simp [(overlaps_iff r q).mpr ⟨a, ha, by simpa using hq⟩] at h

/-- The commands that write a tag are those whose rule gives one (R91, R113). -/
theorem writesTag_iff {i : Instr} {tout : Option Bytes}
    (h : tout.map List.length = if writesTag i then some 16 else none) : writesTag i = true ↔ tout ≠ none := by
  refine ⟨fun hw hn => ?_, fun hn => ?_⟩
  · simp [hw, hn] at h
  · by_contra hw
    exact hn (by simpa [hw] using h)

/-- The engine's stores of a success: each byte of the output and tag buffers (log 26). -/
theorem mem_storedAddrs {i : Instr} {c : Params} {out : Bytes} {tout : Option Bytes}
    (h : tout.map List.length = if writesTag i then some 16 else none) (a : Nat) :
    a ∈ storedAddrs c out tout ↔
      (c.dstBuf out.length).has a = true ∨ (tout ≠ none ∧ c.tagBuf.has a = true) := by
  cases tout with
  | none => simp [storedAddrs, mem_addrs]
  | some tag =>
    have hwt : writesTag i = true := (writesTag_iff h).mpr (Option.some_ne_none tag)
    have h16 : tag.length = Config.tagBytes := by simpa [hwt, Config.tagBytes] using h
    simp [storedAddrs, mem_addrs, h16, Params.tagBuf]

/-- A ready command whose rule answers `ok` stores the output and the tag and nothing else (R91). -/
theorem commit_runEnds {i : Instr} {s : State} {r : Result × Dp} {out : Bytes} {tout : Option Bytes}
    (hw : Memory.wf s.mem) (hmet : Met i out.length s) (hr : r.1 = .ok out tout)
    (htag : tout.map List.length = if writesTag i then some 16 else none) : RunEnds s (s.commit r) out tout := by
  obtain ⟨res, dp⟩ := r
  obtain rfl : res = .ok out tout := hr
  have hrange : ∀ r ∈ writeBufs i s.eng.cfg out.length, r.base + r.len ≤ 2 ^ 32 := fun r h =>
    hmet.inRange r (List.mem_append_right _ h)
  have hread := read_storeResult hw htag hrange
  have hiff := writesTag_iff htag
  refine ⟨rfl, rfl, rfl, ?outMem, ?tagMem, ?memFrame, ?unobserved, commit_runFrame _ s⟩
  case outMem =>
    refine fetch_eq_of_read rfl fun a ha => ?_
    have hnot : ¬(writesTag i = true ∧ s.eng.cfg.tagBuf.has a = true) := fun ⟨hwt, h⟩ => by
      simp [has_eq_false_of_overlaps (hmet.tag hwt).1 ha] at h
    exact (hread a).trans (by rw [if_neg hnot, if_pos ha]; rfl)
  case tagMem =>
    rintro tag rfl
    have hwt := hiff.mpr (by simp)
    refine fetch_eq_of_read (by simpa [hwt, Params.tagBuf, Config.tagBytes] using htag) fun a ha => ?_
    exact (hread a).trans (by rw [if_pos ⟨hwt, ha⟩]; rfl)
  case memFrame =>
    intro a hdst htg
    refine (hread a).trans ?_
    rw [if_neg, if_neg (by simp [hdst])]
    rintro ⟨hwt, h⟩
    exact htg.elim (hiff.mp hwt) fun hf => by simp [hf] at h
  case unobserved =>
    intro a
    exact (List.mem_append.trans (or_congr_left (mem_storedAddrs htag a))).trans or_assoc

section Ready

variable {i : Instr} {l : Nat} {s : State} (h : Ready i l s)
include h

/-- A ready command whose rule answers `ok` with an output of the length it is ready for (R91). -/
theorem exec_runEnds {out : Bytes} {tout : Option Bytes}
    (hr : (ruleResult i (ruleOf Config.prim i) s).1 = .ok out tout) (hl : out.length = l) :
    ∃ t, exec i s = .next t ∧ RunEnds s t out tout := by
  subst hl
  refine ⟨_, exec_next h.valid ?_, commit_runEnds h.wf (obligations_none_iff_met.mp h.obliged) hr (ruleOf_tout hr)⟩
  rw [hr]
  exact h.obliged

/-- The same where R111 gives the output's length by the payload's alone. -/
theorem exec_runEnds_of_known {out : Bytes} {tout : Option Bytes} (hl : knownSpan i s.eng.cfg = some l)
    (hr : (ruleResult i (ruleOf Config.prim i) s).1 = .ok out tout) :
    ∃ t, exec i s = .next t ∧ RunEnds s t out tout := by
  refine exec_runEnds h hr ?_
  have hspan := outSpan_ruleResult h.valid hl
  rwa [hr] at hspan

/-- A ready command whose rule fails writes nothing (R92); `l` is the length R50 gives its output buffer. -/
theorem exec_runFails {e : Err} (hr : (ruleResult i (ruleOf Config.prim i) s).1 = .fail e)
    (hl : outSpan s.eng.cfg (.fail e) = l) : ∃ t, exec i s = .next t ∧ RunFails s t e := by
  subst hl
  refine ⟨_, exec_next h.valid (hr ▸ h.obliged), ?_⟩
  have hframe := commit_runFrame (ruleResult i (ruleOf Config.prim i) s) s
  generalize ruleResult i (ruleOf Config.prim i) s = r at hr hframe ⊢
  obtain ⟨res, dp⟩ := r
  obtain rfl : res = .fail e := hr
  exact ⟨rfl, rfl, fun _ => rfl, rfl, hframe⟩

/-- A ready command that removes padding from `q` ends by the padding of `q` (R98, R99, R101). -/
theorem exec_runEnds_of_padOk {q : Bytes} (hr : (ruleResult i (ruleOf Config.prim i) s).1 = unpadded q)
    (hok : padOk q = true) (hl : q.length - padCount q = l) :
    ∃ t, exec i s = .next t ∧ RunEnds s t (unpad q) none := by
  refine exec_runEnds h (hr.trans (if_pos hok)) ?_
  rw [unpad, length_msb, hl, min_eq_left (by omega)]

end Ready

theorem exec_runFails_of_not_padOk {i : Instr} {s : State} (h : Ready i 0 s) {q : Bytes}
    (hr : (ruleResult i (ruleOf Config.prim i) s).1 = unpadded q) (hok : padOk q = false) :
    ∃ t, exec i s = .next t ∧ RunFails s t .invalidPadding :=
  exec_runFails h (hr.trans (if_neg (by simp [hok]))) rfl

theorem ite_some_eq_none_iff {p : Prop} [Decidable p] {e : Err} {x : Option Err} :
    (if p then some e else x) = none ↔ ¬p ∧ x = none := by
  by_cases h : p <;> simp [h]

/-- A validated ECB or CBC decryption has a payload of whole blocks, at least one (R89 test 10). -/
theorem validate_whole {i : Instr} {c : Params} (hv : validate i c = none) (hm : i.mode = .ecb ∨ i.mode = .cbc)
    (hd : i.dir = .dec) : 0 < c.srcLen.toNat ∧ c.srcLen.toNat % 16 = 0 := by
  simp only [validate, ite_some_eq_none_iff] at hv
  obtain ⟨-, -, -, -, -, -, -, -, hpad, -⟩ := hv
  have hlen : ¬(c.srcLen.toNat = 0 ∨ c.srcLen.toNat % 16 ≠ 0) := fun h => hpad ⟨hm, hd, h⟩
  omega

theorem length_opIn (s : State) : s.opIn.length = s.eng.cfg.srcLen.toNat := length_fetch _ _

/-- The payload of a ready ECB or CBC decryption. -/
theorem opIn_whole {i : Instr} {l : Nat} {s : State} (h : Ready i l s) (hm : i.mode = .ecb ∨ i.mode = .cbc)
    (hd : i.dir = .dec) : 0 < s.opIn.length ∧ s.opIn.length % 16 = 0 := by
  rw [length_opIn]
  exact validate_whole h.valid hm hd

/-- The payload of a ready CTS command. -/
theorem sixteen_le_opIn {i : Instr} {l : Nat} {s : State} (h : Ready i l s) (hm : i.mode = .cts) :
    16 ≤ s.opIn.length := by
  rw [length_opIn]
  exact validate_cts h.valid hm

theorem knownSpan_opIn {i : Instr} (s : State) (hm : ¬(i.mode = .ecb ∨ i.mode = .cbc)) :
    knownSpan i s.eng.cfg = some s.opIn.length := by
  rw [knownSpan, if_neg hm, length_opIn]

theorem knownSpan_padded {i : Instr} (s : State) (hm : i.mode = .ecb ∨ i.mode = .cbc) (hd : i.dir = .enc) :
    knownSpan i s.eng.cfg = some (16 * (s.opIn.length / 16 + 1)) := by
  rw [knownSpan, if_pos hm, if_pos hd, length_opIn]

/-! ## The statements -/

/-- Settles O27: each round of the loop is a function of its block and the key. -/
theorem ecbEncEncryptsEachPaddedBlock : Obligations.EcbEncEncryptsEachPaddedBlock := by
  intro ivp aadp tagp s h
  exact exec_runEnds_of_known h (knownSpan_padded s (.inl rfl) rfl) (ecbEncRule_result Config.prim _ _)

/-- Settles O28: whether the last block's padding is valid decides for the whole decryption. -/
theorem ecbDecDecryptsAndUnpadsOrFails : Obligations.EcbDecDecryptsAndUnpadsOrFails := by
  rintro ivp aadp tagp s q rfl
  have hr := ecbDecRule_result Config.prim (o := operands (.ecbDec ivp aadp tagp) s.eng.cfg s.mem)
    (s.eng.dp.start s.opKey)
  refine ⟨fun hok h => ?_, fun hok h => ?_⟩ <;> obtain ⟨h0, hw⟩ := opIn_whole h (.inl rfl) rfl
  · exact exec_runEnds_of_padOk h (hr h0 hw) hok rfl
  · exact exec_runFails_of_not_padOk h (hr h0 hw) hok

theorem length_pad_mod (b : Bytes) : (pad b).length % 16 = 0 := by
  rw [length_pad]
  omega

/-- Settles O29: the output is the fixed point that the chaining values spell out. -/
theorem cbcEncChainsEachPaddedBlock : Obligations.CbcEncChainsEachPaddedBlock := by
  intro ivp aadp tagp s h
  obtain ⟨t, hx, ht⟩ :=
    exec_runEnds_of_known h (knownSpan_padded s (.inr rfl) rfl) (cbcEncRule_result Config.prim _ _)
  exact ⟨t, _, hx, ht, cbcEncrypt_fixed (Config.prim s.opKey) s.opIv (length_pad_mod s.opIn)⟩

/-- Settles O30: as O28, the last block unchained with the block before it. -/
theorem cbcDecUnchainsAndUnpadsOrFails : Obligations.CbcDecUnchainsAndUnpadsOrFails := by
  rintro ivp aadp tagp s q rfl
  have hr := cbcDecRule_result Config.prim (o := operands (.cbcDec ivp aadp tagp) s.eng.cfg s.mem)
    (s.eng.dp.start s.opKey)
  refine ⟨fun hok h => ?_, fun hok h => ?_⟩ <;> obtain ⟨h0, hw⟩ := opIn_whole h (.inr rfl) rfl
  · exact exec_runEnds_of_padOk h (hr h0 hw) hok rfl
  · exact exec_runFails_of_not_padOk h (hr h0 hw) hok

/-- Settles O31: a segment that is chained on is a whole block of the output. -/
theorem cfbEncFeedsCiphertextBack : Obligations.CfbEncFeedsCiphertextBack := by
  intro ivp aadp tagp s h
  obtain ⟨t, hx, ht⟩ :=
    exec_runEnds_of_known h (knownSpan_opIn s (by simp [Instr.mode])) (cfbEncRule_result Config.prim _ _)
  exact ⟨t, _, hx, ht, cfbEncrypt_fixed (Config.prim s.opKey) s.opIv s.opIn⟩

/-- Settles O32: `eng.V` holds the ciphertext segment before. -/
theorem cfbDecFeedsCiphertextBack : Obligations.CfbDecFeedsCiphertextBack := by
  intro ivp aadp tagp s h
  exact exec_runEnds_of_known h (knownSpan_opIn s (by simp [Instr.mode])) (cfbDecRule_result Config.prim _ _)

/-- Settles O33: both directions run the one loop (R105). -/
theorem ofbXorsIteratedKeystream : Obligations.OfbXorsIteratedKeystream := by
  intro ivp aadp tagp s i hi h
  have hr := congrArg (Result.ok · none) (ofb_blks Config.prim s.opIv s.opIn (s.eng.dp.start s.opKey))
  simp only [List.mem_cons, List.not_mem_nil, or_false] at hi
  rcases hi with rfl | rfl <;> exact exec_runEnds_of_known h (knownSpan_opIn s (by simp [Instr.mode])) hr

/-- Settles O34: both directions run the one loop (R107). -/
theorem ctrXorsCounterKeystream : Obligations.CtrXorsCounterKeystream := by
  intro ivp aadp tagp s i hi h
  have hr := congrArg (Result.ok · none) (ctr_blks Config.prim s.opIv s.opIn (s.eng.dp.start s.opKey))
  simp only [List.mem_cons, List.not_mem_nil, or_false] at hi
  rcases hi with rfl | rfl <;> exact exec_runEnds_of_known h (knownSpan_opIn s (by simp [Instr.mode])) hr

/-- Settles O35: the last two rounds are those of CBC over the zero-extended payload. -/
theorem ctsEncSwapsTheLastTwoCbcBlocks : Obligations.CtsEncSwapsTheLastTwoCbcBlocks := by
  intro ivp aadp tagp s h
  obtain ⟨t, hx, ht⟩ := exec_runEnds_of_known h (knownSpan_opIn s (by simp [Instr.mode]))
    (ctsEncRule_result Config.prim _ (sixteen_le_opIn h rfl))
  have hfix := cbcEncrypt_fixed (Config.prim s.opKey) s.opIv (length_padz_mod s.opIn)
  rw [numBlocks_padz] at hfix
  exact ⟨t, _, hx, hfix, ht⟩

/-- Settles O36: the one-block case and the general one of R109. -/
theorem ctsDecRecoversTheStolenBytes : Obligations.CtsDecRecoversTheStolenBytes := by
  intro ivp aadp tagp s h
  obtain ⟨t, hx, ht⟩ := exec_runEnds_of_known h (knownSpan_opIn s (by simp [Instr.mode]))
    (ctsDecRule_result Config.prim _ _)
  change RunEnds s t (ctsDecrypt (Config.prim s.opKey).symm s.opIv s.opIn) none at ht
  refine ⟨t, hx, fun hm => ?_, fun hm m d z xs hm' hd hz hxs => ?_⟩
  · rwa [ctsDecrypt, if_pos hm] at ht
  · rwa [ctsDecrypt, if_neg hm, ctsZ, ← hm', ← hd, ← hz, ← hxs] at ht

end Sys2Proof.Proofs
end

section
/-! PROOF. Laws of the confidentiality modes, from the closed forms of their rules: decryption undoes encryption (O50), the
lengths of the outputs (O52), and what two outputs under one keystream tell of their payloads (O53). -/

namespace Sys2Proof.Proofs

open Sys2Proof.Machine Sys2Proof.Laws

/-! ## Decryption undoes encryption -/

theorem numBlocks_ecbMap (f : Block → Block) (b : Bytes) : numBlocks (ecbMap f b) = numBlocks b := by
  rw [ecbMap_eq, numBlocks, length_keystream]
  omega

theorem length_ecbMap (f : Block → Block) (b : Bytes) : (ecbMap f b).length = 16 * numBlocks b := by
  rw [ecbMap_eq, length_keystream]

theorem length_cbcEncrypt (f : Block → Block) (iv b : Bytes) : (cbcEncrypt f iv b).length = 16 * numBlocks b :=
  length_keystream _ _

theorem length_cbcDecrypt (g : Block → Block) (iv b : Bytes) : (cbcDecrypt g iv b).length = 16 * numBlocks b :=
  length_keystream _ _

theorem numBlocks_cbcEncrypt (f : Block → Block) (iv b : Bytes) : numBlocks (cbcEncrypt f iv b) = numBlocks b := by
  rw [numBlocks, length_cbcEncrypt]
  omega

/-- The blocks of `b`, however computed, put together are `b`. -/
theorem joinBlocks_eq_self {b : Bytes} {f : Nat → Bytes} (h : ∀ i < numBlocks b, f i = blk i b) :
    joinBlocks (numBlocks b) f = b := by
  rw [joinBlocks_congr h, joinBlocks_numBlocks_blk]

theorem ecbMap_symm (e : Equiv.Perm Block) {b : Bytes} (hw : b.length % 16 = 0) : ecbMap e.symm (ecbMap e b) = b := by
  rw [ecbMap_eq e.symm, numBlocks_ecbMap]
  refine joinBlocks_eq_self fun i hi => ?_
  rw [ecbMap_eq, (fitsBlocks_whole hw fun _ => length_bytesOf _).blk_joinBlocks hi, blockOf_bytesOf,
    Equiv.symm_apply_apply, bytesOf_blockOf (length_blk_of_whole hw hi)]

/-- Round `i` of a CBC decryption undoes that of the encryption. -/
theorem cbcChain_symm (e : Equiv.Perm Block) (iv b : Bytes) (i : Nat) :
    e.symm (cbcChain e iv b (i + 1)) ^^^ cbcChain e iv b i = blockOf (blk i b) := by
  rw [cbcChain, Equiv.symm_apply_apply, BitVec.xor_assoc, BitVec.xor_self, BitVec.xor_zero]

theorem cbcDecrypt_cbcEncrypt (e : Equiv.Perm Block) (iv : Bytes) {b : Bytes} (hw : b.length % 16 = 0) :
    cbcDecrypt e.symm iv (cbcEncrypt e iv b) = b := by
  rw [cbcDecrypt, numBlocks_cbcEncrypt]
  refine joinBlocks_eq_self fun i hi => ?_
  rw [prevBlock_cbcEncrypt e iv hw hi, blk_cbcEncrypt e iv hw hi, blockOf_bytesOf, cbcChain_symm,
    bytesOf_blockOf (length_blk_of_whole hw hi)]

theorem cfbDecrypt_cfbEncrypt (f : Block → Block) (iv b : Bytes) : cfbDecrypt f iv (cfbEncrypt f iv b) = b := by
  have hks : cfbDecrypt f iv (cfbEncrypt f iv b)
      = xorStream (fun i => f (cfbChain f iv b i)) (xorStream (fun i => f (cfbChain f iv b i)) b) :=
    xorStream_congr fun i hi => by
      rw [cfbEncrypt, numBlocks_congr (length_xorStream _ b)] at hi
      rw [prevBlock_cfbEncrypt f iv hi]
  rw [hks, xorStream_xorStream]

/-! ### CTS -/

/-- Block `i` of a CTS encryption of `m` blocks (R108). -/
def ctsBlock (m d : Nat) (b : Bytes) (i : Nat) : Bytes :=
  if i + 2 < m then blk i b else if i + 2 = m then blk (m - 1) b else msb d (blk (m - 2) b)

theorem ctsSwap_eq (k d : Nat) (b : Bytes) : ctsSwap (k + 2) d b = joinBlocks (k + 2) (ctsBlock (k + 2) d b) := by
  have hfirst : msb (16 * k) b = joinBlocks k (ctsBlock (k + 2) d b) := by
    rw [msb, ← joinBlocks_blk]
    exact joinBlocks_congr fun i hi => (if_pos (by omega)).symm
  have hk : ctsBlock (k + 2) d b k = blk (k + 1) b := by simp [ctsBlock]
  have hlast : ctsBlock (k + 2) d b (k + 1) = msb d (blk k b) := by simp [ctsBlock]
  rw [ctsSwap, if_neg (by omega), joinBlocks_succ, joinBlocks_succ, hk, hlast, ← hfirst, Nat.add_sub_cancel,
    Nat.add_succ_sub_one]

theorem fitsBlocks_ctsBlock {b c : Bytes} (h0 : 0 < b.length) (hm : numBlocks b ≠ 1)
    (hc : c.length = 16 * numBlocks b) : FitsBlocks b (ctsBlock (numBlocks b) (lastLen b) c) := by
  have hblk : ∀ j < numBlocks b, (blk j c).length = 16 := fun j hj => by
    rw [length_blk]
    omega
  obtain ⟨k, hk⟩ := numBlocks_eq_add_two h0 hm
  intro i hi
  unfold ctsBlock
  split_ifs with h1 h2
  · rw [hblk i hi, length_blk_of_succ_lt (by omega)]
  · rw [hblk _ (by omega), length_blk_of_succ_lt (by omega)]
  · obtain rfl : i = numBlocks b - 1 := by omega
    rw [length_msb, hblk _ (by omega), length_last_blk, min_eq_left (lastLen_le b)]

/-- The stolen bytes: a short block, extended with zero bytes, xored with `c` has the rest of `c` at its end (R109). -/
theorem xorBytes_append_zeros {a c : Bytes} (ha : a.length ≤ c.length) :
    xorBytes (a ++ zeros (c.length - a.length)) c = xorBytes a (msb a.length c) ++ c.drop a.length := by
  have hzero : ∀ r : Bytes, xorBytes (zeros r.length) r = r := fun r => by
    refine List.ext_getElem (by simp) fun k _ _ => ?_
    simp [xorBytes, zeros, rep]
  conv_lhs => rw [← List.take_append_drop a.length c]
  rw [xorBytes_append (by rw [List.length_take, min_eq_left ha]), msb, List.length_append, List.length_take,
    List.length_drop, min_eq_left ha, Nat.add_sub_cancel_left, ← List.length_drop, hzero]

/-- What the stolen bytes give (R108, R109): from `Z`, the zero-extended last block `a` xored with `c`, and the first
bytes of `c`, both `c` and `a`. -/
theorem stolen_bytes {a c z : Bytes} (hc : c.length = 16) (ha : a.length ≤ 16)
    (hz : z = xorBytes (a ++ zeros (16 - a.length)) c) :
    msb a.length c ++ slice a.length 16 z = c ∧ xorBytes (msb a.length z) (msb a.length c) = a := by
  have hm : (msb a.length c).length = a.length := by rw [length_msb, hc, min_eq_left ha]
  have hx : (xorBytes a (msb a.length c)).length = a.length := by rw [length_xorBytes, hm, min_self]
  rw [← hc, xorBytes_append_zeros (hc ▸ ha)] at hz
  constructor
  · rw [hz, slice, List.drop_left' hx, List.take_of_length_le (by rw [List.length_drop, hc]), msb, List.take_append_drop]
  · rw [hz, msb, List.take_left' hx]
    exact xorBytes_xorBytes hm.ge

/-- With one block CTS is CBC (R108, R109: `m = 1`). -/
theorem ctsDecrypt_of_one (g : Block → Block) (iv : Bytes) {b : Bytes} (hm : numBlocks b = 1) :
    ctsDecrypt g iv b = cbcDecrypt g iv b := by
  have hlen : b.length ≤ 16 := by
    unfold numBlocks at hm
    omega
  rw [ctsDecrypt, if_pos hm, cbcDecrypt, hm, joinBlocks_succ, joinBlocks_zero, blk_zero_of_one hlen, prevBlock, if_pos rfl,
    List.nil_append]

/-- `CTS.DEC` on a string whose blocks are those of a CBC encryption, the last two swapped and the stolen one cut. -/
theorem ctsDecrypt_of_blocks (e : Equiv.Perm Block) (iv : Bytes) {b out : Bytes} {k : Nat} (hk : numBlocks b = k + 2)
    (hlen : out.length = b.length)
    (hfirst : ∀ i < k, blk i out = bytesOf (cbcChain e iv (padz b) (i + 1)))
    (hwhole : blk k out = bytesOf (cbcChain e iv (padz b) (k + 2)))
    (hcut : blk (k + 1) out = msb (lastLen b) (bytesOf (cbcChain e iv (padz b) (k + 1)))) :
    ctsDecrypt e.symm iv out = b := by
  have hm : numBlocks out = k + 2 := (numBlocks_congr hlen).trans hk
  have hd : (blk (k + 1) b).length = lastLen b := by simpa [hk] using length_last_blk b
  have hdo : lastLen out = lastLen b := by rw [lastLen, lastLen, hm, hk, hlen]
  have hpad : blk (k + 1) (padz b) = blk (k + 1) b ++ zeros (16 - (blk (k + 1) b).length) := by
    simpa [hk, hd] using blk_padz_last (b := b) (by omega)
  have hprev : ∀ i ≤ k, prevBlock iv out i = cbcChain e iv (padz b) i := by
    rintro (_ | i) hi
    · rfl
    · rw [prevBlock, if_neg (Nat.succ_ne_zero i), Nat.add_sub_cancel, hfirst i hi, blockOf_bytesOf]
  have hround : ∀ i ≤ k, bytesOf (e.symm (cbcChain e iv (padz b) (i + 1)) ^^^ cbcChain e iv (padz b) i) = blk i b := by
    intro i hi
    rw [cbcChain_symm, blk_padz_of_succ_lt (by omega), bytesOf_blockOf (length_blk_of_succ_lt (by omega))]
  have hZ : ctsZ e.symm out = xorBytes (blk (k + 1) b ++ zeros (16 - (blk (k + 1) b).length))
      (bytesOf (cbcChain e iv (padz b) (k + 1))) := by
    have h16 : (blk (k + 1) (padz b)).length = 16 :=
      length_blk_of_whole (length_padz_mod b) (by rw [numBlocks_padz]; omega)
    rw [ctsZ, hm, Nat.add_sub_cancel, hwhole, blockOf_bytesOf, cbcChain, Equiv.symm_apply_apply, bytesOf_xor,
      bytesOf_blockOf h16, hpad]
  obtain ⟨hstolen, hlast⟩ := stolen_bytes (length_bytesOf _) (length_blk_le _ b) hZ
  rw [hd, ← hcut] at hstolen hlast
  calc ctsDecrypt e.symm iv out
    _ = (joinBlocks k fun i => blk i b) ++ blk k b ++ blk (k + 1) b := by
        rw [ctsDecrypt, if_neg (by omega), hm, hdo, Nat.add_sub_cancel, Nat.add_succ_sub_one, hstolen, hlast,
          blockOf_bytesOf, hprev k le_rfl, hround k le_rfl]
        refine congrArg (· ++ _ ++ _) (joinBlocks_congr fun i hi => ?_)
        rw [hfirst i hi, blockOf_bytesOf, hprev i hi.le, hround i hi.le]
    _ = b := by rw [← joinBlocks_succ, ← joinBlocks_succ, ← hk, joinBlocks_numBlocks_blk]

theorem ctsDecrypt_ctsSwap (e : Equiv.Perm Block) (iv : Bytes) {b : Bytes} (h16 : 16 ≤ b.length) :
    ctsDecrypt e.symm iv (ctsSwap (numBlocks b) (lastLen b) (cbcEncrypt e iv (padz b))) = b := by
  by_cases hm : numBlocks b = 1
  · have hlen := length_eq_of_one_block h16 hm
    rw [ctsSwap, if_pos hm, padz_of_whole (by omega),
      ctsDecrypt_of_one _ _ ((numBlocks_cbcEncrypt e iv b).trans hm), cbcDecrypt_cbcEncrypt e iv (by omega)]
  · obtain ⟨k, hk⟩ := numBlocks_eq_add_two (by omega) hm
    have hfit := fitsBlocks_ctsBlock (c := cbcEncrypt e iv (padz b)) (by omega) hm
      (by rw [length_cbcEncrypt, numBlocks_padz])
    have hblk : ∀ i < k + 2, blk i (cbcEncrypt e iv (padz b)) = bytesOf (cbcChain e iv (padz b) (i + 1)) := fun i hi =>
      blk_cbcEncrypt e iv (length_padz_mod b) (by rw [numBlocks_padz]; omega)
    have hout := fun i (hi : i < numBlocks b) => hfit.blk_joinBlocks hi
    have hlen := hfit.length
    rw [hk, ← ctsSwap_eq] at hout hlen
    rw [hk]
    refine ctsDecrypt_of_blocks e iv hk hlen (fun i hi => ?_) ?_ ?_
    · rw [hout i (by omega), ctsBlock, if_pos (by omega), hblk i (by omega)]
    · rw [hout k (by omega), ctsBlock, if_neg (by omega), if_pos rfl, Nat.add_succ_sub_one, hblk _ (by omega)]
    · rw [hout (k + 1) (by omega), ctsBlock, if_neg (by omega), if_neg (by omega), Nat.add_sub_cancel, hblk _ (by omega)]

/-! ### The rules -/

/-- The rule `dec` gives back the payload from what the rule `enc` answers, under the same key and IV. -/
def RoundTrip (enc dec : Rule) (o : Operands) (d d' : Dp) : Prop :=
  ∃ out, (enc o d).1 = .ok out none ∧ (dec { o with inp := out } d').1 = .ok o.inp none

theorem unpadded_pad (b : Bytes) : unpadded (pad b) = .ok b none := by
  rw [unpadded, if_pos (padOk_pad b), unpad_pad]

theorem whole_of_length_pad {p q : Bytes} (h : q.length = 16 * numBlocks (pad p)) :
    0 < q.length ∧ q.length % 16 = 0 := by
  rw [numBlocks_of_whole (length_pad_mod p), length_pad] at h
  omega

section RoundTrips

variable (P : Prim) (o : Operands) {d d' : Dp} (h : d.key = d'.key)
include h

theorem ecb_roundTrip : RoundTrip (ecbEncRule P) (ecbDecRule P) o d d' := by
  obtain ⟨h0, hw⟩ := whole_of_length_pad (length_ecbMap (P d.key) (pad o.inp))
  refine ⟨_, ecbEncRule_result P o d, ?_⟩
  rw [ecbDecRule_result P d' (by exact h0) (by exact hw), ← h, ecbMap_symm _ (length_pad_mod o.inp), unpadded_pad]

theorem cbc_roundTrip : RoundTrip (cbcEncRule P) (cbcDecRule P) o d d' := by
  obtain ⟨h0, hw⟩ := whole_of_length_pad (length_cbcEncrypt (P d.key) o.iv (pad o.inp))
  refine ⟨_, cbcEncRule_result P o d, ?_⟩
  rw [cbcDecRule_result P d' (by exact h0) (by exact hw), ← h, cbcDecrypt_cbcEncrypt _ _ (length_pad_mod o.inp),
    unpadded_pad]

theorem cfb_roundTrip : RoundTrip (cfbEncRule P) (cfbDecRule P) o d d' :=
  ⟨_, cfbEncRule_result P o d, by rw [cfbDecRule_result, ← h, cfbDecrypt_cfbEncrypt]⟩

theorem ofb_roundTrip : RoundTrip (ofbEncRule P) (ofbDecRule P) o d d' :=
  ⟨_, congrArg (Result.ok · none) (ofb_blks P o.iv o.inp d), congrArg (Result.ok · none)
    ((ofb_blks P o.iv _ d').trans (by rw [← h, xorStream_xorStream]))⟩

theorem ctr_roundTrip : RoundTrip (ctrEncRule P) (ctrDecRule P) o d d' :=
  ⟨_, congrArg (Result.ok · none) (ctr_blks P o.iv o.inp d), congrArg (Result.ok · none)
    ((ctr_blks P o.iv _ d').trans (by rw [← h, xorStream_xorStream]))⟩

theorem cts_roundTrip (h16 : 16 ≤ o.inp.length) : RoundTrip (ctsEncRule P) (ctsDecRule P) o d d' :=
  ⟨_, ctsEncRule_result P d h16, by rw [ctsDecRule_result, ← h, ctsDecrypt_ctsSwap _ _ h16]⟩

end RoundTrips

/-- Settles O50: one round trip per mode. -/
theorem confidentialityModesRoundTrip : Obligations.ConfidentialityModesRoundTrip := by
  intro P o d d' h rules hrules hlen
  change RoundTrip rules.1 rules.2.1 o d d'
  simp only [List.mem_cons, List.not_mem_nil, or_false] at hrules
  rcases hrules with rfl | rfl | rfl | rfl | rfl | rfl <;> dsimp only at hlen ⊢
  · exact ecb_roundTrip P o h
  · exact cbc_roundTrip P o h
  · exact cfb_roundTrip P o h
  · exact ofb_roundTrip P o h
  · exact ctr_roundTrip P o h
  · exact cts_roundTrip P o h hlen

/-! ## The lengths of the outputs -/

/-- A decryption that removes padding takes away one to sixteen bytes (R85). -/
theorem unpadded_length {q out : Bytes} {tout : Option Bytes} (h : unpadded q = .ok out tout) :
    ∃ p, 1 ≤ p ∧ p ≤ 16 ∧ out.length + p = q.length := by
  by_cases hok : padOk q = true
  · obtain ⟨h1, h16, hlen, -⟩ := (padOk_iff q).mp hok
    rw [unpadded, if_pos hok] at h
    obtain ⟨rfl, -⟩ := Result.ok.inj h
    exact ⟨padCount q, h1, h16, by rw [unpad, length_msb]; omega⟩
  · rw [unpadded, if_neg hok] at h
    cases h

theorem length_of_outSpan {r : Result} {n : Nat} (hspan : outSpan Params.zero r = n) {out : Bytes}
    {tout : Option Bytes} (h : r = .ok out tout) : out.length = n := by
  rwa [h] at hspan

theorem length_whole (b : Bytes) (hw : b.length % 16 = 0) : 16 * numBlocks b = b.length := by
  rw [numBlocks_of_whole hw]
  omega

/-- A rule that answers `ok` only when its test holds. -/
theorem length_of_ite_ok {p : Prop} [Decidable p] {x out : Bytes} {t tout : Option Bytes} {e : Err} {d d' : Dp}
    (h : (if p then (Result.ok x t, d) else (.fail e, d')).1 = .ok out tout) : out.length = x.length := by
  by_cases hp : p
  · rw [if_pos hp] at h
    rw [(Result.ok.inj h).1]
  · rw [if_neg hp] at h
    cases h

/-- `GCM.ENC` answers the stream of the counter blocks after `J0` (R119). -/
theorem gcmEncRule_out (P : Prim) (o : Operands) (d : Dp) :
    ∃ tout, (gcmEncRule P o d).1 = .ok (gcmStream P d.key o.iv o.inp) tout := by
  have hout : (gctr P (inc32 (gcmSetup P o.iv d).j0) o.inp (gcmSetup P o.iv d)).1 = gcmStream P d.key o.iv o.inp := by
    rw [gctr_result, gcmSetup_j0, gcmSetup_key]
    rfl
  dsimp only [gcmEncRule]
  rw [hout]
  exact ⟨_, rfl⟩

/-- Settles O52: each rule's output is one of the closed forms, or a loop of `xorp`. -/
theorem outputLengthsPerMode : Obligations.OutputLengthsPerMode := by
  intro P o d d' i out tout h
  have hr : (ruleOf P i o d).1 = .ok out tout := congrArg Prod.fst h
  have hpad : 16 * numBlocks (pad o.inp) = 16 * (o.inp.length / 16 + 1) := by
    rw [length_whole _ (length_pad_mod o.inp), length_pad]
  cases i <;> simp only [Instr.mode, Instr.dir, reduceCtorEq, or_self, or_false, true_imp_iff, false_imp_iff,
    and_true, true_and, or_true]
  case ecbEnc =>
    rw [← (Result.ok.inj ((ecbEncRule_result P o d).symm.trans hr)).1, length_ecbMap, hpad]
  case cbcEnc =>
    rw [← (Result.ok.inj ((cbcEncRule_result P o d).symm.trans hr)).1, length_cbcEncrypt, hpad]
  case ecbDec =>
    intro h0 hw
    have hp := unpadded_length ((ecbDecRule_result P d h0 hw).symm.trans hr)
    rwa [length_ecbMap, length_whole _ hw] at hp
  case cbcDec =>
    intro h0 hw
    have hp := unpadded_length ((cbcDecRule_result P d h0 hw).symm.trans hr)
    rwa [length_cbcDecrypt, length_whole _ hw] at hp
  case ctsEnc => exact fun h16 => length_of_outSpan (outSpan_ctsEncRule h16) hr
  case ctsDec => exact fun h16 => length_of_outSpan (outSpan_ctsDecRule h16) hr
  case ccmEnc =>
    dsimp only [ruleOf, ccmEncRule] at hr
    rw [← (Result.ok.inj hr).1, length_forBlocks_xorp (fun _ _ _ => ⟨_, rfl⟩)]
  case ccmDec =>
    dsimp only [ruleOf, ccmDecRule] at hr
    exact (length_of_ite_ok hr).trans (length_forBlocks_xorp (fun _ _ _ => ⟨_, rfl⟩) _ _ _)
  case gcmDec =>
    dsimp only [ruleOf, gcmDecRule] at hr
    exact (length_of_ite_ok hr).trans (length_gctr _ _ _ _)
  case gcmEnc =>
    obtain ⟨_, hout⟩ := gcmEncRule_out P o d
    rw [← (Result.ok.inj (hout.symm.trans hr)).1]
    exact length_xorStream _ _
  all_goals
    exact (congrArg List.length (Result.ok.inj hr).1).symm.trans (length_forBlocks_xorp (fun _ _ _ => ⟨_, rfl⟩) _ _ _)

/-! ## Two outputs under one keystream -/

/-- The keystream modes: the output is the payload under a keystream made from the key and the IV alone. -/
theorem keystream_rules (P : Prim) (key iv : Bytes) : ∀ rule ∈ [ofbEncRule P, ctrEncRule P, gcmEncRule P],
    ∃ ks, ∀ (o : Operands) (d : Dp), d.key = key → o.iv = iv → ∃ tout, (rule o d).1 = .ok (xorStream ks o.inp) tout := by
  intro rule hrule
  simp only [List.mem_cons, List.not_mem_nil, or_false] at hrule
  rcases hrule with rfl | rfl | rfl
  · refine ⟨fun i => (P key)^[i + 1] (blockOf iv), ?_⟩
    rintro o d rfl rfl
    exact ⟨none, congrArg (Result.ok · none) (ofb_blks P o.iv o.inp d)⟩
  · refine ⟨fun i => P key (blockOf iv + BitVec.ofNat 128 i), ?_⟩
    rintro o d rfl rfl
    exact ⟨none, congrArg (Result.ok · none) (ctr_blks P o.iv o.inp d)⟩
  · refine ⟨fun i => P key (inc32^[i + 1] (gcmJ0 P key iv)), ?_⟩
    rintro o d rfl rfl
    exact gcmEncRule_out P o d

/-- Settles O53: the keystream cancels. -/
theorem keystreamReuseXorsPayloads : Obligations.KeystreamReuseXorsPayloads := by
  intro P o o' d d' e e' out out' tout tout' hkey hiv hlen rule hrule h h'
  obtain ⟨ks, hks⟩ := keystream_rules P d.key o.iv rule hrule
  obtain ⟨_, hr⟩ := hks o d rfl rfl
  obtain ⟨_, hr'⟩ := hks o' d' hkey.symm hiv.symm
  rw [← (Result.ok.inj (hr.symm.trans (congrArg Prod.fst h))).1,
    ← (Result.ok.inj (hr'.symm.trans (congrArg Prod.fst h'))).1, xorBytes_xorStream ks hlen]

end Sys2Proof.Proofs
end

section
/-! PROOF. What the rules of CCM and GCM compute, in closed form (43_aead_modes.md R117 to R120): the stream and the tag of
the operands, and for a decryption the comparison of that tag with the supplied one (R115, R116). -/

namespace Sys2Proof.Proofs

open Sys2Proof.Machine Sys2Proof.Laws

/-! ## The supplied tag -/

/-- The result of a decryption that computes the tag `tag` and the output `out`, `tin` supplied (R115, R116). -/
def verified (tag tin out : Bytes) : Result := if tag = tin then .ok out none else .fail .integrityError

/-- A tag has the 16 bytes of its block (R113). -/
theorem msb_tagBytes (x : Block) : msb Config.tagBytes (bytesOf x) = bytesOf x :=
  List.take_of_length_le (length_bytesOf x).le

theorem verified_of_cteq {x : Block} {tin out : Bytes} {d d' : Dp} (h : tin.length = 16) :
    (if cteq (msb Config.tagBytes (bytesOf x)) tin then (Result.ok out none, d) else (.fail .integrityError, d')).1
      = verified (bytesOf x) tin out := by
  have hiff := tagComparisonDecidesEquality (bytesOf x) tin (by rw [length_bytesOf, h])
  rw [msb_tagBytes, apply_ite Prod.fst, verified]
  exact if_congr hiff rfl rfl

/-! ## CCM -/

section Ccm

variable {P : Prim} {n : Bytes} {body : Nat → Bytes → Dp → Bytes × Dp}

/-- A loop whose round `j` xors its block with the encryption of `ctr_j` answers the stream (R74, R117): the counter loop of
R117 and the peek of R118 alike. -/
theorem ccmStream_of_loop
    (round : ∀ j b d, (body j b d).1 = xorp b (P d.key (ccmCtr n j)) ∧ (body j b d).2.key = d.key) (b : Bytes) (d : Dp) :
    (forBlocks body 1 (blks b) d).1 = ccmStream P d.key n b := by
  rw [← take_numBlocks_blks]
  refine (forBlocks_take_blks (I := fun _ e => e.key = d.key) le_rfl (fun i _ e he => ?_) rfl).1
  obtain ⟨hout, hkey⟩ := round (1 + i) (blk i b) e
  exact ⟨by rw [hout, he, Nat.add_comm], hkey.trans he⟩

/-- What a round keeps of the key and the first counter block, the loop keeps. -/
theorem forBlocks_key_j0 (round : ∀ j b d, (body j b d).2.key = d.key ∧ (body j b d).2.j0 = d.j0) (k : Nat)
    (bs : List Bytes) (d : Dp) :
    (forBlocks body k bs d).2.key = d.key ∧ (forBlocks body k bs d).2.j0 = d.j0 := by
  refine forBlocks_keeps (I := fun e => e.key = d.key ∧ e.j0 = d.j0) (fun j b e ⟨hkey, hj0⟩ => ?_) _ _ _ ⟨rfl, rfl⟩
  obtain ⟨hkey', hj0'⟩ := round j b e
  exact ⟨hkey'.trans hkey, hj0'.trans hj0⟩

section Mac

variable (round : ∀ j b d, (body j b d).2.y = P d.key (d.y ^^^ blockOf b) ∧ (body j b d).2.key = d.key)
include round

/-- A loop whose rounds each absorb their block into the MAC folds them into `eng.Y` (R80). -/
theorem forBlocks_y_of_mac (k : Nat) (bs : List Bytes) (d : Dp) :
    (forBlocks body k bs d).2.y = bs.foldl (fun y b => P d.key (y ^^^ blockOf b)) d.y := by
  induction bs generalizing k d with
  | nil => rfl
  | cons b bs ih =>
    obtain ⟨hy, hkey⟩ := round k b d
    rw [forBlocks_cons, ih, hy, hkey, List.foldl_cons]

/-- From `mac_init` on, the MAC loops of R117 and of R118 alike (R80). -/
theorem forBlocks_y_eq_cbcMac (k : Nat) (bs : List Bytes) (d : Dp) :
    (forBlocks body k bs d.macInit).2.y = cbcMac P d.key bs :=
  forBlocks_y_of_mac round k bs d.macInit

end Mac

end Ccm

/-- The counter loop of R117 keeps what the tag is made of: the first counter block, and the MAC value in `T`. -/
theorem ccmCtr_loop_keeps (P : Prim) (n : Bytes) (k : Nat) (bs : List Bytes) (d : Dp) :
    (forBlocks (ccmCtrBody P n) k bs d).2.key = d.key ∧ (forBlocks (ccmCtrBody P n) k bs d).2.j0 = d.j0
      ∧ (forBlocks (ccmCtrBody P n) k bs d).2.tmpT = d.tmpT :=
  forBlocks_keeps (I := fun e => e.key = d.key ∧ e.j0 = d.j0 ∧ e.tmpT = d.tmpT) (fun _ _ _ h => h) _ _ _ ⟨rfl, rfl, rfl⟩

theorem ccmEncRule_result (P : Prim) (o : Operands) (d : Dp) :
    (ccmEncRule P o d).1 =
      .ok (ccmStream P d.key o.iv o.inp) (some (ccmTag P d.key o.iv o.aad o.inp)) := by
  dsimp only [ccmEncRule]
  have hkey := forBlocks_key (body := ccmMacBody P) (by intros; rfl) 0 (blks (ccmFormat o.iv o.aad o.inp)) d.macInit
  have hmac := forBlocks_y_eq_cbcMac (body := ccmMacBody P) (by intros; exact ⟨rfl, rfl⟩) 0
    (blks (ccmFormat o.iv o.aad o.inp)) d
  generalize forBlocks (ccmMacBody P) 0 _ d.macInit = m at hkey hmac ⊢
  obtain ⟨hkey', hj0, hT⟩ := ccmCtr_loop_keeps P o.iv 1 (blks o.inp) { m.2 with tmpT := m.2.y, j0 := ccmCtr o.iv 0 }
  rw [ccmStream_of_loop (by intros; exact ⟨rfl, rfl⟩), enc_fst, hkey', hj0, hT]
  dsimp only
  rw [hkey, hmac, msb_tagBytes, msb_tagBytes, ← bytesOf_xor, macInit_key, ccmTag]

/-- Both passes of R118 run the counter loop under the one key. -/
theorem ccmDecRule_result (P : Prim) {o : Operands} (d : Dp) (h16 : o.tin.length = 16) :
    (ccmDecRule P o d).1 =
      verified (ccmTag P d.key o.iv o.aad (ccmStream P d.key o.iv o.inp)) o.tin (ccmStream P d.key o.iv o.inp) := by
  dsimp only [ccmDecRule]
  have hpeek := ccmStream_of_loop (body := ccmPeekBody P o.iv) (by intros; exact ⟨rfl, rfl⟩) o.inp
    { d with j0 := ccmCtr o.iv 0 }
  have hkeep := forBlocks_key_j0 (body := ccmPeekBody P o.iv) (by intros; exact ⟨rfl, rfl⟩) 1
    (blks o.inp) { d with j0 := ccmCtr o.iv 0 }
  generalize forBlocks (ccmPeekBody P o.iv) 1 _ _ = q at hpeek hkeep ⊢
  obtain ⟨hqkey, hqj0⟩ := hkeep
  have hmac := forBlocks_y_eq_cbcMac (body := ccmPeekMacBody P) (by intros; exact ⟨rfl, rfl⟩) 0
    (blks (ccmFormat o.iv o.aad q.1)) q.2
  have hkeep := forBlocks_key_j0 (body := ccmPeekMacBody P) (by intros; exact ⟨rfl, rfl⟩) 0
    (blks (ccmFormat o.iv o.aad q.1)) q.2.macInit
  generalize forBlocks (ccmPeekMacBody P) 0 _ q.2.macInit = m at hmac hkeep ⊢
  obtain ⟨hkey, hj0⟩ := hkeep
  rw [verified_of_cteq h16, ccmStream_of_loop (by intros; exact ⟨rfl, rfl⟩)]
  simp only [enc_y, enc_fst, enc_key, hmac, hkey, hj0, macInit_key, macInit_j0, hqkey, hqj0, hpeek, ccmTag]

/-! ## GCM -/

/-- The blocks of two strings, the first one of whole blocks (40_datapath.md R71). -/
theorem blks_append {a : Bytes} (b : Bytes) (h : a.length % 16 = 0) : blks (a ++ b) = blks a ++ blks b := by
  have hn : numBlocks (a ++ b) = numBlocks a + numBlocks b := by
    unfold numBlocks
    rw [List.length_append]
    omega
  have ha := length_whole a h
  rw [blks, hn, List.range_add, List.map_append, List.map_map]
  refine congrArg₂ (· ++ ·) (List.map_congr_left fun i hi => ?_) (List.map_congr_left fun i _ => ?_)
  · have hi := List.mem_range.mp hi
    rw [blk_append b (by omega), show 16 - (a.length - 16 * i) = 0 by omega, List.take_zero, List.append_nil]
  · rw [Function.comp_apply, blk, slice, blk, slice, Nat.mul_add, ha, List.drop_length_add_append,
      Nat.add_sub_cancel_left, Nat.add_sub_cancel_left]

/-- The blocks GHASH takes in are those of one string: the padded AAD, the padded ciphertext, the length block (R119). -/
theorem gcmHash_y_eq (a c : Bytes) (d : Dp) :
    (gcmHash a c d).y = ghash d.h (blks (padz a ++ padz c ++ (be 8 (8 * a.length) ++ be 8 (8 * c.length)))) := by
  have hlen : (be 8 (8 * a.length) ++ be 8 (8 * c.length)).length = 16 := by
    rw [List.length_append, length_be, length_be]
  have hwhole : (padz a ++ padz c).length % 16 = 0 := by
    rw [List.length_append, Nat.add_mod, length_padz_mod, length_padz_mod]
  rw [blks_append _ hwhole, blks_one hlen, ghash, List.foldl_append, ← ghash, blks_append _ (length_padz_mod a),
    gcmHash_y, lenblk, List.foldl_cons, List.foldl_nil]

/-- The datapath after the first two lines of R119 and R120: the subkey and the first counter block of the nonce. -/
structure GcmKeyed (P : Prim) (k n : Bytes) (d : Dp) : Prop where
  key : d.key = k
  h : d.h = P k 0
  j0 : d.j0 = gcmJ0 P k n

theorem gcmKeyed_gcmSetup (P : Prim) (n : Bytes) (d : Dp) : GcmKeyed P d.key n (gcmSetup P n d) :=
  ⟨gcmSetup_key P n d, gcmSetup_h P n d, gcmSetup_j0 P n d⟩

section Keyed

variable {P : Prim} {k n : Bytes} {d : Dp} (hd : GcmKeyed P k n d)
include hd

theorem GcmKeyed.after_gctr (icb : Block) (b : Bytes) : GcmKeyed P k n (gctr P icb b d).2 :=
  ⟨(gctr_key P icb b d).trans hd.key, (gctr_h P icb b d).trans hd.h, (gctr_j0 P icb b d).trans hd.j0⟩

/-- The counter mode of GCM starts behind the first counter block (R119, R120). -/
theorem GcmKeyed.gctr_eq (b : Bytes) : (gctr P (inc32 d.j0) b d).1 = gcmStream P k n b := by
  rw [gctr_result, hd.key, hd.j0]
  rfl

/-- The hash takes its subkey from the datapath and keeps all three (R76). -/
theorem GcmKeyed.after_gcmHash (a c : Bytes) : GcmKeyed P k n (gcmHash a c d) :=
  ⟨(gcmHash_key a c d).trans hd.key, by simpa [gcmHash, Dp.ghashAbsorbz] using hd.h,
    (gcmHash_j0 a c d).trans hd.j0⟩

/-- The encrypted first counter block with the hash is the tag (R119, R120). -/
theorem GcmKeyed.tag_eq (a c : Bytes) :
    bytesOf (P (gcmHash a c d).key (gcmHash a c d).j0 ^^^ (gcmHash a c d).y)
      = gcmTag P k n a c := by
  rw [(hd.after_gcmHash a c).key, (hd.after_gcmHash a c).j0, gcmHash_y_eq, hd.h, gcmTag]

end Keyed

theorem gcmEncRule_result (P : Prim) (o : Operands) (d : Dp) :
    (gcmEncRule P o d).1 =
      .ok (gcmStream P d.key o.iv o.inp)
        (some (gcmTag P d.key o.iv o.aad (gcmStream P d.key o.iv o.inp))) := by
  have hsetup := gcmKeyed_gcmSetup P o.iv d
  dsimp only [gcmEncRule]
  rw [enc_fst, enc_y, msb_tagBytes, (hsetup.after_gctr _ _).tag_eq, hsetup.gctr_eq]

/-- Pass 2 of R120 starts from the key and the first counter block that pass 1 used. -/
theorem gcmDecRule_result (P : Prim) {o : Operands} (d : Dp) (h16 : o.tin.length = 16) :
    (gcmDecRule P o d).1 =
      verified (gcmTag P d.key o.iv o.aad o.inp) o.tin (gcmStream P d.key o.iv o.inp) := by
  have hsetup := gcmKeyed_gcmSetup P o.iv d
  have hhash := hsetup.after_gcmHash o.aad o.inp
  dsimp only [gcmDecRule]
  rw [verified_of_cteq h16, enc_fst, enc_y, hsetup.tag_eq]
  refine congrArg (verified _ _) (GcmKeyed.gctr_eq ?_ o.inp)
  exact ⟨hhash.key, hhash.h, hhash.j0⟩

end Sys2Proof.Proofs
end

section
/-! PROOF. The end of phase RUN of the authenticated modes (43_aead_modes.md R115 to R120), O37 to O40; and decryption undoes
encryption (R121), O51. -/

namespace Sys2Proof.Proofs

open Sys2Proof.Machine Sys2Proof.Laws

/-! ## The end of RUN -/

/-- A result of CCM or GCM is one on the operands the statements name (30_encoding.md R65). -/
theorem ruleResult_of_isAead {i : Instr} (h : isAead i = true) (rule : Rule) (s : State) :
    ruleResult i rule s =
      rule { key := s.opKey, iv := s.opIv, aad := s.opAad i.aadp, inp := s.opIn,
             tin := if i.dir = .dec then s.opTag else [] } (s.eng.dp.start s.opKey) := by
  have hiv : usesIv i = true := by
    have hm : i.mode = .ccm ∨ i.mode = .gcm := by simpa [isAead] using h
    rcases hm with hm | hm <;> simp [usesIv, hm]
  simp only [ruleResult, operands, usesAad, readsTag, h, hiv, Bool.true_and, if_true, decide_eq_true_eq]
  rfl

theorem ruleResult_of_aeadDec {i : Instr} (h : isAead i = true) (hd : i.dir = .dec) (rule : Rule) (s : State) :
    ruleResult i rule s =
      rule { key := s.opKey, iv := s.opIv, aad := s.opAad i.aadp, inp := s.opIn, tin := s.opTag }
        (s.eng.dp.start s.opKey) := by
  rw [ruleResult_of_isAead h, if_pos hd]

theorem length_opTag (s : State) : s.opTag.length = 16 := length_fetch _ _

/-- A ready decryption that compares its tag ends by that comparison (R115, R116). -/
theorem exec_runEnds_or_runFails_of_verified {i : Instr} {s : State} {tag out : Bytes} (h : Ready i s.opIn.length s)
    (hm : ¬(i.mode = .ecb ∨ i.mode = .cbc))
    (hr : (ruleResult i (ruleOf Config.prim i) s).1 = verified tag s.opTag out) :
    ∃ t, exec i s = .next t ∧ (tag = s.opTag → RunEnds s t out none)
      ∧ (tag ≠ s.opTag → RunFails s t .integrityError) := by
  by_cases htag : tag = s.opTag
  · obtain ⟨t, hx, ht⟩ := exec_runEnds_of_known h (knownSpan_opIn s hm) (hr.trans (if_pos htag))
    exact ⟨t, hx, fun _ => ht, fun hne => absurd htag hne⟩
  · obtain ⟨t, hx, ht⟩ := exec_runFails h (hr.trans (if_neg htag)) (length_opIn s).symm
    exact ⟨t, hx, fun heq => absurd heq htag, fun _ => ht⟩

/-- Settles O37: the counter loop keeps the MAC of the payload in `T`. -/
theorem ccmEncWritesCiphertextAndTag : Obligations.CcmEncWritesCiphertextAndTag := by
  intro ivp aadp tagp s h
  refine exec_runEnds_of_known h (knownSpan_opIn s (by simp [Instr.mode])) ?_
  rw [ruleResult_of_isAead rfl]
  exact ccmEncRule_result Config.prim _ _

/-- Settles O38: pass 1 and pass 2 compute the one plaintext. -/
theorem ccmDecVerifiesThenWrites : Obligations.CcmDecVerifiesThenWrites := by
  rintro ivp aadp tagp s q h rfl
  refine exec_runEnds_or_runFails_of_verified h (by simp [Instr.mode]) ?_
  rw [ruleResult_of_aeadDec rfl rfl]
  dsimp only [ruleOf]
  exact ccmDecRule_result Config.prim _ (length_opTag s)

/-- Settles O39: the hash is over the ciphertext that the counter loop gave. -/
theorem gcmEncWritesCiphertextAndTag : Obligations.GcmEncWritesCiphertextAndTag := by
  intro ivp aadp tagp s h
  obtain ⟨t, hx, ht⟩ := exec_runEnds_of_known h (knownSpan_opIn s (by simp [Instr.mode]))
    ((congrArg Prod.fst (ruleResult_of_isAead rfl _ s)).trans (gcmEncRule_result Config.prim _ _))
  exact ⟨t, _, hx, rfl, ht⟩

/-- Settles O40: the tag is that of the ciphertext supplied. -/
theorem gcmDecVerifiesThenWrites : Obligations.GcmDecVerifiesThenWrites := by
  intro ivp aadp tagp s h
  refine exec_runEnds_or_runFails_of_verified h (by simp [Instr.mode]) ?_
  rw [ruleResult_of_aeadDec rfl rfl]
  dsimp only [ruleOf]
  exact gcmDecRule_result Config.prim _ (length_opTag s)

/-! ## Decryption undoes encryption -/

/-- The tag of an operation verifies against itself. -/
theorem verified_self (tag out : Bytes) : verified tag tag out = .ok out none := if_pos rfl

theorem length_ccmTag (P : Prim) (k n a p : Bytes) : (ccmTag P k n a p).length = 16 := length_bytesOf _

theorem length_gcmTag (P : Prim) (k n a c : Bytes) : (gcmTag P k n a c).length = 16 := length_bytesOf _

/-- The counter mode of CCM is its own inverse. -/
theorem ccmStream_ccmStream (P : Prim) (k n b : Bytes) : ccmStream P k n (ccmStream P k n b) = b :=
  xorStream_xorStream (fun i => P k (ccmCtr n (i + 1))) b

/-- The counter mode of GCM is its own inverse. -/
theorem gcmStream_gcmStream (P : Prim) (k n b : Bytes) : gcmStream P k n (gcmStream P k n b) = b :=
  xorStream_xorStream (fun i => P k (inc32^[i + 1] (gcmJ0 P k n))) b

/-- The rule `dec` gives back the payload from the output and the tag of the rule `enc`, under the same key, nonce and AAD. -/
def TaggedRoundTrip (enc dec : Rule) (o : Operands) (d d' : Dp) : Prop :=
  ∃ out tag, (enc o d).1 = .ok out (some tag) ∧ tag.length = 16
    ∧ (dec { o with inp := out, tin := tag } d').1 = .ok o.inp none

section RoundTrips

variable (P : Prim) (o : Operands) {d d' : Dp} (h : d.key = d'.key)
include h

/-- The decryption computes the tag of the candidate plaintext, which is the payload (R118). -/
theorem ccm_roundTrip : TaggedRoundTrip (ccmEncRule P) (ccmDecRule P) o d d' := by
  refine ⟨_, _, ccmEncRule_result P o d, length_ccmTag .., ?_⟩
  rw [ccmDecRule_result P d' (by exact length_ccmTag ..), ← h, ccmStream_ccmStream, verified_self]

/-- Both directions compute the tag of the ciphertext (R119, R120). -/
theorem gcm_roundTrip : TaggedRoundTrip (gcmEncRule P) (gcmDecRule P) o d d' := by
  refine ⟨_, _, gcmEncRule_result P o d, length_gcmTag .., ?_⟩
  rw [gcmDecRule_result P d' (by exact length_gcmTag ..), ← h, gcmStream_gcmStream, verified_self]

end RoundTrips

/-- Settles O51: one round trip per mode. -/
theorem authenticatedModesRoundTrip : Obligations.AuthenticatedModesRoundTrip := by
  intro P o d d' h rules hrules
  change TaggedRoundTrip rules.1 rules.2 o d d'
  simp only [List.mem_cons, List.not_mem_nil, or_false] at hrules
  rcases hrules with rfl | rfl <;> dsimp only
  · exact ccm_roundTrip P o h
  · exact gcm_roundTrip P o h

end Sys2Proof.Proofs
end

section
/-! PROOF. Which error belongs to which command (60_exceptions.md R123, R125): the statement O44. An operation takes its
error from validation (R89) or from the check of its rule (R91), and each of the two gives a command only its own. -/

namespace Sys2Proof.Proofs

open Sys2Proof.Machine Sys2Proof.Laws

/-- The commands that may end with an error: R125 for the check of padding and tag, R89 for the others. -/
def ErrorBelongs (i : Instr) : Err → Prop
  | .integrityError => (i.mode = .ccm ∨ i.mode = .gcm) ∧ i.dir = .dec
  | .invalidPadding => (i.mode = .ecb ∨ i.mode = .cbc) ∧ i.dir = .dec
  | .shortInputForCTS => i.mode = .cts
  | .illegalCommand => False
  | .invalidKeyLength | .invalidIVLength | .missingRequiredParameter => True

/-! ## Validation -/

/-- One test of R89: its error belongs to the command when the test holds, and so do those of the later tests. -/
theorem errorBelongs_of_test {i : Instr} {p : Prop} [Decidable p] {e : Err} {later : Option Err}
    (htest : p → ErrorBelongs i e) (hlater : ∀ e' ∈ later, ErrorBelongs i e') :
    ∀ e' ∈ (if p then some e else later), ErrorBelongs i e' := by
  split
  case isTrue hp =>
    rintro _ ⟨⟩
    exact htest hp
  case isFalse => exact hlater

/-- Test by test: tests 2 to 8 give errors any command may end with, tests 9 and 10 ask for the mode (and direction). -/
theorem errorBelongs_of_validate {i : Instr} {c : Params} {e : Err} (h : validate i c = some e) : ErrorBelongs i e := by
  have hany : ∀ {p : Prop}, p → True := fun _ => trivial
  have hchain : ∀ e' ∈ validate i c, ErrorBelongs i e' :=
    errorBelongs_of_test hany <| errorBelongs_of_test hany <| errorBelongs_of_test hany <|
    errorBelongs_of_test hany <| errorBelongs_of_test hany <| errorBelongs_of_test hany <|
    errorBelongs_of_test hany <|
    errorBelongs_of_test (fun ⟨hcts, _⟩ => hcts) <|
    errorBelongs_of_test (fun ⟨hmode, hdec, _⟩ => ⟨hmode, hdec⟩) nofun
  exact hchain e h

/-! ## The rules -/

/-- A rule that ends in a check fails with the error of that check. -/
theorem fail_of_check {p : Prop} [Decidable p] {out : Bytes} {tout : Option Bytes} {e e' : Err} {d d' : Dp}
    (h : (if p then (Result.ok out tout, d) else (.fail e, d')).1 = .fail e') : e = e' := by
  split at h
  · cases h
  · exact Result.fail.inj h

/-- The padding check of R98 and R101 and the tag check of R118 and R120 are the only failures of a rule. -/
theorem errorBelongs_of_ruleOf {P : Prim} {i : Instr} {o : Operands} {d : Dp} {e : Err}
    (h : (ruleOf P i o d).1 = .fail e) : ErrorBelongs i e := by
  cases i with
  | ecbDec =>
    dsimp only [ruleOf, ecbDecRule] at h
    obtain rfl : Err.invalidPadding = e := fail_of_check h
    exact ⟨.inl rfl, rfl⟩
  | cbcDec =>
    dsimp only [ruleOf, cbcDecRule] at h
    obtain rfl : Err.invalidPadding = e := fail_of_check h
    exact ⟨.inr rfl, rfl⟩
  | ccmDec =>
    dsimp only [ruleOf, ccmDecRule] at h
    obtain rfl : Err.integrityError = e := fail_of_check h
    exact ⟨.inl rfl, rfl⟩
  | gcmDec =>
    dsimp only [ruleOf, gcmDecRule] at h
    obtain rfl : Err.integrityError = e := fail_of_check h
    exact ⟨.inr rfl, rfl⟩
  | ctsEnc =>
    dsimp only [ruleOf, ctsEncRule] at h
    split at h <;> cases h
  | ctsDec =>
    dsimp only [ruleOf, ctsDecRule] at h
    split at h <;> cases h
  | _ => cases h

/-! ## The end of RUN -/

/-- The result of a committed operation is an error exactly when its rule failed with it (R91, R92). -/
theorem commit_res_eq_some_iff (r : Result × Dp) (s : State) (e : Err) :
    (s.commit r).eng.res = some e ↔ r.1 = .fail e := by
  obtain ⟨_ | e', d⟩ := r <;> simp

/-- An operation that ends with an error ends with one that belongs to its command. -/
theorem errorBelongs_of_exec {i : Instr} {s t : State} (hx : exec i s = .next t) {e : Err}
    (he : t.eng.res = some e) : ErrorBelongs i e := by
  cases hv : validate i s.eng.cfg with
  | some e' =>
    rw [exec_eq_ruleOf, runRule_invalid hv] at hx
    obtain rfl := Host.Outcome.next.inj hx
    obtain rfl : e' = e := Option.some.inj he
    exact errorBelongs_of_validate hv
  | none =>
    obtain ⟨-, rfl⟩ := exec_next_commit hx hv
    exact errorBelongs_of_ruleOf ((commit_res_eq_some_iff _ s e).mp he)

/-- Settles O44: each clause is `ErrorBelongs` at its error. -/
theorem errorsBelongToTheirCommands : Obligations.ErrorsBelongToTheirCommands := by
  intro s t i hx
  exact ⟨errorBelongs_of_exec hx, errorBelongs_of_exec hx, errorBelongs_of_exec hx, errorBelongs_of_exec hx⟩

end Sys2Proof.Proofs
end

section
/-! PROOF. Reset (70_reset_and_hazards.md R139, R140): the state after reset, what a reset event restores and which
bytes of memory it leaves, and when it answers; the statements O9, O10 and O12. -/

namespace Sys2Proof.Proofs

open Sys2Proof.Machine Sys2Proof.Laws

/-- Settles O9: the reset state, read off field by field. -/
theorem resetValuesOfTheRegisters : Obligations.ResetValuesOfTheRegisters :=
  ⟨rfl, rfl, rfl, rfl, rfl, rfl, rfl, rfl, rfl, rfl, rfl, rfl,
    rfl, rfl, rfl, rfl, rfl, rfl, rfl, rfl, rfl, rfl, rfl⟩

/-- Settles O10: the engine is idle, so what the invariant says of a busy one asks nothing. -/
theorem invariantHoldsAtReset : Obligations.InvariantHoldsAtReset where
  memWf := wf_nil
  busyIff := iff_of_false Bool.false_ne_true (· rfl)
  notBoth _ := rfl
  busyClear _ := ⟨rfl, rfl⟩
  cmdHeld := rfl
  cfgHeld _ := rfl
  quietZero _ := rfl
  keyLen := length_zero_key
  idleErr _ := rfl
  pending _ := rfl
  runValid hp := by cases hp
  finishRange hp := by cases hp

/-- A reset is refused for the obligations of the operation in flight only; else it answers, and scrambles the abandoned
output (R140; log 16). -/
theorem hostReset_answers {s : State} {op : Option (Instr × State)} (hop : inFlight s = .ok op) :
    ∃ t, hostReset s = .next t ∧ t.mem = scramble (abandoned s op) s.draws s.mem := by
  unfold hostReset
  rw [hop]
  exact ⟨_, rfl, rfl⟩

/-- A reset leaves every byte outside the abandoned output as it was (R140). -/
theorem hostReset_read {s t : State} (h : s.Inv) (ht : hostReset s = .next t) {op : Option (Instr × State)}
    (hop : inFlight s = .ok op) {a : Nat} (ha : ∀ r ∈ abandoned s op, r.has a = false) :
    Memory.read t.mem a = Memory.read s.mem a := by
  obtain ⟨u, hu, hmem⟩ := hostReset_answers hop
  obtain rfl : t = u := Host.Outcome.next.inj (ht.symm.trans hu)
  rw [hmem]
  exact read_scramble h.memWf (abandoned_inRange h hop) ha

/-- Settles O12: the registers are those of `State.reset`, and no operation in flight abandons no buffer. -/
theorem resetEventRestoresEveryRegister : Obligations.ResetEventRestoresEveryRegister := by
  refine fun s h => ⟨fun t ht => ⟨?_, fun op hop a ha => hostReset_read h ht hop ha⟩,
    fun i u hiu => ?_, fun hq => ?_⟩
  · obtain ⟨op, -, rfl⟩ := hostReset_next ht
    exact ⟨rfl, rfl, rfl, rfl, rfl, rfl, rfl, rfl, rfl, rfl⟩
  · obtain ⟨t, ht, -⟩ := hostReset_answers (inFlight_op hiu)
    exact ⟨t, ht⟩
  · exact hostReset_answers (inFlight_none hq)

end Sys2Proof.Proofs
end

section
/-! PROOF. How often each command invokes the primitive and the multiplier (70_reset_and_hazards.md R149): the counts in
the sequence `ruleOf_work`, and O54. -/

namespace Sys2Proof.Proofs

open Sys2Proof.Machine Sys2Proof.Laws

/-! ## Counting a sequence -/

/-- How many of each invocation are in the sequence `w`: a row of the table of R149. -/
def Tally (w : List PrimOp) (enc dec gf : Nat) : Prop :=
  w.count .enc = enc ∧ w.count .dec = dec ∧ w.count .gfMul = gf

theorem tally_enc {k n : Nat} (h : k = n) : Tally (List.replicate k .enc) n 0 0 := by
  simp [Tally, List.count_replicate, h]

theorem tally_dec {k n : Nat} (h : k = n) : Tally (List.replicate k .dec) 0 n 0 := by
  simp [Tally, List.count_replicate, h]

theorem Tally.append {v w : List PrimOp} {e e' c c' g g' : Nat} (hv : Tally v e c g) (hw : Tally w e' c' g') :
    Tally (v ++ w) (e + e') (c + c') (g + g') := by
  obtain ⟨rfl, rfl, rfl⟩ := hv
  obtain ⟨rfl, rfl, rfl⟩ := hw
  exact ⟨List.count_append, List.count_append, List.count_append⟩

/-- The order of the invocations does not matter. -/
theorem Tally.perm {v w : List PrimOp} {e c g : Nat} (hv : Tally v e c g) (h : w.Perm v) : Tally w e c g := by
  simpa only [Tally, h.count_eq] using hv

section Rules

variable {P : Prim} {i : Instr} {o : Operands} {d : Dp} {enc dec gf : Nat}

/-- On success: the work up to the check and the work after it. -/
theorem tally_ok (hd : d.work = []) (hok : (ruleOf P i o d).1.isOk = true)
    (h : Tally (workToCheck i o.iv.length o.aad.length o.inp.length ++ workAfterCheck i o.inp.length) enc dec gf) :
    Tally (ruleOf P i o d).2.work enc dec gf := by
  rwa [ruleOf_work, hd, if_pos hok, List.nil_append]

/-- On failure: the work up to the check. -/
theorem tally_fail (hd : d.work = []) (hfail : ¬(ruleOf P i o d).1.isOk = true)
    (h : Tally (workToCheck i o.iv.length o.aad.length o.inp.length) enc dec gf) :
    Tally (ruleOf P i o d).2.work enc dec gf := by
  rwa [ruleOf_work, hd, if_neg hfail, List.nil_append, List.append_nil]

/-- A command without a check does no work after one. -/
theorem tally_no_check (hd : d.work = []) (hi : workAfterCheck i o.inp.length = [])
    (h : Tally (workToCheck i o.iv.length o.aad.length o.inp.length) enc dec gf) :
    Tally (ruleOf P i o d).2.work enc dec gf := by
  rwa [ruleOf_work, hd, hi, ite_self, List.nil_append, List.append_nil]

end Rules

/-! ## The lengths of the stretches -/

/-- A decryption that takes the last block of a whole number of blocks first (R98, R101). -/
theorem tally_last_block_first {n : Nat} (h0 : 0 < n) (hw : n % 16 = 0) :
    Tally ([PrimOp.dec] ++ List.replicate (n / 16 - 1) .dec) 0 ((n + 15) / 16) 0 := by
  have hn : n / 16 - 1 + 1 = (n + 15) / 16 := by omega
  exact tally_dec hn

/-- CTS does one invocation per block, whether it has one block or more (R108, R109). -/
theorem ctsBlocks_eq {n : Nat} (h : 16 ≤ n) :
    (if blocksIn n = 1 then 1 else blocksIn n - 2 + 2) = (n + 15) / 16 := by
  unfold blocksIn
  split <;> omega

theorem length_alen {a : Nat} (h0 : 0 < a) (h32 : a < 2 ^ 32) : (alen a).length = if a < 65280 then 2 else 6 := by
  split
  · next hlt => rw [alen_of_lt h0 hlt]; rfl
  · next hge => rw [alen_of_ge (not_lt.mp hge) h32]; rfl

/-- How many blocks the associated data of CCM and its length field fill (R82, R83). -/
def aadBlocks (a : Nat) : Nat := if a = 0 then 0 else (a + (if a < 65280 then 2 else 6) + 15) / 16

/-- The MAC of CCM takes in `B0`, the blocks of the associated data with its length, and those of the payload (R83). -/
theorem macBlocks_eq {nonce a n : Nat} (hn : nonce ≤ 15) (h32 : a < 2 ^ 32) :
    macBlocks nonce a n = 1 + aadBlocks a + (n + 15) / 16 := by
  unfold macBlocks blocksIn aadBlocks
  rcases Nat.eq_zero_or_pos a with rfl | h0
  · rw [if_neg (lt_irrefl 0), if_pos rfl]
    omega
  · rw [length_alen h0 h32, if_pos h0, if_neg h0.ne']
    omega

/-- CCM up to its tag: the blocks of the MAC, the payload's counter blocks and the tag's (R117, R118). -/
theorem tally_ccm {nonce a n : Nat} (hn : nonce ≤ 13) (h32 : a < 2 ^ 32) :
    Tally (List.replicate (macBlocks nonce a n + blocksIn n + 1) .enc)
      (2 * ((n + 15) / 16) + aadBlocks a + 2) 0 0 := by
  refine tally_enc ?_
  rw [macBlocks_eq (by omega) h32, blocksIn]
  omega

/-- The success of CCM's decryption: the payload's counter blocks once more (R118). -/
theorem tally_ccmDec {nonce a n : Nat} (hn : nonce ≤ 13) (h32 : a < 2 ^ 32) :
    Tally (List.replicate (macBlocks nonce a n + blocksIn n + 1) .enc ++ List.replicate (blocksIn n) .enc)
      (3 * ((n + 15) / 16) + aadBlocks a + 2) 0 0 := by
  rw [List.replicate_append_replicate]
  refine tally_enc ?_
  rw [macBlocks_eq (by omega) h32, blocksIn]
  omega

/-- The tag of GCM: an encryption for the hash key and one for the tag's block, the multiplications of the first counter
block and of the hash (R119, R120). -/
theorem tally_gcmTag (g a n : Nat) :
    Tally (PrimOp.enc :: (List.replicate g PrimOp.gfMul ++ gcmTagWork a n)) 2 0
      (g + (a + 15) / 16 + (n + 15) / 16 + 1) := by
  simp [Tally, gcmTagWork, List.count_replicate, blocksIn, Nat.add_assoc]

/-- GCM with the payload's counter blocks after the tag: the success of the decryption (R120). -/
theorem tally_gcmDec (g a n : Nat) :
    Tally (PrimOp.enc :: (List.replicate g PrimOp.gfMul ++ gcmTagWork a n) ++ List.replicate (blocksIn n) .enc)
      ((n + 15) / 16 + 2) 0 (g + (a + 15) / 16 + (n + 15) / 16 + 1) := by
  have h := (tally_gcmTag g a n).append (tally_enc (k := blocksIn n) rfl)
  rwa [Nat.add_comm 2] at h

/-- GCM with the payload's counter blocks before the tag: the encryption (R119). -/
theorem tally_gcmEnc (g a n : Nat) :
    Tally (PrimOp.enc :: (List.replicate g PrimOp.gfMul ++ List.replicate (blocksIn n) .enc ++ gcmTagWork a n))
      ((n + 15) / 16 + 2) 0 (g + (a + 15) / 16 + (n + 15) / 16 + 1) := by
  have h : (List.replicate g PrimOp.gfMul ++ List.replicate (blocksIn n) PrimOp.enc ++ gcmTagWork a n).Perm
      (List.replicate g PrimOp.gfMul ++ gcmTagWork a n ++ List.replicate (blocksIn n) PrimOp.enc) := by
    rw [List.append_assoc, List.append_assoc]
    exact List.perm_append_comm.append_left _
  exact (tally_gcmDec g a n).perm (h.cons _)

/-! ## The statement -/

/-- Settles O54: one row of the table of R149 per command. -/
theorem primitiveInvocationCounts : Obligations.PrimitiveInvocationCounts := by
  intro P o d m mp a ab g f1 f2 f3 hd hm hmp ha hab hg did ok whole ccm
  subst hm hmp ha hab hg
  have hpadded := tally_enc (k := o.inp.length / 16 + 1) rfl
  have hloop := tally_enc (k := blocksIn o.inp.length) rfl
  have hcheck := tally_dec (k := 1) rfl
  refine ⟨tally_no_check hd rfl hpadded, tally_no_check hd rfl hpadded,
    fun ⟨h0, hw⟩ hok => tally_ok hd hok (tally_last_block_first h0 hw), fun _ hf => tally_fail hd hf hcheck,
    fun ⟨h0, hw⟩ hok => tally_ok hd hok (tally_last_block_first h0 hw), fun _ hf => tally_fail hd hf hcheck,
    tally_no_check hd rfl hloop, tally_no_check hd rfl hloop, tally_no_check hd rfl hloop,
    tally_no_check hd rfl hloop, tally_no_check hd rfl hloop, tally_no_check hd rfl hloop,
    fun h16 => ⟨tally_no_check hd rfl (tally_enc (ctsBlocks_eq h16)),
      tally_no_check hd rfl (tally_dec (ctsBlocks_eq h16))⟩,
    fun ⟨_, hn, h32⟩ => tally_no_check hd rfl (tally_ccm hn h32),
    fun ⟨_, hn, h32⟩ hok => tally_ok hd hok (tally_ccmDec hn h32),
    fun ⟨_, hn, h32⟩ hf => tally_fail hd hf (tally_ccm hn h32),
    tally_no_check hd rfl (tally_gcmEnc _ _ _), fun hok => tally_ok hd hok (tally_gcmDec _ _ _),
    fun hf => tally_fail hd hf (tally_gcmTag _ _ _)⟩

end Sys2Proof.Proofs
end
